-- ==== Sys2Proof/Word.lean ====
section
/-! DEFINITION. The bit-vector types that cross the ports of the bus-bridge engine (spec/00_scope.md R7, R9). -/

namespace Sys2Proof

/-- A stored value byte, "value: u8" (10_state.md R21; `VALUE_BITS` = 8). -/
abbrev Byte := BitVec 8

/-- An external Address (00_scope.md R13; `ADDR_BITS` = 16). -/
abbrev Address := BitVec 16

/-- A word of a command, a request, a ring cursor (30_encoding.md R101, R108; 10_state.md R25). -/
abbrev Word := BitVec 32

/-- A permission code (30_encoding.md R106; `PERM_BITS` = 2). -/
abbrev Perm := BitVec 2

/-- The fused entry `{perm[1:0], value[7:0]}` (10_state.md R28). -/
abbrev Entry := BitVec 10

end Sys2Proof
end

