-- ==== Sys2Proof/Config.lean ====
section
/-! DEFINITION. What is fixed for the machine: the parameters of spec/00_scope.md R7 and
spec/45_reference_consumer.md R281, and the free values, which the spec leaves open and nothing here evaluates. -/

namespace Sys2Proof.Config

/-- `SPACE`: the number of store entries (R7). -/
def space : Nat := 65536

/-- The default of the parameter `EVT_SLOTS`, N: the reference design's (R7). The machine itself takes N from its state:
it is the length of `Machine.State.slots`, which no step changes (log 21). -/
def evtSlots : Nat := 8

/-- The four permission codes, numbered in the order of the source's table (30_encoding.md R106). -/
def permWriteOnly : Perm := 0
/-- See `permWriteOnly`. -/
def permReadWrite : Perm := 1
/-- See `permWriteOnly`. -/
def permNoAccess : Perm := 2
/-- See `permWriteOnly`. -/
def permReadOnly : Perm := 3

/-- `MODE_REG` of the reference consumer (R281). -/
def modeReg : Address := 0xBFFE

/-- `MODE_MASK` of the reference consumer (R281). -/
def modeMask : Byte := 0x20

/-- The two watched ranges of the reference consumer, by first address and length (R281). -/
structure WatchRanges where
  videoBase : Nat
  videoLen  : Nat
  soundBase : Nat
  soundLen  : Nat
  deriving DecidableEq, Repr, Inhabited

/-- FREE VALUE. `VIDEO_BASE`, `VIDEO_LEN`, `SOUND_BASE`, `SOUND_LEN`: named without numbers, open parameters
(R281, 93_implementation_defined.md U22; log 5). -/
opaque watch : WatchRanges

/-- FREE VALUE. The n-th byte no rule fixes: what an external read gets while nobody drives the lines
(40_bus_transactions.md R151), and which bits of a torn read are stale (20_memory.md R66; log 4). -/
opaque freeByte : Nat → Byte

/-- FREE VALUE. `V[a]` after the b-th reset, until it is written: arbitrary but stable
(10_state.md R40, R42; log 2). Arguments: b, a. -/
opaque powerUpValue : Nat → Nat → Byte

/-- FREE VALUE. `P[a]` after the b-th reset, until it is written: one of the four codes, which one is not known
(10_state.md R41, R42; log 2). Arguments: b, a. -/
opaque powerUpPerm : Nat → Nat → Perm

end Sys2Proof.Config
end

