-- ==== Sys2Proof/Syntax.lean ====
section
/-! DEFINITION. The operations of the block, one constructor per row of spec/opcode_table.json, and the words that
carry them across the two ports (spec/30_encoding.md R100, R101, R108, R109). -/

namespace Sys2Proof

/-- The operations (00_scope.md R15). Operands are the immediate fields of the request or command (30_encoding.md R110). -/
inductive Instr where
  /-- Read transaction (40_bus_transactions.md R146). `wdata` is carried and latched, and means nothing (R101, R143). -/
  | brd (addr : Address) (wdata : Byte)
  /-- Write transaction (40_bus_transactions.md R147). -/
  | bwr (addr : Address) (wdata : Byte)
  /-- Read one value byte (41_store_primitives.md R181). -/
  | rdv (addr : Word)
  /-- Write one value byte (41_store_primitives.md R182). -/
  | wrv (addr : Word) (value : Byte)
  /-- Read four value bytes, big-endian (42_store_bulk.md R202). -/
  | rdw32 (addr : Word)
  /-- Write one value to a range (42_store_bulk.md R203). -/
  | fill (addr : Word) (value : Byte) (count : Word)
  /-- Copy a payload of `count` bytes in (42_store_bulk.md R204). The payload is a stream beside the words (30_encoding.md R108). -/
  | cpin (addr : Word) (count : Word)
  /-- Copy `count` bytes out (42_store_bulk.md R205). -/
  | cpout (addr : Word) (count : Word)
  /-- Set one permission code (41_store_primitives.md R183). -/
  | setp (addr : Word) (code : Perm)
  /-- Set the permission codes of a range (42_store_bulk.md R206). -/
  | setpr (start : Word) (code : Perm) (count : Word)
  /-- Start the pipeline (44_control.md R261). -/
  | init
  /-- Stop the pipeline (44_control.md R262). -/
  | shutdown
  /-- Read the write cursor (43_eventlog.md R233). -/
  | peekw
  /-- Read one ring slot (43_eventlog.md R234). -/
  | rdslot (index : Word)
  /-- Advance the read cursor (43_eventlog.md R235). -/
  | advr
  /-- Read and clear a sticky flag (45_reference_consumer.md R285): 0 is VIDEO, 1 is SOUND. -/
  | pollclr (flag : Byte)
  /-- Reserved op number 0xE, with the bits the command carries beside it (30_encoding.md R112). -/
  | reservedE (low : BitVec 28) (w1 w2 : Word)
  /-- Reserved op number 0xF, with the bits the command carries beside it (30_encoding.md R112). -/
  | reservedF (low : BitVec 28) (w1 w2 : Word)
  deriving DecidableEq, Repr

/-- What crosses a port into the block: a request word on the X-port, or the three words of a command on the F-port
(30_encoding.md R100, R101, R108). The two are separate encoding spaces. -/
inductive PortWords where
  | req (w : Word)
  | cmd (w0 w1 w2 : Word)
  deriving DecidableEq, Repr

/-- Why a command is illegal: the field of 30_encoding.md R108 that must be 0 and is not (R112), or an unknown
sticky flag (45_reference_consumer.md R285). -/
inductive DecodeError where
  | reservedBitsSet
  | codeNotZero
  | dataNotZero
  | addrNotZero
  | countNotZero
  | unknownFlag
  deriving DecidableEq, Repr

end Sys2Proof
end

