-- ==== Sys2Proof/WellFormed.lean ====
section
/-! DEFINITION. Which terms of `Instr` an encoding exists for. Every operand has the width of its field
(spec/30_encoding.md R101, R108); only POLLCLR's flag is narrower than the field that carries it
(spec/45_reference_consumer.md R285). -/

namespace Sys2Proof

/-- The flag id of POLLCLR is 0 (VIDEO) or 1 (SOUND); every other operand takes every value of its width. -/
def Instr.wellFormed : Instr → Bool
  | .brd _ _ => true
  | .bwr _ _ => true
  | .rdv _ => true
  | .wrv _ _ => true
  | .rdw32 _ => true
  | .fill _ _ _ => true
  | .cpin _ _ => true
  | .cpout _ _ => true
  | .setp _ _ => true
  | .setpr _ _ _ => true
  | .init => true
  | .shutdown => true
  | .peekw => true
  | .rdslot _ => true
  | .advr => true
  | .pollclr flag => decide (flag.toNat < 2)
  | .reservedE _ _ _ => true
  | .reservedF _ _ _ => true

end Sys2Proof
end

