-- ==== Sys2Proof/Decode.lean ====
section
/-! DEFINITION. The decoder of both ports, total on any words, and the encoder (spec/30_encoding.md R101, R108, R109,
R112). -/

namespace Sys2Proof

/-! ## Requests (30_encoding.md R101) -/

/-- `REQ`: addr 15:0, wdata 23:16, is_write 24. Bits 31:25 are not carried by the port and no rule reads them
(93_implementation_defined.md U18), so that there is no illegal request (R113). -/
def decodeReq (w : Word) : Instr :=
  let addr  := w.extractLsb' 0 16
  let wdata := w.extractLsb' 16 8
  if w.getLsbD 24 then .bwr addr wdata else .brd addr wdata

/-! ## Commands (30_encoding.md R108) -/

/-- `W0[31:28]`. -/
def opField (w0 : Word) : BitVec 4 := w0.extractLsb' 28 4
/-- `W0[27:10]`, must be 0. -/
def zeroField (w0 : Word) : BitVec 18 := w0.extractLsb' 10 18
/-- `W0[9:8]`. -/
def codeField (w0 : Word) : Perm := w0.extractLsb' 8 2
/-- `W0[7:0]`. -/
def dataField (w0 : Word) : Byte := w0.extractLsb' 0 8

/-- R108: `code` is used by SETP (6) and SETPR (7). -/
def usesCode (op : Nat) : Bool := op == 6 || op == 7
/-- R108: `data` is used by WRV (1), FILL (3) and, as a flag id, POLLCLR (13). -/
def usesData (op : Nat) : Bool := op == 1 || op == 3 || op == 13
/-- R108, R109: `W1` is used by the ops with an address operand (0 to 7), and by RDSLOT (11) as the slot index. -/
def usesAddr (op : Nat) : Bool := op ≤ 7 || op == 11
/-- R108, R109: `W2` is used by FILL (3), CPIN (4), CPOUT (5), SETPR (7). -/
def usesCount (op : Nat) : Bool := op == 3 || op == 4 || op == 5 || op == 7

/-- R109: the operation an op number names. -/
def operation (w0 w1 w2 : Word) : Instr :=
  match (opField w0).toNat with
  | 0  => .rdv w1
  | 1  => .wrv w1 (dataField w0)
  | 2  => .rdw32 w1
  | 3  => .fill w1 (dataField w0) w2
  | 4  => .cpin w1 w2
  | 5  => .cpout w1 w2
  | 6  => .setp w1 (codeField w0)
  | 7  => .setpr w1 (codeField w0) w2
  | 8  => .init
  | 9  => .shutdown
  | 10 => .peekw
  | 11 => .rdslot w1
  | 12 => .advr
  | 13 => .pollclr (dataField w0)
  | 14 => .reservedE (w0.extractLsb' 0 28) w1 w2
  | _  => .reservedF (w0.extractLsb' 0 28) w1 w2

/-- R112: the first must-be-zero field that is not zero, if any. The op numbers 14 and 15 are reserved as a whole:
their other bits are not looked at. -/
def illegalField (w0 w1 w2 : Word) : Option DecodeError :=
  let op := (opField w0).toNat
  if 14 ≤ op then none
  else if zeroField w0 ≠ 0 then some .reservedBitsSet
  else if usesCode op = false ∧ codeField w0 ≠ 0 then some .codeNotZero
  else if usesData op = false ∧ dataField w0 ≠ 0 then some .dataNotZero
  else if usesAddr op = false ∧ w1 ≠ 0 then some .addrNotZero
  else if usesCount op = false ∧ w2 ≠ 0 then some .countNotZero
  else if op = 13 ∧ 2 ≤ (dataField w0).toNat then some .unknownFlag
  else none

/-- The command decoder. -/
def decodeCmd (w0 w1 w2 : Word) : Except DecodeError Instr :=
  match illegalField w0 w1 w2 with
  | some e => .error e
  | none => .ok (operation w0 w1 w2)

/-- The decoder of both ports. -/
def decode : PortWords → Except DecodeError Instr
  | .req w => .ok (decodeReq w)
  | .cmd w0 w1 w2 => decodeCmd w0 w1 w2

/-! ## The encoder -/

/-- R101: `REQ` = zero 31:25, is_write 24, wdata 23:16, addr 15:0. -/
def reqWord (isWrite : Bool) (addr : Address) (wdata : Byte) : Word :=
  (0 : BitVec 7) ++ (BitVec.ofBool isWrite) ++ wdata ++ addr

/-- R108: `W0` = op 31:28, zero 27:10, code 9:8, data 7:0. -/
def cmdWord (op : BitVec 4) (code : Perm) (data : Byte) : Word :=
  op ++ (0 : BitVec 18) ++ code ++ data

/-- The words of an operation (R101, R108, R109). -/
def encode : Instr → PortWords
  | .brd addr wdata => .req (reqWord false addr wdata)
  | .bwr addr wdata => .req (reqWord true addr wdata)
  | .rdv addr => .cmd (cmdWord 0 0 0) addr 0
  | .wrv addr value => .cmd (cmdWord 1 0 value) addr 0
  | .rdw32 addr => .cmd (cmdWord 2 0 0) addr 0
  | .fill addr value count => .cmd (cmdWord 3 0 value) addr count
  | .cpin addr count => .cmd (cmdWord 4 0 0) addr count
  | .cpout addr count => .cmd (cmdWord 5 0 0) addr count
  | .setp addr code => .cmd (cmdWord 6 code 0) addr 0
  | .setpr start code count => .cmd (cmdWord 7 code 0) start count
  | .init => .cmd (cmdWord 8 0 0) 0 0
  | .shutdown => .cmd (cmdWord 9 0 0) 0 0
  | .peekw => .cmd (cmdWord 10 0 0) 0 0
  | .rdslot index => .cmd (cmdWord 11 0 0) index 0
  | .advr => .cmd (cmdWord 12 0 0) 0 0
  | .pollclr flag => .cmd (cmdWord 13 0 flag) 0 0
  | .reservedE low w1 w2 => .cmd ((14 : BitVec 4) ++ low) w1 w2
  | .reservedF low w1 w2 => .cmd ((15 : BitVec 4) ++ low) w1 w2

/-! ## One numbering for both ports

The opcode table numbers a request and a command alike from bit 0 of the first word, and its BRD row and its RDV row
both hold the word 0 (the ports are separate encoding spaces). The two functions below read such a number: a first word
below 2^25 that is not 0, with nothing after it, is a request; everything else is a command (log 15). -/

/-- The port words that the table's number `w` of `nbits` bits stands for: W0, W1, W2 at bits 31:0, 63:32, 95:64. -/
def tableWords (nbits w : Nat) : PortWords :=
  let n := w % 2 ^ nbits
  if 0 < n ∧ n < 2 ^ 25 then .req (BitVec.ofNat 32 n)
  else .cmd (BitVec.ofNat 32 n) (BitVec.ofNat 32 (n / 2 ^ 32)) (BitVec.ofNat 32 (n / 2 ^ 64))

/-- The instruction the decoder reads from the table's number. -/
def decodeTableWord (nbits w : Nat) : Option Instr :=
  match decode (tableWords nbits w) with
  | .ok i => some i
  | .error _ => none

end Sys2Proof
end

