-- ==== Sys2Proof/Machine/State.lean ====
section
/-! DEFINITION. The state of the machine: the block's (spec/10_state.md R20), the reference consumer's
(spec/45_reference_consumer.md R282), what each firmware context has at the F-port, and the model's own inputs. -/

namespace Sys2Proof.Machine

/-- Sparse contents of a plane of the store, by external Address: the locations written since the last reset, with the
value last written, at strictly rising addresses (log 2). -/
abbrev Memory (α : Type) := List (Nat × α)

/-- The canonical form: addresses strictly rising and inside the store. An unlisted address has no listed value, so that
no entry can repeat one (log 2). -/
abbrev Memory.wf {α : Type} (m : Memory α) : Prop :=
  (m.map Prod.fst).Pairwise (· < ·) ∧ ∀ c ∈ m, c.1 < Config.space

/-- The sequencing state of the transaction slot (10_state.md R30). -/
inductive Phase where
  | idle
  | addressCaptured
  | readResolved
  | writeCommitted
  | eventLogged
  deriving DecidableEq, Repr

/-- The causes of the fatal abort (60_exceptions.md R302). -/
inductive FatalCause where
  | storeRange
  | permRange
  | initResources
  | illegalCommand
  deriving DecidableEq, Repr

/-- The reboot-surviving word, as far as any rule looks at it: is it `MARKER_MAGIC` (45_reference_consumer.md R287)?
`MARKER_MAGIC` is an open parameter; this holds for every value of it (log 6). -/
inductive Marker where
  | other
  | magic
  deriving DecidableEq, Repr

/-- What a completed command returned (30_encoding.md R111). -/
inductive Result where
  | none
  | byte (b : Byte)
  | word (w : Word)
  | address (a : Address)
  | bit (b : Bool)
  | bytes (bs : List Byte)
  deriving DecidableEq, Repr

/-- A command that takes more than one atomic step, between two of them: the next address, how many elements are left,
and the bytes read so far (42_store_bulk.md R200; SHUTDOWN: 44_control.md R262). -/
inductive Pending where
  | readWide (next left : Nat) (got : List Byte)
  | fill (next left : Nat) (value : Byte)
  | copyIn (next left : Nat)
  | copyOut (next left : Nat) (got : List Byte)
  | setPerm (next left : Nat) (code : Perm)
  | shutdown
  deriving DecidableEq, Repr

/-- The three words of a command at the F-port (30_encoding.md R108). -/
structure Command where
  w0 : Word
  w1 : Word
  w2 : Word
  deriving DecidableEq, Repr

/-- One firmware context's side of the F-port: the commands it has still to issue, in program order, the payload bytes
it offers to CPIN, its command in progress, and the result of its last completed command (30_encoding.md R108, R111;
log 14). -/
structure Port where
  cmds   : List Command
  sin    : List Byte
  op     : Option Pending
  result : Result
  deriving DecidableEq, Repr

/-- Nothing to issue, nothing in progress. -/
def Port.empty : Port := { cmds := [], sin := [], op := none, result := .none }

/-- Where the reference handler stands: DRAIN (43_eventlog.md R236), NOTIFY inside it
(45_reference_consumer.md R283), MODE_SWITCH inside that (R284). Each point is the next atomic step to take. -/
inductive DrainPoint where
  /-- `w <- PEEKW` and the decision on `u`. -/
  | peek
  /-- `left` more `ADVR` that skip lost events. -/
  | skip (left : Nat)
  /-- `a <- RDSLOT(r)`. -/
  | fetch
  /-- `NOTIFY(a)`. -/
  | notify (a : Address)
  /-- `ADVR` after the event was processed. -/
  | advance
  /-- MODE_SWITCH: `hs_latched <- 1`. -/
  | latchHighSpeed
  /-- MODE_SWITCH: `SHUTDOWN`. -/
  | shutdown
  /-- MODE_SWITCH: `marker <- MARKER_MAGIC`. -/
  | persistMarker
  /-- MODE_SWITCH: `reboot`. -/
  | reboot
  deriving DecidableEq, Repr

/-- The interrupt context: not running; running some other consumer, which issues the commands of `State.irq`
(45_reference_consumer.md R280); or running the reference handler (60_exceptions.md R308, R309; log 13). -/
inductive Handler where
  | off
  | script
  | drain (pt : DrainPoint)
  deriving DecidableEq, Repr

/-- One entry of the schedule: which agent takes its next atomic step, or what the environment does (log 1). -/
inductive Move where
  /-- `AUTO` presents its next request (40_bus_transactions.md R143). -/
  | auto
  /-- `PIPE` takes its enabled step (40_bus_transactions.md R140). -/
  | pipe
  /-- `FG` takes its next primitive step. -/
  | fg
  /-- `IRQ` takes its next primitive step. -/
  | irq
  /-- The processor suspends `FG` and starts the reference handler (60_exceptions.md R308). -/
  | enterReference
  /-- The processor suspends `FG` and starts another consumer's handler (60_exceptions.md R308). -/
  | enterScript
  /-- The reference consumer runs, with the request set or not: for an interrupt of any batch size (60_exceptions.md R305;
  log 12). -/
  | runReference
  /-- Another consumer runs, with the request set or not (60_exceptions.md R305; log 12). -/
  | runScript
  /-- Another consumer's handler returns (60_exceptions.md R309). -/
  | leave
  /-- `FG` sets or lifts the mask of the consumer's interrupt (60_exceptions.md R306). -/
  | mask (on : Bool)
  /-- The environment's answer `resources_ok` becomes `ok` (44_control.md R261). -/
  | resources (ok : Bool)
  /-- Power-up or reboot (70_reset_and_hazards.md R340). -/
  | reset
  deriving DecidableEq, Repr

/-- The state. -/
structure State where
  /-- `V`, the value plane (R21). -/
  v          : List Host.Cell
  /-- `P`, the permission plane (R22). -/
  p          : Memory Perm
  /-- `SLOT` (R24). Their number is the parameter N, a power of two (00_scope.md R7; 93_implementation_defined.md U20); no
  step changes it (log 21). -/
  slots      : List Address
  /-- The write cursor (R25). -/
  wr         : Word
  /-- The read cursor (R26). -/
  rd         : Word
  phase      : Phase
  /-- The transaction latches (R28). -/
  tAddr      : Address
  tIsWrite   : Bool
  tWdata     : Byte
  tEntry     : Entry
  tGated     : Bool
  tOld       : Byte
  /-- The pipeline is live (R32). -/
  enabled    : Bool
  /-- SHUTDOWN is between its two steps (R32). -/
  stopping   : Bool
  /-- The abort latch (R33). -/
  fatal      : Bool
  fatalCode  : BitVec 3
  /-- The sticky flags of the reference consumer (R282). -/
  flagVideo  : Bool
  flagSound  : Bool
  /-- High-speed mode is latched (R282, R287). -/
  hsLatched  : Bool
  /-- The mask of the consumer's interrupt (R282, R306). -/
  irqMasked  : Bool
  marker     : Marker
  /-- `r`, the consumer's own copy of `rd` (R236). -/
  consumerRd : Word
  handler    : Handler
  /-- The foreground context's side of the F-port. -/
  fg         : Port
  /-- The interrupt context's side of the F-port. -/
  irq        : Port
  /-- The request words `AUTO` has still to present, in bus order (R38 (e)). -/
  bus        : List Word
  /-- The byte the external processor got on its last read (R151). -/
  extData    : Byte
  /-- The environment's standing answer to INIT (R261). -/
  resourcesOk : Bool
  /-- The agents' next moves (log 1). -/
  schedule   : List Move
  /-- How many free bytes were drawn (R11 `draw`; log 4). -/
  draws      : Nat
  /-- How many resets there have been since the first power-up (log 2). -/
  boots      : Nat
  deriving DecidableEq, Repr

/-- Why the machine stops. -/
inductive Fault where
  /-- SAFE. Raised by `step` in every state with `fatal` set, unless the next move is a reset, and by a command issued
  there: "neither `FG` nor `IRQ` takes another step", and no claim is made of `PIPE` (60_exceptions.md R301, R310;
  93_implementation_defined.md U14, U15; log 8). -/
  | fatalAbort (code : BitVec 3)
  deriving DecidableEq, Repr

/-- Why the model gives an operation no meaning in a state. -/
inductive Refusal where
  /-- SAFE. Raised by `exec` for an instruction without a meaning: none is left. -/
  | notModelled (mnemonic : String)
  /-- UNSAFE (the block may face such a request). Raised by BRD and BWR while a transaction is in flight
  (93_implementation_defined.md U10, `refuse`; 70_reset_and_hazards.md R352; log 10). -/
  | requestInFlight
  /-- SAFE. Raised by INIT while the pipeline is enabled (44_control.md R261; U11, `refuse`). -/
  | initWhileEnabled
  /-- SAFE. Raised by ADVR when `rd = wr` (43_eventlog.md R235; U12, `refuse`). -/
  | advrOnEmptyRing
  /-- SAFE. Raised by ADVR from FG, and by INIT and POLLCLR from IRQ (60_exceptions.md R311, R312; U13, `refuse`; log 11). -/
  | contextNotAllowed
  /-- SAFE. Raised by a command begun while its context has another in progress (30_encoding.md R111; log 20). -/
  | commandInProgress
  deriving DecidableEq, Repr

/-- The outcome of one step of this machine. -/
abbrev Outcome := Host.Outcome State Fault Refusal

/-- The state after power-up of a machine with `n` ring slots (10_state.md R40, 70_reset_and_hazards.md R340): the pipeline disabled, the slot idle,
nothing gated, no abort, only FG running; the store unlisted, so that every entry has its power-up contents. Where R40
says "unspecified" the register is 0 (log 3); the consumer's and the model's own fields are those of logs 5, 6, 7, 14
and 16. -/
def State.powerUp (n : Nat) : State where
  v := []
  p := []
  slots := List.replicate n 0
  wr := 0
  rd := 0
  phase := .idle
  tAddr := 0
  tIsWrite := false
  tWdata := 0
  tEntry := 0
  tGated := false
  tOld := 0
  enabled := false
  stopping := false
  fatal := false
  fatalCode := 0
  flagVideo := false
  flagSound := false
  hsLatched := false
  irqMasked := false
  marker := .other
  consumerRd := 0
  handler := .off
  fg := Port.empty
  irq := Port.empty
  bus := []
  extData := 0
  resourcesOk := true
  schedule := []
  draws := 0
  boots := 0

/-- The state after power-up, with the default number of slots (00_scope.md R7). -/
def State.reset : State := State.powerUp Config.evtSlots

end Sys2Proof.Machine
end

