-- ==== Sys2Proof/Machine/Flags.lean ====
section
/-! DEFINITION. The permission gate (spec/40_bus_transactions.md R141) and the status outputs, each a function of the
state and no state of its own (spec/10_state.md R34). -/

namespace Sys2Proof.Machine

/-! ## The gate -/

/-- R141: an external read of an entry with this code may be driven. Bit 0 is the read enable (30_encoding.md R106). -/
def readable (code : Perm) : Bool := code.getLsbD 0

/-- R141: an external write to an entry with this code is forwarded. Bit 1 is the write inhibit (30_encoding.md R106). -/
def writable (code : Perm) : Bool := !code.getLsbD 1

/-! ## The fused entry (10_state.md R28, 30_encoding.md R105) -/

/-- `{perm[1:0], value[7:0]}`. -/
def fuse (code : Perm) (value : Byte) : Entry := code ++ value

/-- `ENTRY[7:0]`. -/
def entryValue (e : Entry) : Byte := e.extractLsb' 0 8

/-- `ENTRY[9:8]`. -/
def entryPerm (e : Entry) : Perm := e.extractLsb' 8 2

/-! ## The outputs (10_state.md R34) -/

/-- `RSP.value`, valid while `phase = READ_RESOLVED`. -/
def State.xRspValue (s : State) : Byte := entryValue s.tEntry

/-- `RSP.perm`, valid while `phase = READ_RESOLVED`. -/
def State.xRspPerm (s : State) : Perm := entryPerm s.tEntry

/-- The response word `RSP`: bits 15:10 zero (30_encoding.md R102, R105). -/
def State.xRsp (s : State) : BitVec 16 := s.tEntry.setWidth 16

/-- This read may be driven onto the data lines. -/
def State.xDriveEn (s : State) : Bool := s.phase == .readResolved && readable (entryPerm s.tEntry)

/-- This write is forwarded to the commit path. -/
def State.xWrAccept (s : State) : Bool := s.phase == .addressCaptured && s.tGated

/-- The interrupt request toward the consumer: a level (60_exceptions.md R305). -/
def State.evtIrq (s : State) : Bool := s.enabled && s.wr != s.rd

end Sys2Proof.Machine
end

