-- ==== Sys2Proof/Machine/Operands.lean ====
section
/-! DEFINITION. How operands are used: the range check, the store address, the slot index, the big-endian word
(spec/30_encoding.md R110; spec/42_store_bulk.md R201, R207). Every operand is an unsigned immediate; there are no
registers and no other addressing mode. -/

namespace Sys2Proof.Machine

/-- R201: `nat(addr) + nat(n) <= 65536`, the sum exact. -/
def inRange (addr : Word) (n : Nat) : Bool := decide (addr.toNat + n ≤ Config.space)

/-- R110: after the range check, `addr[15:0]` is the Address. -/
def storeAddress (addr : Word) : Address := addr.extractLsb' 0 16

/-- `EVT_SLOTS`, N: how many slots this machine's ring has (00_scope.md R7; log 21). -/
def State.slotCount (s : State) : Nat := s.slots.length

/-- R25, R26, R234: a cursor or an index addresses the slot `c mod N`. -/
def State.slotIndex (s : State) (c : Word) : Nat := c.toNat % s.slotCount

/-- R70, R202: the byte at the lowest address, first in the list, is the most significant. -/
def packBigEndian (bytes : List Byte) : Word :=
  bytes.foldl (fun acc b => (acc <<< 8) ||| b.setWidth 32) 0

end Sys2Proof.Machine
end

