-- ==== Sys2Proof/Machine/Ops.lean ====
section
/-! DEFINITION. The shared operations: the store through its two ports, the F-port of the running context, the fatal
abort, reset, and the entry into and return from the interrupt context. -/

namespace Sys2Proof.Machine

/-! ## Sparse planes -/

/-- The value last written at `a` since the last reset, if any. -/
def Memory.get? {α : Type} : Memory α → Nat → Option α
  | [], _ => none
  | (b, x) :: m, a => if a = b then some x else Memory.get? m a

/-- Write `x` at `a`, keeping addresses strictly rising. -/
def Memory.set {α : Type} : Memory α → Nat → α → Memory α
  | [], a, x => [(a, x)]
  | (b, y) :: m, a, x =>
    if a < b then (a, x) :: (b, y) :: m
    else if a = b then (a, x) :: m
    else (b, y) :: Memory.set m a x

/-! ## The store (20_memory.md R60 to R66) -/

/-- `V[a]`: the byte last written, else the power-up byte, arbitrary but stable (10_state.md R21, R42; log 2). -/
def State.readV (s : State) (a : Nat) : Byte :=
  match Memory.get? s.v a with
  | some b => b
  | none => Config.powerUpValue s.boots a

/-- `P[a]`: the code last set, else the power-up code, arbitrary but stable (10_state.md R22, R41, R42; log 2). -/
def State.readP (s : State) (a : Nat) : Perm :=
  match Memory.get? s.p a with
  | some c => c
  | none => Config.powerUpPerm s.boots a

/-- `V[a] <- b`, and nothing else (R63, R64). -/
def State.writeV (s : State) (a : Nat) (b : Byte) : State := { s with v := Memory.set s.v a b }

/-- `P[a] <- c`, and nothing else (R64). -/
def State.writeP (s : State) (a : Nat) (c : Perm) : State := { s with p := Memory.set s.p a c }

/-- `Entry(a)`, the fused read `{P[a], V[a]}` of Port A (R62). -/
def State.entryAt (s : State) (a : Nat) : Entry := fuse (s.readP a) (s.readV a)

/-- R66: the tear window for `a` is open from the COMMIT to the APPEND of a write to `a`. -/
def State.inTearWindow (s : State) (a : Nat) : Bool := s.phase == .writeCommitted && s.tAddr.toNat == a

/-- Bit i of `old` where `mask[i] = 1`, of `new` elsewhere: as `mask` ranges over all bytes, every byte R66 admits. -/
def mixBits (old new mask : Byte) : Byte := (old &&& mask) ||| (new &&& ~~~mask)

/-- What a Port B read of `V[a]` returns (R66): `V[a]`, or in the tear window some mixture of it and `t_old`, which
one nothing fixes (log 4). -/
def State.portBRead (s : State) (a : Nat) : Byte :=
  if s.inTearWindow a then mixBits s.tOld (s.readV a) (Config.freeByte s.draws) else s.readV a

/-- The state after a Port B read of `V[a]`: reads change nothing (R69) but the model's count of draws. -/
def State.afterPortBRead (s : State) (a : Nat) : State :=
  if s.inTearWindow a then { s with draws := s.draws + 1 } else s

/-- An external read while nobody drives the data lines: the external processor gets an unspecified byte, fresh at
every such read (40_bus_transactions.md R151; log 4). -/
def State.undrivenRead (s : State) : State :=
  { s with extData := Config.freeByte s.draws, draws := s.draws + 1 }

/-! ## The firmware contexts (60_exceptions.md R311; 20_memory.md R82) -/

/-- The two contexts that share the F-port. -/
inductive Context where
  | fg
  | irq
  deriving DecidableEq, Repr

/-- While the handler runs FG takes no step (R82), so the context that issues commands is IRQ exactly then (log 11). -/
def State.context (s : State) : Context :=
  match s.handler with
  | .off => .fg
  | .script => .irq
  | .drain _ => .irq

/-- The running context's side of the F-port. -/
def State.port (s : State) : Port :=
  match s.context with
  | .fg => s.fg
  | .irq => s.irq

/-- Change the running context's side of the F-port, and nothing else. -/
def State.modifyPort (s : State) (f : Port → Port) : State :=
  match s.context with
  | .fg => { s with fg := f s.fg }
  | .irq => { s with irq := f s.irq }

/-- The running context's command completes with a result (30_encoding.md R111). -/
def State.finish (s : State) (r : Result) : State :=
  s.modifyPort fun q => { q with op := none, result := r }

/-- The running context's command goes on with `p` at its next step. -/
def State.suspend (s : State) (p : Pending) : State :=
  s.modifyPort fun q => { q with op := some p }

/-- After an element of a bulk operation: complete if none is left, else go on with `p`. -/
def State.proceed (s : State) (left : Nat) (p : Pending) (r : Result) : State :=
  if left = 0 then s.finish r else s.suspend p

/-! ## Outcomes -/

/-- Go on with `f` where `o` is a next state; keep a fault or a refusal. -/
def andThen (o : Outcome) (f : State → State) : Outcome :=
  match o with
  | .next s => .next (f s)
  | .fault r => .fault r
  | .refused r => .refused r

/-! ## The fatal abort (60_exceptions.md R301, R302) -/

/-- `fatal_code` of a cause (R302). -/
def FatalCause.code : FatalCause → BitVec 3
  | .storeRange => 1
  | .permRange => 2
  | .initResources => 3
  | .illegalCommand => 4

/-- `raise FATAL(code)`: the latch and the code, and no other effect (R301). Nothing is saved and there is no handler
and no return (R310): only a reset leaves the state (`State.reboot`). -/
def State.raiseFatal (s : State) (cause : FatalCause) : State :=
  { s with fatal := true, fatalCode := cause.code }

/-- The step of every F-port command: none is performed after an abort (R301), none begins before the context's last
one has completed (30_encoding.md R111); else `body`. -/
def fportCommand (body : State → Outcome) (s : State) : Outcome :=
  if s.fatal then .fault (.fatalAbort s.fatalCode)
  else if s.port.op.isSome then .refused .commandInProgress
  else body s

/-- The range check of a store or permission command (42_store_bulk.md R201), before anything is touched: outside the
range the command raises FATAL and has no other effect. -/
def rangeChecked (cause : FatalCause) (addr : Word) (n : Nat) (body : State → State) (s : State) : Outcome :=
  fportCommand (fun s => if inRange addr n then .next (body s) else .next (s.raiseFatal cause)) s

/-- An illegal command raises FATAL(ILLEGAL_COMMAND) (30_encoding.md R112), whatever context issues it: decode comes
first (60_exceptions.md R307 (a)). -/
def illegalCommand (s : State) : Outcome :=
  fportCommand (fun s => .next (s.raiseFatal .illegalCommand)) s

/-! ## Reset (70_reset_and_hazards.md R340, R341) -/

/-- A later reset: every item of the block and of the consumer as after power-up, with fresh arbitrary store contents;
the marker survives (45_reference_consumer.md R287). The number of slots is the machine's (log
21). What stands outside the machine stays: the inputs not yet taken, the environment's answer, the schedule (log 22). -/
def State.reboot (s : State) : State :=
  { State.powerUp s.slotCount with
    marker := s.marker
    fg := { Port.empty with cmds := s.fg.cmds, sin := s.fg.sin }
    irq := { Port.empty with cmds := s.irq.cmds, sin := s.irq.sin }
    bus := s.bus
    resourcesOk := s.resourcesOk
    schedule := s.schedule
    draws := s.draws
    boots := s.boots + 1 }

/-! ## The event interrupt (60_exceptions.md R305 to R309) -/

/-- R308: the handler can be entered. (`fatal = 0` and "not already running" included.) -/
def State.canEnter (s : State) : Bool :=
  s.evtIrq && !s.irqMasked && !s.fatal && s.handler == .off

/-- Interrupt entry: "nothing of the block's state is saved or changed by the entry" (R308). Where the request does not
stand, no entry is made. -/
def State.enterHandler (s : State) (h : Handler) : State :=
  if s.canEnter then { s with handler := h } else s

/-- The consumer can run: nothing of it runs already, it is not masked, no abort stands. This asks nothing of the request:
"lets the consumer run at any time, whether or not `evt_irq` is set" (R305; log 12). -/
def State.canRun (s : State) : Bool := !s.irqMasked && !s.fatal && s.handler == .off

/-- The consumer starts to run, for a batch of any size (R305). Nothing else changes, as at an interrupt entry (R308). -/
def State.runHandler (s : State) (h : Handler) : State :=
  if s.canRun then { s with handler := h } else s

/-- Interrupt return: FG resumes at the step where it was suspended (R309). -/
def State.leaveHandler (s : State) : State := { s with handler := .off }

end Sys2Proof.Machine
end

