-- ==== Sys2Proof/Machine/BusTransactions.lean ====
section
/-! DEFINITION. The bus transactions BRD and BWR and the pipeline's steps (spec/40_bus_transactions.md,
spec/43_eventlog.md R231). -/

namespace Sys2Proof.Machine

/-! ## The steps of PIPE (40_bus_transactions.md R140) -/

/-- LOOKUP (R144): the fused read; a read is answered, an allowed write is forwarded, an ignored write ends here. The
external processor gets the fetched byte if the gate lets it be driven, else an unspecified one (R146, R151). -/
def lookup (s : State) : State :=
  let e := s.entryAt s.tAddr.toNat
  let t := { s with tEntry := e }
  if s.tIsWrite then
    if writable (entryPerm e) then { t with tGated := true } else { t with phase := .idle }
  else
    let t := { t with phase := .readResolved }
    if readable (entryPerm e) then { t with extData := entryValue e } else t.undrivenRead

/-- COMMIT (R148): the byte is stored, with no check of its own; the tear window opens. -/
def commit (s : State) : State :=
  { s.writeV s.tAddr.toNat s.tWdata with
    tOld := s.readV s.tAddr.toNat
    tGated := false
    phase := .writeCommitted }

/-- APPEND (43_eventlog.md R231): the slot, the cursor and the phase in one step; a full ring is overwritten (R232). -/
def append (s : State) : State :=
  { s with
    slots := s.slots.set (s.slotIndex s.wr) s.tAddr
    wr := s.wr + 1
    phase := .eventLogged }

/-- RETIRE (R150). -/
def retire (s : State) : State := { s with phase := .idle }

/-- The one enabled step of PIPE (R140, R153); none in IDLE. -/
def pipeStep (s : State) : State :=
  match s.phase with
  | .idle => s
  | .addressCaptured => if s.tGated then commit s else lookup s
  | .readResolved => retire s
  | .writeCommitted => append s
  | .eventLogged => retire s

/-! ## The transactions -/

/-- ACCEPT (R143). -/
def accept (addr : Address) (isWrite : Bool) (wdata : Byte) (s : State) : State :=
  { s with
    tAddr := addr
    tIsWrite := isWrite
    tWdata := wdata
    tGated := false
    phase := .addressCaptured }

/-- A request at the X-port. While a transaction is in flight it has no meaning (R352 (a), U10). While the pipeline is
disabled or stopping no transaction starts and `lost` is what the external processor sees (R155, R352 (d); log 9). Else
ACCEPT. -/
def busRequest (addr : Address) (isWrite : Bool) (wdata : Byte) (lost : State → State) (s : State) : Outcome :=
  if s.phase ≠ .idle then .refused .requestInFlight
  else if s.enabled && !s.stopping then .next (accept addr isWrite wdata s)
  else .next (lost s)

/-- BRD (R146): ACCEPT; LOOKUP and RETIRE are the pipeline's own steps. A read that finds the pipeline disabled gets an
unspecified byte (R155). -/
def execBrd (addr : Address) (wdata : Byte) (s : State) : Outcome :=
  busRequest addr false wdata State.undrivenRead s

/-- BWR (R147): ACCEPT; LOOKUP and, if allowed, COMMIT, APPEND and RETIRE are the pipeline's own steps. A write that
finds the pipeline disabled has no effect and is not logged (R155). -/
def execBwr (addr : Address) (wdata : Byte) (s : State) : Outcome :=
  busRequest addr true wdata id s

end Sys2Proof.Machine
end

