-- ==== Sys2Proof/Machine/Control.lean ====
section
/-! DEFINITION. INIT and SHUTDOWN (spec/44_control.md). -/

namespace Sys2Proof.Machine

/-- What INIT does to the block (R261). -/
def initBlock (s : State) : State :=
  { s with
    wr := 0
    rd := 0
    phase := .idle
    tGated := false
    stopping := false
    enabled := true }

/-- What the reference firmware's `init` does beside it: the flags and the mask are 0 after it, the marker is read
once, and its copy of `rd` is 0 (45_reference_consumer.md R282, R287; 43_eventlog.md R236; log 17). -/
def initConsumer (s : State) : State :=
  { s with
    flagVideo := false
    flagSound := false
    irqMasked := false
    hsLatched := s.marker == .magic
    consumerRd := 0 }

/-- INIT (R261): FG's alone (R260, 60_exceptions.md R312); no meaning while enabled, which is looked at before
`resources_ok` (60_exceptions.md R307 (a)). -/
def execInit (s : State) : Outcome :=
  fportCommand
    (fun s =>
      if s.context ≠ .fg then .refused .contextNotAllowed
      else if s.enabled then .refused .initWhileEnabled
      else if s.resourcesOk then .next ((initConsumer (initBlock s)).finish .none)
      else .next (s.raiseFatal .initResources)) s

/-- Step 2 of SHUTDOWN (R262): enabled when the slot is idle and stopping, or the pipeline is disabled already; else
the context waits. -/
def shutdownComplete (s : State) : State :=
  if (s.stopping && s.phase == .idle) || !s.enabled then
    { s with enabled := false, stopping := false }.finish .none
  else s

/-- SHUTDOWN (R262), step 1: nothing to stop while disabled; else no new ACCEPT. -/
def execShutdown (s : State) : Outcome :=
  fportCommand
    (fun s =>
      if s.enabled then .next ({ s with stopping := true }.suspend .shutdown)
      else .next (s.finish .none)) s

end Sys2Proof.Machine
end

