-- ==== Sys2Proof/Machine/EventRing.lean ====
section
/-! DEFINITION. The consumer's side of the write-event ring: PEEKW, RDSLOT, ADVR (spec/43_eventlog.md). The producer's
side, APPEND, is a step of the pipeline (Machine/BusTransactions.lean). -/

namespace Sys2Proof.Machine

/-- The unread count `(wr - rd) mod 2^32` (R241). -/
def State.unread (s : State) : Word := s.wr - s.rd

/-- The event with sequence number `j` lives in `SLOT[j mod N]` (R241). (The default is never read: N is a power of two.) -/
def State.slotAt (s : State) (j : Word) : Address := s.slots.getD (s.slotIndex j) 0

/-- PEEKW (R233). -/
def execPeekw (s : State) : Outcome :=
  fportCommand (fun s => .next (s.finish (.word s.wr))) s

/-- RDSLOT (R234): the index is reduced modulo N. -/
def execRdslot (index : Word) (s : State) : Outcome :=
  fportCommand (fun s => .next (s.finish (.address (s.slotAt index)))) s

/-- ADVR (R235): the consumer's alone (60_exceptions.md R312); no meaning on an empty ring. The consumer's own copy of
`rd` moves with it (R236). -/
def execAdvr (s : State) : Outcome :=
  fportCommand
    (fun s =>
      if s.context ≠ .irq then .refused .contextNotAllowed
      else if s.rd = s.wr then .refused .advrOnEmptyRing
      else .next ({ s with rd := s.rd + 1, consumerRd := s.consumerRd + 1 }.finish .none)) s

end Sys2Proof.Machine
end

