-- ==== Sys2Proof/Machine/ReferenceConsumer.lean ====
section
/-! DEFINITION. The reference consumer's sticky flags: POLLCLR, and the tests of NOTIFY
(spec/45_reference_consumer.md). -/

namespace Sys2Proof.Machine

/-- The sticky flag of a flag id: VIDEO = 0, SOUND = 1 (R282). -/
def State.flag (s : State) (id : Byte) : Bool := if id = 0 then s.flagVideo else s.flagSound

/-- `flag[id] <- 0`. -/
def State.clearFlag (s : State) (id : Byte) : State :=
  if id = 0 then { s with flagVideo := false } else { s with flagSound := false }

/-- POLLCLR (R285): FG's alone; the exchange and the mask around it are one atomic step for IRQ, and the mask is lifted
at its end (log 18). A flag id other than 0 or 1 is an illegal command. -/
def execPollclr (flag : Byte) (s : State) : Outcome :=
  fportCommand
    (fun s =>
      if 2 ≤ flag.toNat then .next (s.raiseFatal .illegalCommand)
      else if s.context ≠ .fg then .refused .contextNotAllowed
      else .next ({ s.clearFlag flag with irqMasked := false }.finish (.bit (s.flag flag)))) s

/-- R283: does the event for `a`, with `b` the byte now in the store, fire the mode switch? -/
def State.modeSwitchFires (s : State) (a : Address) (b : Byte) : Bool :=
  a == Config.modeReg && (b &&& Config.modeMask) != 0 && !s.hsLatched

/-- The range tests of NOTIFY (R283): at most one sticky flag is set. -/
def State.markWatched (s : State) (r : Config.WatchRanges) (a : Address) : State :=
  if r.videoBase ≤ a.toNat ∧ a.toNat < r.videoBase + r.videoLen then { s with flagVideo := true }
  else if r.soundBase ≤ a.toNat ∧ a.toNat < r.soundBase + r.soundLen then { s with flagSound := true }
  else s

end Sys2Proof.Machine
end

