-- ==== Sys2Proof/Machine/Reserved.lean ====
section
/-! DEFINITION. The reserved op numbers 0xE and 0xF: each raises FATAL(ILLEGAL_COMMAND), whatever the command's other
bits are (spec/30_encoding.md R112; spec/60_exceptions.md R302). -/

namespace Sys2Proof.Machine

/-- Op number 0xE. -/
def execReservedE (_low : BitVec 28) (_w1 _w2 : Word) (s : State) : Outcome := illegalCommand s

/-- Op number 0xF. -/
def execReservedF (_low : BitVec 28) (_w1 _w2 : Word) (s : State) : Outcome := illegalCommand s

end Sys2Proof.Machine
end

