-- ==== Sys2Proof/Machine/StoreBulk.lean ====
section
/-! DEFINITION. RDW32, FILL, CPIN, CPOUT and SETPR (spec/42_store_bulk.md). The range check is made once, before the
first element; then one atomic step per element, in ascending order, between which other agents may move (R200, R201;
log 19). -/

namespace Sys2Proof.Machine

/-! ## One element of each (R200) -/

/-- One element of RDW32 (R202); after the last the four bytes are packed big-endian. -/
def readWideElement (next left : Nat) (got : List Byte) (s : State) : State :=
  match left with
  | 0 => s.finish (.word (packBigEndian got))
  | k + 1 =>
    let got' := got ++ [s.portBRead next]
    (s.afterPortBRead next).proceed k (.readWide (next + 1) k got') (.word (packBigEndian got'))

/-- One element of FILL (R203). -/
def fillElement (next left : Nat) (value : Byte) (s : State) : State :=
  match left with
  | 0 => s.finish .none
  | k + 1 => (s.writeV next value).proceed k (.fill (next + 1) k value) .none

/-- One element of CPIN (R204): it takes the next payload byte; while none is offered the command waits. -/
def copyInElement (next left : Nat) (s : State) : State :=
  match left with
  | 0 => s.finish .none
  | k + 1 =>
    match s.port.sin with
    | [] => s.suspend (.copyIn next (k + 1))
    | b :: rest =>
      ((s.writeV next b).modifyPort fun q => { q with sin := rest }).proceed k (.copyIn (next + 1) k) .none

/-- One element of CPOUT (R205). -/
def copyOutElement (next left : Nat) (got : List Byte) (s : State) : State :=
  match left with
  | 0 => s.finish (.bytes got)
  | k + 1 =>
    let got' := got ++ [s.portBRead next]
    (s.afterPortBRead next).proceed k (.copyOut (next + 1) k got') (.bytes got')

/-- One element of SETPR (R206). -/
def setPermElement (next left : Nat) (code : Perm) (s : State) : State :=
  match left with
  | 0 => s.finish .none
  | k + 1 => (s.writeP next code).proceed k (.setPerm (next + 1) k code) .none

/-! ## The commands: the range check and the first element -/

/-- RDW32 (R202): four elements. -/
def execRdw32 (addr : Word) (s : State) : Outcome :=
  rangeChecked .storeRange addr 4 (readWideElement addr.toNat 4 []) s

/-- FILL (R203). -/
def execFill (addr : Word) (value : Byte) (count : Word) (s : State) : Outcome :=
  rangeChecked .storeRange addr count.toNat (fillElement addr.toNat count.toNat value) s

/-- CPIN (R204). -/
def execCpin (addr count : Word) (s : State) : Outcome :=
  rangeChecked .storeRange addr count.toNat (copyInElement addr.toNat count.toNat) s

/-- CPOUT (R205). -/
def execCpout (addr count : Word) (s : State) : Outcome :=
  rangeChecked .storeRange addr count.toNat (copyOutElement addr.toNat count.toNat []) s

/-- SETPR (R206). -/
def execSetpr (start : Word) (code : Perm) (count : Word) (s : State) : Outcome :=
  rangeChecked .permRange start count.toNat (setPermElement start.toNat count.toNat code) s

end Sys2Proof.Machine
end

