-- ==== Sys2Proof/Machine/StorePrimitives.lean ====
section
/-! DEFINITION. RDV, WRV and SETP, each one atomic step (spec/41_store_primitives.md). No permission is checked and
nothing is logged (R180, R184). -/

namespace Sys2Proof.Machine

/-- RDV (R181). -/
def execRdv (addr : Word) (s : State) : Outcome :=
  rangeChecked .storeRange addr 1
    (fun s =>
      let a := (storeAddress addr).toNat
      (s.afterPortBRead a).finish (.byte (s.portBRead a))) s

/-- WRV (R182). -/
def execWrv (addr : Word) (value : Byte) (s : State) : Outcome :=
  rangeChecked .storeRange addr 1
    (fun s => (s.writeV (storeAddress addr).toNat value).finish .none) s

/-- SETP (R183). -/
def execSetp (addr : Word) (code : Perm) (s : State) : Outcome :=
  rangeChecked .permRange addr 1
    (fun s => (s.writeP (storeAddress addr).toNat code).finish .none) s

end Sys2Proof.Machine
end

