-- ==== Sys2Proof/Machine/Dispatch.lean ====
section
/-! DEFINITION. One arm per constructor of Instr, each a direct call of that operation's own meaning. -/

namespace Sys2Proof.Machine

-- The atomic step by which an operation is issued: the whole of a one-step command, the first step of the others, whose
-- later steps the state carries (spec/40_bus_transactions.md R140, spec/42_store_bulk.md R200, spec/44_control.md R262).
def exec (i : Instr) (s : State) : Host.Outcome State Fault Refusal :=
  match i with
  | .brd addr wdata => Sys2Proof.Machine.execBrd addr wdata s
  | .bwr addr wdata => Sys2Proof.Machine.execBwr addr wdata s
  | .rdv addr => Sys2Proof.Machine.execRdv addr s
  | .wrv addr value => Sys2Proof.Machine.execWrv addr value s
  | .rdw32 addr => Sys2Proof.Machine.execRdw32 addr s
  | .fill addr value count => Sys2Proof.Machine.execFill addr value count s
  | .cpin addr count => Sys2Proof.Machine.execCpin addr count s
  | .cpout addr count => Sys2Proof.Machine.execCpout addr count s
  | .setp addr code => Sys2Proof.Machine.execSetp addr code s
  | .setpr start code count => Sys2Proof.Machine.execSetpr start code count s
  | .init => Sys2Proof.Machine.execInit s
  | .shutdown => Sys2Proof.Machine.execShutdown s
  | .peekw => Sys2Proof.Machine.execPeekw s
  | .rdslot index => Sys2Proof.Machine.execRdslot index s
  | .advr => Sys2Proof.Machine.execAdvr s
  | .pollclr flag => Sys2Proof.Machine.execPollclr flag s
  | .reservedE low w1 w2 => Sys2Proof.Machine.execReservedE low w1 w2 s
  | .reservedF low w1 w2 => Sys2Proof.Machine.execReservedF low w1 w2 s

end Sys2Proof.Machine
end

