-- ==== Sys2Proof/Machine/Handler.lean ====
section
/-! DEFINITION. The reference handler: DRAIN (spec/43_eventlog.md R236) with NOTIFY (spec/45_reference_consumer.md
R283) as its process, and MODE_SWITCH (R284). Each command it issues is one atomic step; what it computes from a result
belongs to the step of the command that gave it (log 23). -/

namespace Sys2Proof.Machine

/-- The word a command returned. -/
def Result.asWord : Result → Word
  | .word w => w
  | _ => 0

/-- The address a command returned. -/
def Result.asAddress : Result → Address
  | .address a => a
  | _ => 0

/-- The byte a command returned. -/
def Result.asByte : Result → Byte
  | .byte b => b
  | _ => 0

/-- Go to a point of the handler. -/
def State.goto (s : State) (pt : DrainPoint) : State := { s with handler := .drain pt }

/-- DRAIN after its PEEKW returned `w` (R236, R237): caught up, the handler returns; more than N unread, skip the lost
ones; else fetch the oldest. -/
def drainDecide (s : State) : State :=
  let u := s.port.result.asWord - s.consumerRd
  if u = 0 then s.leaveHandler
  else if s.slotCount < u.toNat then s.goto (.skip (u.toNat - s.slotCount))
  else s.goto .fetch

/-- NOTIFY's tests (R283), once the byte now in the store is read for the mode register. -/
def notifyDecide (a : Address) (s : State) : State :=
  if s.modeSwitchFires a s.port.result.asByte then s.goto .latchHighSpeed
  else (s.markWatched Config.watch a).goto .advance

/-- One atomic step of the reference handler. -/
def handlerStep (pt : DrainPoint) (s : State) : Outcome :=
  match pt with
  | .peek => andThen (exec .peekw s) drainDecide
  | .skip left => andThen (exec .advr s) (·.goto (if left ≤ 1 then .peek else .skip (left - 1)))
  | .fetch => andThen (exec (.rdslot s.consumerRd) s) fun t => t.goto (.notify t.port.result.asAddress)
  | .notify a =>
    if a = Config.modeReg then andThen (exec (.rdv (a.setWidth 32)) s) (notifyDecide a)
    else .next ((s.markWatched Config.watch a).goto .advance)
  | .advance => andThen (exec .advr s) (·.goto .peek)
  | .latchHighSpeed => .next ({ s with hsLatched := true }.goto .shutdown)
  | .shutdown => andThen (exec .shutdown s) (·.goto .persistMarker)
  | .persistMarker => .next ({ s with marker := .magic }.goto .reboot)
  | .reboot => .next s.reboot

end Sys2Proof.Machine
end

