-- ==== Sys2Proof/Machine/Agents.lean ====
section
/-! DEFINITION. What each agent does when it is its turn (spec/00_scope.md R6, R12; spec/60_exceptions.md R312), and whose
turn it is when the schedule does not say (log 1). An agent whose step is not enabled takes none: the state stays. -/

namespace Sys2Proof.Machine

/-- The running context issues a command: decode first (60_exceptions.md R307 (a)). -/
def issue (c : Command) (s : State) : Outcome :=
  match decode (.cmd c.w0 c.w1 c.w2) with
  | .ok i => exec i s
  | .error _ => illegalCommand s

/-- One more step of the running context's command in progress (42_store_bulk.md R200, 44_control.md R262). -/
def continueCommand (p : Pending) (s : State) : State :=
  match p with
  | .readWide next left got => readWideElement next left got s
  | .fill next left value => fillElement next left value s
  | .copyIn next left => copyInElement next left s
  | .copyOut next left got => copyOutElement next left got s
  | .setPerm next left code => setPermElement next left code s
  | .shutdown => shutdownComplete s

/-- The running context's next primitive step: its command in progress goes on, or its next command is issued. -/
def contextStep (s : State) : Outcome :=
  match s.port.op with
  | some p => .next (continueCommand p s)
  | none =>
    match s.port.cmds with
    | [] => .next s
    | c :: rest => issue c (s.modifyPort fun q => { q with cmds := rest })

/-- FG takes no step while the handler runs (20_memory.md R82). -/
def fgStep (s : State) : Outcome :=
  match s.handler with
  | .off => contextStep s
  | .script => .next s
  | .drain _ => .next s

/-- IRQ steps only while its handler runs. The reference handler issues its own commands. -/
def irqStep (s : State) : Outcome :=
  match s.handler with
  | .off => .next s
  | .script => contextStep s
  | .drain pt =>
    match s.irq.op with
    | some p => .next (continueCommand p s)
    | none => handlerStep pt s

/-- AUTO presents its next request, only when the slot is idle (70_reset_and_hazards.md R352 (a); log 10). -/
def autoStep (s : State) : Outcome :=
  match s.phase, s.bus with
  | .idle, w :: rest => exec (decodeReq w) { s with bus := rest }
  | _, _ => .next s

/-- The agents' moves in a state without an abort. -/
def performAlive (m : Move) (s : State) : Outcome :=
  match m with
  | .auto => autoStep s
  | .pipe => .next (pipeStep s)
  | .fg => fgStep s
  | .irq => irqStep s
  | .enterReference => .next (s.enterHandler (.drain .peek))
  | .enterScript => .next (s.enterHandler .script)
  | .runReference => .next (s.runHandler (.drain .peek))
  | .runScript => .next (s.runHandler .script)
  | .leave => .next (if s.handler = .script ∧ s.irq.op = none then s.leaveHandler else s)
  | .mask on => .next (if s.handler = .off ∧ s.fg.op = none then { s with irqMasked := on } else s)
  | .resources ok => .next { s with resourcesOk := ok }
  | .reset => .next s.reboot

/-- One move. After an abort only a reset is left (60_exceptions.md R301, R310; log 8). -/
def performMove (m : Move) (s : State) : Outcome :=
  if s.fatal ∧ m ≠ .reset then .fault (.fatalAbort s.fatalCode) else performAlive m s

/-- The running context has a step to take: a command to go on with, unless it is a CPIN that waits for its payload, or
a command to issue. -/
def Port.ready (q : Port) : Bool :=
  match q.op with
  | some (.copyIn _ (_ + 1)) => !q.sin.isEmpty
  | some _ => true
  | none => !q.cmds.isEmpty

/-- AUTO's turn, if a request waits. -/
def State.busMove (s : State) : Option Move := if s.bus.isEmpty then none else some .auto

/-- Whose turn it is when nothing is scheduled: PIPE finishes its transaction (40_bus_transactions.md R157), the
handler runs to its end (R309), a standing request is served before FG goes on (60_exceptions.md R307 (e)), then FG,
then AUTO. Another consumer's handler with nothing left to issue returns; one whose CPIN waits for a payload byte lets
AUTO move, as a waiting CPIN of FG does. DESIGN CHOICE: the spec leaves the order of agents open
(40_bus_transactions.md R154; log 1). -/
def defaultMove (s : State) : Option Move :=
  if s.phase ≠ .idle then some .pipe
  else match s.handler with
    | .drain _ => some .irq
    | .script =>
      if s.irq.ready then some .irq else if s.irq.op = none then some .leave else s.busMove
    | .off =>
      if s.canEnter then some .enterReference
      else if s.fg.ready then some .fg
      else s.busMove

/-- A step when nothing is scheduled. With nothing to do the block does nothing (70_reset_and_hazards.md R340). -/
def performDefault (s : State) : Outcome :=
  match defaultMove s with
  | some m => performMove m s
  | none => if s.fatal then .fault (.fatalAbort s.fatalCode) else .next s

/-! ## Where a program comes from (log 16) -/

/-- Present these port words as the very next thing the machine does: a request at the X-port with the slot idle, or a
command of the running firmware context with none in progress; ADVR, which is the consumer's alone, from a handler.
No abort stands. -/
def State.presenting (s : State) (words : PortWords) : State :=
  match words with
  | .req w => { s with bus := w :: s.bus, phase := .idle, fatal := false, schedule := .auto :: s.schedule }
  | .cmd w0 w1 w2 =>
    let c : Command := { w0 := w0, w1 := w1, w2 := w2 }
    match decode words with
    | .ok .advr =>
      { s with
        irq := { s.irq with cmds := c :: s.irq.cmds, op := none }
        handler := .script
        fatal := false
        schedule := .irq :: s.schedule }
    | _ =>
      { s with
        fg := { s.fg with cmds := c :: s.fg.cmds, op := none }
        handler := .off
        fatal := false
        schedule := .fg :: s.schedule }

end Sys2Proof.Machine
end

