-- ==== Sys2Proof/Machine/Step.lean ====
section
/-! DEFINITION. The step: one atomic step of one agent (spec/00_scope.md R12). -/

namespace Sys2Proof.Machine

/-- The next scheduled move, or the default one (log 1). -/
def step (s : State) : Host.Outcome State Fault Refusal :=
  match s.schedule with
  | m :: ms => performMove m { s with schedule := ms }
  | [] => performDefault s

/-- `s` with the operation that the opcode table's number stands for presented at its port, so that the next step takes
it (log 15, log 16). -/
def State.withFetchWord (s : State) (nbits w : Nat) : State := s.presenting (tableWords nbits w)

end Sys2Proof.Machine
end

