-- ==== Sys2Proof/Safety.lean ====
section
/-! DEFINITION. The terms claims are stated in: runs, when a command can begin, the invariant, the ring as a queue. -/

namespace Sys2Proof.Machine

/-! ## Runs -/

/-- `k` steps, stopping at the first fault or refusal. -/
def steps : Nat → State → Outcome
  | 0, s => .next s
  | k + 1, s =>
    match step s with
    | .next t => steps k t
    | .fault r => .fault r
    | .refused r => .refused r

/-- A safe run of `k` steps: no fault, no refusal, and no state of it, the last one included, has an abort standing
(a state with `fatal = 1` is faulted: "it is never a final state of a run", 60_exceptions.md R301). A reset after an abort
makes no run safe. -/
def runsSafely (k : Nat) (s : State) : Prop := ∀ j, j ≤ k → ∃ t, steps j s = .next t ∧ t.fatal = false

/-! ## When an operation can begin -/

/-- The running context can begin a command: no abort stands (41_store_primitives.md R180, 42_store_bulk.md R200) and
its last one has completed (30_encoding.md R111). -/
abbrev State.canIssue (s : State) : Prop := s.fatal = false ∧ s.port.op = none

/-- ACCEPT is enabled (40_bus_transactions.md R143). -/
abbrev State.canAccept (s : State) : Prop := s.enabled = true ∧ s.stopping = false ∧ s.phase = .idle

/-- The move the next step makes: the schedule's, or the default one (log 1). -/
def State.nextMove (s : State) : Option Move :=
  match s.schedule with
  | m :: _ => some m
  | [] => defaultMove s

/-- The parameter N is a power of two that the 32-bit cursors can count round (00_scope.md R7, 43_eventlog.md R242; log
21). -/
abbrev State.slotCountOk (s : State) : Prop := ∃ k, k ≤ 32 ∧ s.slots.length = 2 ^ k

/-- The move by which the running context goes on with its command. -/
def State.ownMove (s : State) : Move :=
  match s.context with
  | .fg => .fg
  | .irq => .irq

/-! ## The invariant -/

/-- A command in progress has elements left, all of them inside the store: no operation computes an address past 65535
(10_state.md R31, 20_memory.md R71). RDW32's bytes so far and to come are four. -/
def Pending.inStore : Pending → Prop
  | .readWide next left got => 0 < left ∧ next + left ≤ Config.space ∧ got.length + left = 4
  | .fill next left _ => 0 < left ∧ next + left ≤ Config.space
  | .copyIn next left => 0 < left ∧ next + left ≤ Config.space
  | .copyOut next left _ => 0 < left ∧ next + left ≤ Config.space
  | .setPerm next left _ => 0 < left ∧ next + left ≤ Config.space
  | .shutdown => True

/-- A write is past the gate: forwarded, committed or logged. -/
abbrev State.writeForwarded (s : State) : Prop :=
  s.tGated = true ∨ s.phase = .writeCommitted ∨ s.phase = .eventLogged

/-- What every step keeps. -/
structure State.Inv (s : State) : Prop where
  /-- The value plane keeps its canonical form. -/
  v_wf : Memory.wf s.v
  /-- The permission plane keeps its canonical form. -/
  p_wf : Memory.wf s.p
  /-- A disabled pipeline has no transaction in flight and no SHUTDOWN to wait for (44_control.md R262). -/
  disabled_idle : s.enabled = false → s.phase = .idle ∧ s.stopping = false
  /-- "forwarded, not yet committed" is a sub-state of ADDRESS_CAPTURED (10_state.md R30). -/
  gated_captured : s.tGated = true → s.phase = .addressCaptured
  /-- Only a write whose fetched code is writable gets past the gate (40_bus_transactions.md R141). -/
  forwarded_writable : s.writeForwarded → s.tIsWrite = true ∧ writable (entryPerm s.tEntry) = true
  /-- Only a read is answered (40_bus_transactions.md R145). -/
  resolved_read : s.phase = .readResolved → s.tIsWrite = false
  /-- An abort shows one of the four codes (60_exceptions.md R302). -/
  fatal_code : s.fatal = true → 1 ≤ s.fatalCode.toNat ∧ s.fatalCode.toNat ≤ 4
  /-- The ring has a legal number of slots (00_scope.md R7). -/
  slot_count : s.slotCountOk
  /-- From an INIT on, the consumer's copy of the read cursor is exact (43_eventlog.md R236; that the copy is 0 in INIT's own
  step is log 17, that every ADVR moves it is log 23). Nothing is said of it before INIT, where R40 leaves `rd` open. -/
  copy_exact : s.enabled = true → s.consumerRd = s.rd
  /-- While the consumer's interrupt is masked no handler runs (20_memory.md R82). -/
  masked_off : s.irqMasked = true → s.handler = .off
  /-- A context that is not running has begun nothing. -/
  off_no_command : s.handler = .off → s.irq.op = none
  fg_in_store : ∀ p, s.fg.op = some p → p.inStore
  irq_in_store : ∀ p, s.irq.op = some p → p.inStore

/-! ## The ring as a queue that loses its oldest entry when full (43_eventlog.md R230, R241) -/

/-- A queue of bounded length, oldest first, with the count of entries lost and not yet skipped. -/
structure LossyQueue where
  lost    : Nat
  entries : List Address
  deriving DecidableEq, Repr

/-- The producer's side of a queue of at most `n` entries: never blocks; on a full queue the oldest entry is lost (R232). -/
def LossyQueue.push (n : Nat) (q : LossyQueue) (a : Address) : LossyQueue :=
  if q.entries.length < n then { q with entries := q.entries ++ [a] }
  else { lost := q.lost + 1, entries := q.entries.tail ++ [a] }

/-- The consumer's advance: past a lost entry if there is one (R237), else past the oldest. -/
def LossyQueue.advance (q : LossyQueue) : LossyQueue :=
  if 0 < q.lost then { q with lost := q.lost - 1 } else { q with entries := q.entries.tail }

/-- How many unread events are still in the slots. -/
def State.inRing (s : State) : Nat := min s.unread.toNat s.slotCount

/-- The unread events still in the slots, oldest first: those with sequence numbers `wr - inRing` to `wr - 1` (R241). -/
def State.unreadEvents (s : State) : List Address :=
  (List.range s.inRing).map fun i => s.slotAt (s.wr - BitVec.ofNat 32 s.inRing + BitVec.ofNat 32 i)

/-- The ring seen as a lossy queue. -/
def State.ring (s : State) : LossyQueue :=
  { lost := s.unread.toNat - s.slotCount, entries := s.unreadEvents }

end Sys2Proof.Machine
end

