-- ==== Sys2Proof/Certificates/Slice0/Obligations.lean ====
section
/-! DEFINITION. The statements for the provers. Each says in its docstring which sentence of the spec it formalises. -/

open Sys2Proof Sys2Proof.Machine

/-! ## Encodings -/

/-- 30_encoding.md R101, R108, R109, R112: the decoder reads back every operation the encoder writes, every operand at
every value. -/
def Obligations.DecodeEncodeAgree : Prop :=
  ∀ i : Instr, i.wellFormed = true → decode (encode i) = .ok i

/-- 30_encoding.md R101, R108: no two command words mean one operation, and a request's words differ only in the bits
the port does not carry. -/
def Obligations.EncodeDecodeAgree : Prop :=
  (∀ (w0 w1 w2 : Word) (i : Instr), decode (.cmd w0 w1 w2) = .ok i →
    i.wellFormed = true ∧ encode i = .cmd w0 w1 w2) ∧
  (∀ w : Word, decode (.req w) = .ok (decodeReq w) ∧ encode (decodeReq w) = .req (w &&& 0x01FFFFFF))

/-- 30_encoding.md R108, R112; 45_reference_consumer.md R285: a command is rejected exactly when a field that must be 0
is not (or its flag id is unknown); the reserved op numbers 14 and 15 decode to operations of their own, whatever the
other bits are. The fields are read here by division, not by the decoder's functions. -/
def Obligations.MustBeZeroFieldsEnforced : Prop :=
  ∀ w0 w1 w2 : Word,
    let op := w0.toNat / 2 ^ 28
    let mustBeZero := w0.toNat / 2 ^ 10 % 2 ^ 18
    let code := w0.toNat / 2 ^ 8 % 4
    let data := w0.toNat % 256
    ((∃ e, decode (.cmd w0 w1 w2) = .error e) ↔
      op < 14 ∧
        (mustBeZero ≠ 0 ∨ (op ≠ 6 ∧ op ≠ 7 ∧ code ≠ 0) ∨ (op ≠ 1 ∧ op ≠ 3 ∧ op ≠ 13 ∧ data ≠ 0) ∨
         (7 < op ∧ op ≠ 11 ∧ w1.toNat ≠ 0) ∨ (op ≠ 3 ∧ op ≠ 4 ∧ op ≠ 5 ∧ op ≠ 7 ∧ w2.toNat ≠ 0) ∨
         (op = 13 ∧ 2 ≤ data))) ∧
    (op = 14 → ∃ low : BitVec 28, low.toNat = w0.toNat % 2 ^ 28 ∧ decode (.cmd w0 w1 w2) = .ok (.reservedE low w1 w2)) ∧
    (op = 15 → ∃ low : BitVec 28, low.toNat = w0.toNat % 2 ^ 28 ∧ decode (.cmd w0 w1 w2) = .ok (.reservedF low w1 w2))

/-- Words of 95_test_vectors.md: one of each family, and two of its illegal words. -/
def Obligations.WordsOfTheTestVectors : Prop :=
  decode (.req 0x0000D015) = .ok (.brd 0xD015 0) ∧
  decode (.req 0x015AD000) = .ok (.bwr 0xD000 0x5A) ∧
  decode (.cmd 0x10000041 0x00008000 0) = .ok (.wrv 0x8000 0x41) ∧
  decode (.cmd 0x60000300 0x0000D015 0) = .ok (.setp 0xD015 3) ∧
  decode (.cmd 0x70000200 0x00000000 0x00010000) = .ok (.setpr 0 2 65536) ∧
  decode (.cmd 0x300000AA 0x0000FFFE 2) = .ok (.fill 0xFFFE 0xAA 2) ∧
  decode (.cmd 0x80000000 0 0) = .ok .init ∧
  decode (.cmd 0xB0000000 0x00000009 0) = .ok (.rdslot 9) ∧
  decode (.cmd 0xD0000001 0 0) = .ok (.pollclr 1) ∧
  decode (.cmd 0x60000400 0x00001000 0) = .error .reservedBitsSet ∧
  decode (.cmd 0x20000000 0x00009000 4) = .error .countNotZero

/-! ## A step runs what the port presents -/

/-- The running firmware context issues its next command: the step is that command's meaning, after the move and the
command are taken from the inputs. For FG while no handler runs, for IRQ while another consumer's handler runs; the
reference handler issues its own commands (log 13, log 16). -/
def Obligations.StepIssuesDecodedCommand : Prop :=
  ∀ (s : State) (m : Move) (rest : List Move) (c : Command) (cs : List Command) (i : Instr),
    s.schedule = m :: rest → s.canIssue →
    (m = .fg ∧ s.handler = .off ∨ m = .irq ∧ s.handler = .script) →
    s.port.cmds = c :: cs → decode (.cmd c.w0 c.w1 c.w2) = .ok i →
    step s = exec i (({ s with schedule := rest }).modifyPort fun q => { q with cmds := cs })

/-- AUTO presents its next request: the step is that request's meaning, after the move and the request are taken from
the inputs; while a transaction is in flight AUTO has no such step and the request stays (70_reset_and_hazards.md R352
(a), a contract on the environment; log 10). -/
def Obligations.StepPresentsDecodedRequest : Prop :=
  ∀ (s : State) (rest : List Move) (w : Word) (ws : List Word),
    s.schedule = .auto :: rest → s.fatal = false → s.bus = w :: ws →
    (s.phase = .idle → step s = exec (decodeReq w) { s with schedule := rest, bus := ws }) ∧
    (s.phase ≠ .idle → step s = .next { s with schedule := rest })

/-- An illegal command raises FATAL(ILLEGAL_COMMAND) and has no other effect (30_encoding.md R112; 60_exceptions.md R301). -/
def Obligations.IllegalCommandAborts : Prop :=
  ∀ (s : State) (m : Move) (rest : List Move) (c : Command) (cs : List Command) (e : DecodeError),
    s.schedule = m :: rest → s.canIssue →
    (m = .fg ∧ s.handler = .off ∨ m = .irq ∧ s.handler = .script) →
    s.port.cmds = c :: cs → decode (.cmd c.w0 c.w1 c.w2) = .error e →
    step s = .next { (({ s with schedule := rest }).modifyPort fun q => { q with cmds := cs }) with
      fatal := true, fatalCode := 4 }

/-- A scheduled move of PIPE is its one enabled step (40_bus_transactions.md R140); with nothing scheduled a transaction
in flight is finished within four steps (R157; the default order of moves is the model's, log 1). -/
def Obligations.PipeMovesAndFinishes : Prop :=
  (∀ (s : State) (rest : List Move), s.schedule = .pipe :: rest → s.fatal = false →
    step s = .next (pipeStep { s with schedule := rest })) ∧
  (∀ s : State, s.schedule = [] → s.fatal = false → ∃ k t, k ≤ 4 ∧ steps k s = .next t ∧ t.phase = .idle)

/-- FG takes no step while the handler runs, and IRQ none while it does not (20_memory.md R82; 60_exceptions.md R309). -/
def Obligations.ContextsTakeTurns : Prop :=
  ∀ (s : State) (rest : List Move), s.fatal = false →
    (s.schedule = .fg :: rest → s.handler ≠ .off → step s = .next { s with schedule := rest }) ∧
    (s.schedule = .irq :: rest → s.handler = .off → step s = .next { s with schedule := rest })

/-! ## Reset -/

/-- 10_state.md R40, 70_reset_and_hazards.md R340: the values the spec gives for reset, and the outputs; every entry of
the store has its power-up contents (log 2); only FG runs; the ring has the default number of slots, eight (00_scope.md
R7). -/
def Obligations.ResetState : Prop :=
  State.reset.slotCount = 8 ∧
  State.reset.phase = .idle ∧ State.reset.tGated = false ∧ State.reset.enabled = false ∧
  State.reset.stopping = false ∧ State.reset.fatal = false ∧ State.reset.handler = .off ∧
  State.reset.xDriveEn = false ∧ State.reset.xWrAccept = false ∧ State.reset.evtIrq = false ∧
  (∀ a, State.reset.readV a = Config.powerUpValue 0 a) ∧ (∀ a, State.reset.readP a = Config.powerUpPerm 0 a)

/-- 70_reset_and_hazards.md R340, R341; 60_exceptions.md R310: a reset can be taken in every state, after an abort too.
The pipeline is disabled, nothing is in flight, the abort is clear, the store's contents are arbitrary again, and the
marker survives (45_reference_consumer.md R287). The inputs not yet taken stay (log 22). -/
def Obligations.ResetFromEveryState : Prop :=
  ∀ (s : State) (rest : List Move), s.schedule = .reset :: rest →
    ∃ t, step s = .next t ∧ t.phase = .idle ∧ t.tGated = false ∧ t.enabled = false ∧ t.stopping = false ∧
      t.fatal = false ∧ t.handler = .off ∧ t.fg.op = none ∧ t.irq.op = none ∧
      t.xDriveEn = false ∧ t.xWrAccept = false ∧ t.evtIrq = false ∧
      t.marker = s.marker ∧
      (∀ a, t.readV a = Config.powerUpValue (s.boots + 1) a) ∧
      (∀ a, t.readP a = Config.powerUpPerm (s.boots + 1) a) ∧
      t.schedule = rest ∧ t.bus = s.bus ∧ t.fg.cmds = s.fg.cmds ∧ t.irq.cmds = s.irq.cmds

/-! ## Invariants -/

/-- `State.Inv` holds after power-up, for every legal number of ring slots. (No clause rests on a reset value of the model's
own choice: what is said of the two read cursors is said while the pipeline is enabled, and it is disabled here.) -/
def Obligations.ResetSatisfiesInvariant : Prop :=
  State.reset.Inv ∧ ∀ k, k ≤ 32 → (State.powerUp (2 ^ k)).Inv

/-- Every step keeps `State.Inv`: the planes' canonical form, the pipeline idle while disabled, only writable writes past
the gate, commands in progress inside the store, legal abort codes, a legal number of ring slots, the consumer's copy of
the read cursor exact while the pipeline is enabled, no handler while masked. That INIT zeroes the copy in its own step is
the model's reading (log 17), that another consumer's ADVR moves it too the model's choice (log 23). -/
def Obligations.StepKeepsInvariant : Prop :=
  ∀ s t : State, s.Inv → step s = .next t → t.Inv

/-- 10_state.md R27: the unread count; no pipeline step writes the read cursor, no command but INIT the write cursor, no
command but INIT and ADVR the read cursor. Of the steps: a PIPE move that is an APPEND, an FG move that is an INIT, and a
reset are all that changes the write cursor or a slot; an IRQ move that is an ADVR, an INIT and a reset all that changes the read cursor. What a reset leaves in the cursors is not said (R40). That the
consumer's copy moves in ADVR's own step is the model's choice (log 23), not R27's. -/
def Obligations.CursorOwnership : Prop :=
  (∀ s : State, s.unread.toNat = (s.wr.toNat + 2 ^ 32 - s.rd.toNat) % 2 ^ 32) ∧
  (∀ s : State, (pipeStep s).rd = s.rd) ∧
  (∀ (i : Instr) (s t : State), exec i s = .next t → i ≠ .init → t.wr = s.wr ∧ (i ≠ .advr → t.rd = s.rd)) ∧
  ∀ s t : State, step s = .next t →
    ((t.wr = s.wr ∧ t.slots = s.slots) ∨
     (s.nextMove = some .pipe ∧ s.phase = .writeCommitted ∧ t.phase = .eventLogged ∧ t.wr = s.wr + 1 ∧ t.rd = s.rd ∧
       t.slots = s.slots.set (s.slotIndex s.wr) s.tAddr) ∨
     (s.nextMove = some .fg ∧ s.enabled = false ∧ t.enabled = true ∧ t.wr = 0 ∧ t.rd = 0 ∧ t.slots = s.slots) ∨
     t.boots = s.boots + 1) ∧
    (t.rd = s.rd ∨
     (s.nextMove = some .irq ∧ s.handler ≠ .off ∧ s.rd ≠ s.wr ∧ t.rd = s.rd + 1 ∧ t.consumerRd = s.consumerRd + 1 ∧
       t.wr = s.wr ∧ t.phase = s.phase ∧ t.v = s.v ∧ t.p = s.p) ∨
     (s.nextMove = some .fg ∧ s.enabled = false ∧ t.enabled = true ∧ t.wr = 0 ∧ t.rd = 0) ∨
     t.boots = s.boots + 1)

/-- 00_scope.md R7, 10_state.md R38 (a): the number of ring slots is a parameter, any power of two, which no step changes,
no reset included. -/
def Obligations.SlotCountIsFixed : Prop :=
  ∀ s t : State, step s = .next t → t.slotCount = s.slotCount

/-! ## The gate and the pipeline -/

/-- 40_bus_transactions.md R142: the four codes. The numbers of the codes are the spec's choice (30_encoding.md R106). -/
def Obligations.PermissionTable : Prop :=
  (readable Config.permWriteOnly = false ∧ writable Config.permWriteOnly = true) ∧
  (readable Config.permReadWrite = true ∧ writable Config.permReadWrite = true) ∧
  (readable Config.permNoAccess = false ∧ writable Config.permNoAccess = false) ∧
  (readable Config.permReadOnly = true ∧ writable Config.permReadOnly = false) ∧
  (∀ c : Perm, c = Config.permWriteOnly ∨ c = Config.permReadWrite ∨ c = Config.permNoAccess ∨ c = Config.permReadOnly)

/-- 40_bus_transactions.md R144, R62: LOOKUP fetches permission and value at one instant and decides by them. -/
def Obligations.LookupFetchesFusedEntry : Prop :=
  ∀ s : State, s.phase = .addressCaptured → s.tGated = false →
    let a := s.tAddr.toNat
    let t := pipeStep s
    t.xRspValue = s.readV a ∧ t.xRspPerm = s.readP a ∧
    (s.tIsWrite = false →
      t.phase = .readResolved ∧ t.xDriveEn = readable (s.readP a) ∧ t.xWrAccept = false ∧
      t = { s with tEntry := t.tEntry, phase := .readResolved, extData := t.extData, draws := t.draws }) ∧
    (s.tIsWrite = true → writable (s.readP a) = true →
      t.xWrAccept = true ∧ t.xDriveEn = false ∧ t = { s with tEntry := t.tEntry, tGated := true }) ∧
    (s.tIsWrite = true → writable (s.readP a) = false →
      t.xWrAccept = false ∧ t.xDriveEn = false ∧ t = { s with tEntry := t.tEntry, phase := .idle })

/-- 40_bus_transactions.md R148: COMMIT, "unconditionally": whatever the permission is by now. -/
def Obligations.CommitStoresLatchedByte : Prop :=
  ∀ s : State, s.phase = .addressCaptured → s.tGated = true →
    let a := s.tAddr.toNat
    let t := pipeStep s
    t.readV a = s.tWdata ∧ (∀ b, b ≠ a → t.readV b = s.readV b) ∧ (∀ b, t.readP b = s.readP b) ∧
    t.inTearWindow a = true ∧
    t = { s with v := t.v, tOld := s.readV a, tGated := false, phase := .writeCommitted }

/-- 43_eventlog.md R231: APPEND writes the slot, advances the cursor and ends the tear window in one step; no other step
of PIPE and no command but INIT touches either. -/
def Obligations.AppendLogsCommittedAddress : Prop :=
  (∀ s : State, s.phase = .writeCommitted →
    let t := pipeStep s
    (s.slotCountOk → t.slotAt s.wr = s.tAddr) ∧
    (∀ j, s.slotIndex j ≠ s.slotIndex s.wr → t.slotAt j = s.slotAt j) ∧
    t.slots = s.slots.set (s.wr.toNat % s.slots.length) s.tAddr ∧
    t.wr.toNat = (s.wr.toNat + 1) % 2 ^ 32 ∧ t.phase = .eventLogged ∧
    (∀ a, t.inTearWindow a = false) ∧ t.evtIrq = (s.enabled && s.wr + 1 != s.rd) ∧
    t = { s with slots := t.slots, wr := t.wr, phase := .eventLogged }) ∧
  (∀ s : State, s.phase ≠ .writeCommitted → (pipeStep s).wr = s.wr ∧ (pipeStep s).slots = s.slots) ∧
  (∀ (i : Instr) (s t : State), exec i s = .next t → t.slots = s.slots ∧ (i ≠ .init → t.wr = s.wr))

/-- 40_bus_transactions.md R150: RETIRE, after which the slot is ready for the next ACCEPT with no action by any other
agent. -/
def Obligations.RetireFreesTheSlot : Prop :=
  ∀ s : State, s.phase = .readResolved ∨ s.phase = .eventLogged →
    pipeStep s = { s with phase := .idle } ∧ (pipeStep s).xDriveEn = false ∧
    (s.enabled = true → s.stopping = false → (pipeStep s).canAccept)

/-- 40_bus_transactions.md R153: whenever `phase` is not IDLE the pipeline has a step that changes its state, and every
transaction reaches IDLE in at most four; in IDLE it has none. -/
def Obligations.TransactionsNeverBlock : Prop :=
  (∀ s : State, s.phase ≠ .idle →
    (pipeStep s).phase ≠ s.phase ∨ (s.tGated = false ∧ (pipeStep s).tGated = true)) ∧
  (∀ s : State, s.phase = .idle → pipeStep s = s) ∧
  (∀ s : State, ∃ k, k ≤ 4 ∧ ((pipeStep^[k]) s).phase = .idle)

/-- 60_exceptions.md R312, 20_memory.md R63: what PIPE must not write, and the one byte it may. -/
def Obligations.PipelineWritesOnlyItsOwn : Prop :=
  ∀ s : State,
    let t := pipeStep s
    t = { s with v := t.v, slots := t.slots, wr := t.wr, phase := t.phase, tEntry := t.tEntry, tGated := t.tGated,
                 tOld := t.tOld, extData := t.extData, draws := t.draws } ∧
    ∀ a, (a ≠ s.tAddr.toNat ∨ s.tGated = false) → t.readV a = s.readV a

/-- 20_memory.md R78: a SETP before the lookup is seen by that transaction, one after it is not, and does not stop the
commit. -/
def Obligations.PermissionChangeSeenFromNextLookup : Prop :=
  ∀ (s : State) (addr : Word) (code : Perm), s.canIssue → addr.toNat < 65536 → s.tAddr.toNat = addr.toNat →
    s.phase = .addressCaptured → s.tIsWrite = true →
    ∃ t, exec (.setp addr code) s = .next t ∧
      (s.tGated = false →
        (pipeStep t).tGated = writable code ∧
        (pipeStep t).phase = if writable code then .addressCaptured else .idle) ∧
      (s.tGated = true → (pipeStep t).phase = .writeCommitted ∧ (pipeStep t).readV addr.toNat = s.tWdata)

/-- 40_bus_transactions.md R142, R151: what an external read of an unreadable address gets does not depend on the store,
and is not driven. -/
def Obligations.UnreadableBytesAreNotDriven : Prop :=
  ∀ (s : State) (v : List Host.Cell), s.phase = .addressCaptured → s.tGated = false → s.tIsWrite = false →
    readable (s.readP s.tAddr.toNat) = false →
    (pipeStep s).xDriveEn = false ∧ (pipeStep { s with v := v }).extData = (pipeStep s).extData ∧
    (pipeStep s).extData = Config.freeByte s.draws ∧ (pipeStep s).draws = s.draws + 1

/-! ## The bus transactions -/

/-- 40_bus_transactions.md R146: BRD runs ACCEPT, LOOKUP, RETIRE. The response is the stored entry whatever its code is;
the external processor gets the byte if the code lets it be driven, else a free one; nothing but the latches changes. -/
def Obligations.ReadTransaction : Prop :=
  ∀ (s : State) (addr : Address) (wdata : Byte) (rest : List Move),
    s.canAccept → s.fatal = false → s.schedule = .pipe :: .pipe :: rest →
    let a := addr.toNat
    ∃ t u w, exec (.brd addr wdata) s = .next t ∧ step t = .next u ∧ step u = .next w ∧
      t = { s with tAddr := addr, tIsWrite := false, tWdata := wdata, tGated := false, phase := .addressCaptured } ∧
      u.phase = .readResolved ∧ u.xRspValue = s.readV a ∧ u.xRspPerm = s.readP a ∧
      u.xDriveEn = readable (s.readP a) ∧ u.xWrAccept = false ∧
      u.extData = (if readable (s.readP a) then s.readV a else Config.freeByte s.draws) ∧
      w.xDriveEn = false ∧ (∀ b, w.readV b = s.readV b) ∧ (∀ b, w.readP b = s.readP b) ∧
      w = { s with
        tAddr := addr, tIsWrite := false, tWdata := wdata, tGated := false, tEntry := u.tEntry, phase := .idle,
        extData := u.extData, schedule := rest,
        draws := if readable (s.readP a) then s.draws else s.draws + 1 }

/-- 40_bus_transactions.md R147: an allowed BWR runs ACCEPT, LOOKUP, COMMIT, APPEND, RETIRE: the byte is stored, the
address is logged, no permission changes, and the data lines are never driven. -/
def Obligations.CommittedWriteTransaction : Prop :=
  ∀ (s : State) (addr : Address) (wdata : Byte) (rest : List Move),
    s.canAccept → s.fatal = false → writable (s.readP addr.toNat) = true →
    s.schedule = .pipe :: .pipe :: .pipe :: .pipe :: rest →
    let a := addr.toNat
    ∃ t u1 u2 u3 w, exec (.bwr addr wdata) s = .next t ∧ step t = .next u1 ∧ step u1 = .next u2 ∧
      step u2 = .next u3 ∧ step u3 = .next w ∧
      t.phase = .addressCaptured ∧ u1.phase = .addressCaptured ∧ u2.phase = .writeCommitted ∧
      u3.phase = .eventLogged ∧ w.phase = .idle ∧
      u1.xWrAccept = true ∧ t.xDriveEn = false ∧ u1.xDriveEn = false ∧ u2.xDriveEn = false ∧ u3.xDriveEn = false ∧
      w.readV a = wdata ∧ (∀ b, b ≠ a → w.readV b = s.readV b) ∧ (∀ b, w.readP b = s.readP b) ∧
      (s.slotCountOk → w.slotAt s.wr = addr) ∧ (∀ j, s.slotIndex j ≠ s.slotIndex s.wr → w.slotAt j = s.slotAt j) ∧
      w.slots = s.slots.set (s.wr.toNat % s.slots.length) addr ∧
      u2.wr = s.wr ∧ w.wr = s.wr + 1 ∧
      w = { s with
        v := w.v, slots := w.slots, wr := s.wr + 1,
        tAddr := addr, tIsWrite := true, tWdata := wdata, tGated := false, tEntry := u1.tEntry,
        tOld := s.readV a, phase := .idle, schedule := rest }

/-- 40_bus_transactions.md R147, R152: a BWR to an address whose code forbids it ends at the lookup: nothing but the
latches changes and nothing is logged. -/
def Obligations.IgnoredWriteTransaction : Prop :=
  ∀ (s : State) (addr : Address) (wdata : Byte) (rest : List Move),
    s.canAccept → s.fatal = false → writable (s.readP addr.toNat) = false → s.schedule = .pipe :: rest →
    ∃ t u, exec (.bwr addr wdata) s = .next t ∧ step t = .next u ∧
      t.xWrAccept = false ∧ u.xWrAccept = false ∧ u.xDriveEn = false ∧
      (∀ b, u.readV b = s.readV b) ∧ (∀ b, u.readP b = s.readP b) ∧
      u = { s with
        tAddr := addr, tIsWrite := true, tWdata := wdata, tGated := false, tEntry := u.tEntry, phase := .idle,
        schedule := rest }

/-- 40_bus_transactions.md R155, 70_reset_and_hazards.md R352 (d): while the pipeline is disabled or stopping an
external read gets an unspecified byte and an external write has no effect (log 9); while a transaction is in flight a
request has no meaning (R352 (a), the spec's own choice D21; log 10). -/
def Obligations.BusCycleWithoutAccept : Prop :=
  ∀ (s : State) (addr : Address) (wdata : Byte),
    (s.phase = .idle → s.enabled = false ∨ s.stopping = true →
      exec (.brd addr wdata) s = .next { s with extData := Config.freeByte s.draws, draws := s.draws + 1 } ∧
      exec (.bwr addr wdata) s = .next s) ∧
    (s.phase ≠ .idle →
      exec (.brd addr wdata) s = .refused .requestInFlight ∧ exec (.bwr addr wdata) s = .refused .requestInFlight)

/-! ## The store primitives -/

/-- 41_store_primitives.md R181, 20_memory.md R66: RDV returns `V[addr]`; in the tear window every bit is the old byte's
or the new byte's; nothing changes but the result (and the model's count of draws). -/
def Obligations.ReadByteOrTornByte : Prop :=
  ∀ (s : State) (addr : Word), s.canIssue → addr.toNat < 65536 →
    ∃ (t : State) (b : Byte), exec (.rdv addr) s = .next t ∧ t.port.result = .byte b ∧
      (¬ (s.phase = .writeCommitted ∧ s.tAddr.toNat = addr.toNat) →
        b = s.readV addr.toNat ∧ t = s.finish (.byte b)) ∧
      (s.phase = .writeCommitted ∧ s.tAddr.toNat = addr.toNat →
        (∀ i, b.getLsbD i = s.tOld.getLsbD i ∨ b.getLsbD i = (s.readV addr.toNat).getLsbD i) ∧
        t = ({ s with draws := s.draws + 1 }).finish (.byte b))

/-- 41_store_primitives.md R182: WRV stores the byte whatever `P[addr]` is, writes no permission and logs nothing. -/
def Obligations.WriteByte : Prop :=
  ∀ (s : State) (addr : Word) (value : Byte), s.canIssue →
    (addr.toNat ≤ 65535 →
      ∃ t, exec (.wrv addr value) s = .next t ∧
        t.readV addr.toNat = value ∧ (∀ a, a ≠ addr.toNat → t.readV a = s.readV a) ∧ (∀ a, t.readP a = s.readP a) ∧
        t.evtIrq = s.evtIrq ∧ entryValue (t.entryAt addr.toNat) = value ∧
        t = ({ s with v := t.v }).finish .none) ∧
    (65535 < addr.toNat → exec (.wrv addr value) s = .next { s with fatal := true, fatalCode := 1 })

/-- 41_store_primitives.md R183: SETP writes "only the permission half" of the entry. -/
def Obligations.SetPermission : Prop :=
  ∀ (s : State) (addr : Word) (code : Perm), s.canIssue →
    (addr.toNat ≤ 65535 →
      ∃ t, exec (.setp addr code) s = .next t ∧
        t.readP addr.toNat = code ∧ (∀ a, a ≠ addr.toNat → t.readP a = s.readP a) ∧ (∀ a, t.readV a = s.readV a) ∧
        t = ({ s with p := t.p }).finish .none) ∧
    (65535 < addr.toNat → exec (.setp addr code) s = .next { s with fatal := true, fatalCode := 2 })

/-- 20_memory.md R81: "For all addresses `a` and values `v`, `write(a, v); read(a) == v`", with no step of another agent
between and no tear window open for `a`. -/
def Obligations.WriteThenReadRoundTrip : Prop :=
  ∀ (s : State) (addr : Word) (value : Byte), s.canIssue → addr.toNat < 65536 →
    ¬ (s.phase = .writeCommitted ∧ s.tAddr.toNat = addr.toNat) →
    ∃ t u, exec (.wrv addr value) s = .next t ∧ exec (.rdv addr) t = .next u ∧ u.port.result = .byte value

/-- 42_store_bulk.md R201, 60_exceptions.md R302: outside the range every store and permission command raises its FATAL
code, before any entry is touched and any payload byte is taken; the sum is exact. -/
def Obligations.RangeViolationsAbort : Prop :=
  ∀ (s : State) (addr count : Word) (value : Byte) (code : Perm), s.canIssue →
    (65536 < addr.toNat + 1 →
      exec (.rdv addr) s = .next { s with fatal := true, fatalCode := 1 } ∧
      exec (.wrv addr value) s = .next { s with fatal := true, fatalCode := 1 } ∧
      exec (.setp addr code) s = .next { s with fatal := true, fatalCode := 2 }) ∧
    (65536 < addr.toNat + 4 → exec (.rdw32 addr) s = .next { s with fatal := true, fatalCode := 1 }) ∧
    (65536 < addr.toNat + count.toNat →
      exec (.fill addr value count) s = .next { s with fatal := true, fatalCode := 1 } ∧
      exec (.cpin addr count) s = .next { s with fatal := true, fatalCode := 1 } ∧
      exec (.cpout addr count) s = .next { s with fatal := true, fatalCode := 1 } ∧
      exec (.setpr addr code count) s = .next { s with fatal := true, fatalCode := 2 })

/-- 20_memory.md R64, R75; 41_store_primitives.md R180: no F-port command consults a permission: with another
permission plane a command other than SETP and SETPR does the same. -/
def Obligations.CommandsIgnorePermissions : Prop :=
  ∀ (i : Instr) (s : State) (p : List (Nat × Perm)),
    (∀ a c, i ≠ .setp a c) → (∀ a c n, i ≠ .setpr a c n) →
    exec i { s with p := p } = andThen (exec i s) fun t => { t with p := p }

/-! ## The bulk operations, with only their own context moving (each element is one step) -/

/-- 42_store_bulk.md R203: FILL. -/
def Obligations.FillRange : Prop :=
  ∀ (s : State) (addr count : Word) (value : Byte) (rest : List Move), s.canIssue →
    addr.toNat + count.toNat ≤ 65536 → s.schedule = List.replicate (count.toNat - 1) s.ownMove ++ rest →
    ∃ t u, exec (.fill addr value count) s = .next t ∧ steps (count.toNat - 1) t = .next u ∧
      (∀ a, u.readV a = if addr.toNat ≤ a ∧ a < addr.toNat + count.toNat then value else s.readV a) ∧
      (∀ a, u.readP a = s.readP a) ∧
      u = ({ s with v := u.v, schedule := rest }).finish .none

/-- 42_store_bulk.md R204: CPIN takes exactly `count` payload bytes, in order. -/
def Obligations.CopyInPayload : Prop :=
  ∀ (s : State) (addr count : Word) (payload more : List Byte) (rest : List Move), s.canIssue →
    addr.toNat + count.toNat ≤ 65536 → s.port.sin = payload ++ more → payload.length = count.toNat →
    s.schedule = List.replicate (count.toNat - 1) s.ownMove ++ rest →
    ∃ t u, exec (.cpin addr count) s = .next t ∧ steps (count.toNat - 1) t = .next u ∧
      (∀ a, u.readV a = if addr.toNat ≤ a ∧ a < addr.toNat + count.toNat then payload.getD (a - addr.toNat) 0
                        else s.readV a) ∧
      (∀ a, u.readP a = s.readP a) ∧
      u = (({ s with v := u.v, schedule := rest }).modifyPort fun q => { q with sin := more }).finish .none

/-- While no payload byte is offered CPIN waits: no entry is written, and the command is still in progress (30_encoding.md
R108, R114; that it waits is the model's reading, log 19). At the first element, which exec issues, and at every later
one. -/
def Obligations.CopyInWaitsForPayload : Prop :=
  (∀ (s : State) (addr count : Word), s.canIssue → addr.toNat + count.toNat ≤ 65536 → 0 < count.toNat →
    s.port.sin = [] →
    exec (.cpin addr count) s = .next (s.suspend (.copyIn addr.toNat count.toNat))) ∧
  (∀ (s : State) (rest : List Move) (next left : Nat), s.fatal = false → 0 < left → s.port.sin = [] →
    s.port.op = some (.copyIn next left) →
    continueCommand (.copyIn next left) s = s ∧
    (s.schedule = s.ownMove :: rest → step s = .next { s with schedule := rest }))

/-- 42_store_bulk.md R205: CPOUT returns the bytes of the range in order; nothing else changes. -/
def Obligations.CopyOutBytes : Prop :=
  ∀ (s : State) (addr count : Word) (rest : List Move), s.canIssue →
    addr.toNat + count.toNat ≤ 65536 →
    (∀ a, addr.toNat ≤ a → a < addr.toNat + count.toNat → s.inTearWindow a = false) →
    s.schedule = List.replicate (count.toNat - 1) s.ownMove ++ rest →
    ∃ t u, exec (.cpout addr count) s = .next t ∧ steps (count.toNat - 1) t = .next u ∧
      u = ({ s with schedule := rest }).finish
        (.bytes ((List.range count.toNat).map fun i => s.readV (addr.toNat + i)))

/-- 42_store_bulk.md R206: SETPR. -/
def Obligations.SetPermissionRange : Prop :=
  ∀ (s : State) (start count : Word) (code : Perm) (rest : List Move), s.canIssue →
    start.toNat + count.toNat ≤ 65536 → s.schedule = List.replicate (count.toNat - 1) s.ownMove ++ rest →
    ∃ t u, exec (.setpr start code count) s = .next t ∧ steps (count.toNat - 1) t = .next u ∧
      (∀ a, u.readP a = if start.toNat ≤ a ∧ a < start.toNat + count.toNat then code else s.readP a) ∧
      (∀ a, u.readV a = s.readV a) ∧
      u = ({ s with p := u.p, schedule := rest }).finish .none

/-- 42_store_bulk.md R202, 20_memory.md R70: RDW32 packs four successive bytes big-endian; nothing else changes. -/
def Obligations.ReadWideBigEndian : Prop :=
  ∀ (s : State) (addr : Word) (rest : List Move), s.canIssue → addr.toNat + 4 ≤ 65536 →
    (∀ a, addr.toNat ≤ a → a < addr.toNat + 4 → s.inTearWindow a = false) →
    s.schedule = List.replicate 3 s.ownMove ++ rest →
    let a := addr.toNat
    ∃ (t u : State) (r : Word), exec (.rdw32 addr) s = .next t ∧ steps 3 t = .next u ∧
      r.toNat = (s.readV a).toNat * 2 ^ 24 + (s.readV (a + 1)).toNat * 2 ^ 16 + (s.readV (a + 2)).toNat * 2 ^ 8 +
        (s.readV (a + 3)).toNat ∧
      u = ({ s with schedule := rest }).finish (.word r)

/-- 20_memory.md R66, R67: one element of RDW32 or CPOUT in the tear window reads, bit by bit, the old byte or the new: an
element in the middle, the last one, which completes the command, and the first one, which exec issues. -/
def Obligations.ElementsReadLikeRdv : Prop :=
  ∀ (s : State) (next left : Nat) (got : List Byte), s.inTearWindow next = true →
    ∃ b : Byte, (∀ i, b.getLsbD i = s.tOld.getLsbD i ∨ b.getLsbD i = (s.readV next).getLsbD i) ∧
      (continueCommand (.readWide next (left + 2) got) s).port.op = some (.readWide (next + 1) (left + 1) (got ++ [b])) ∧
      (continueCommand (.readWide next 1 got) s).port.result = .word (packBigEndian (got ++ [b])) ∧
      (continueCommand (.readWide next 1 got) s).port.op = none ∧
      (continueCommand (.copyOut next (left + 2) got) s).port.op = some (.copyOut (next + 1) (left + 1) (got ++ [b])) ∧
      (continueCommand (.copyOut next 1 got) s).port.result = .bytes (got ++ [b]) ∧
      (continueCommand (.copyOut next 1 got) s).port.op = none ∧
      ∀ addr count : Word, s.canIssue → addr.toNat = next →
        (addr.toNat + 4 ≤ 65536 →
          ∃ t, exec (.rdw32 addr) s = .next t ∧ t.port.op = some (.readWide (next + 1) 3 [b])) ∧
        (addr.toNat + count.toNat ≤ 65536 → 1 < count.toNat →
          ∃ t, exec (.cpout addr count) s = .next t ∧ t.port.op = some (.copyOut (next + 1) (count.toNat - 1) [b])) ∧
        (addr.toNat + count.toNat ≤ 65536 → count.toNat = 1 →
          ∃ t, exec (.cpout addr count) s = .next t ∧ t.port.op = none ∧ t.port.result = .bytes [b])

/-- 60_exceptions.md R308, R309; 42_store_bulk.md R200: steps of PIPE, of AUTO and of the handler, scheduled or not, leave
the foreground's command in progress where it is; when FG moves again, after the handler has returned, the command goes on
from there. Only a reset discards it. -/
def Obligations.SuspendedCommandResumes : Prop :=
  (∀ (s t : State) (p : Pending),
    s.nextMove ≠ some .fg → s.fg.op = some p → step s = .next t → t.boots = s.boots →
    t.fg.op = some p ∧ t.fg.cmds = s.fg.cmds ∧ t.fg.result = s.fg.result) ∧
  (∀ (s : State) (rest : List Move) (p : Pending), s.fatal = false → s.handler = .off → s.fg.op = some p →
    s.schedule = .fg :: rest → step s = .next (continueCommand p { s with schedule := rest })) ∧
  (∀ (s : State) (p : Pending), s.fatal = false → s.fg.op = some p → s.schedule = [] → s.nextMove = some .fg →
    step s = .next (continueCommand p s))

/-! ## The ring -/

/-- 43_eventlog.md R233: PEEKW and its words. -/
def Obligations.PeekReturnsWriteCursor : Prop :=
  decode (.cmd 0xA0000000 0 0) = .ok .peekw ∧ encode .peekw = .cmd 0xA0000000 0 0 ∧
  ∀ s : State, s.canIssue →
    ∃ t, exec .peekw s = .next t ∧ t.port.result = .word s.wr ∧ t = s.finish (.word s.wr)

/-- 43_eventlog.md R234: RDSLOT reads the slot `index mod N`, for the ring's number of slots N; there is such a slot. -/
def Obligations.ReadSlotReducesIndex : Prop :=
  ∀ (s : State) (index : Word), s.canIssue →
    ∃ t, exec (.rdslot index) s = .next t ∧
      (s.slotCountOk → ∃ a, s.slots[index.toNat % s.slots.length]? = some a ∧ t.port.result = .address a) ∧
      t = s.finish (.address (s.slotAt index))

/-- 43_eventlog.md R235, 60_exceptions.md R312: ADVR advances the read cursor modulo 2^32; it has no meaning on an empty
ring and is refused to FG. That the consumer's copy of the cursor (43_eventlog.md R236) moves in ADVR's own step, for every
consumer, is the model's choice (log 23). -/
def Obligations.AdvanceReadCursor : Prop :=
  ∀ s : State, s.canIssue →
    (s.handler ≠ .off → s.rd ≠ s.wr →
      ∃ t, exec .advr s = .next t ∧ t.rd.toNat = (s.rd.toNat + 1) % 2 ^ 32 ∧
        (t.rd = s.wr → t.evtIrq = false) ∧
        t = ({ s with rd := s.rd + 1, consumerRd := s.consumerRd + 1 }).finish .none) ∧
    (s.handler ≠ .off → s.rd = s.wr → exec .advr s = .refused .advrOnEmptyRing) ∧
    (s.handler = .off → exec .advr s = .refused .contextNotAllowed)

/-- 43_eventlog.md R230 to R232, R237, R241: the ring is a queue of N entries that loses its oldest when full. Every step
other than a reset is one of the queue's: an APPEND pushes and never waits, an ADVR of the handler advances past a lost
event or the oldest, an INIT empties it, and every other step leaves it alone; a PIPE move that finds a committed byte is
that push. RDSLOT at the read cursor gives the oldest while none is lost. (The unread count is exact below 2^32 - 1 unread
events, R242.) -/
def Obligations.RingRefinesLossyQueue : Prop :=
  ∀ s : State, s.slotCountOk →
    (∀ t, s.unread.toNat < 2 ^ 32 - 1 → step s = .next t → t.boots = s.boots →
      (t.ring = s.ring ∨
       (s.nextMove = some .pipe ∧ s.phase = .writeCommitted ∧ t.ring = s.ring.push s.slotCount s.tAddr) ∨
       (s.nextMove = some .irq ∧ 0 < s.unread.toNat ∧ t.ring = s.ring.advance) ∨
       (s.nextMove = some .fg ∧ t.ring = { lost := 0, entries := [] })) ∧
      (s.nextMove = some .pipe → s.phase = .writeCommitted → t.ring = s.ring.push s.slotCount s.tAddr)) ∧
    (s.phase = .writeCommitted → s.unread.toNat < 2 ^ 32 - 1 →
      (pipeStep s).ring = s.ring.push s.slotCount s.tAddr) ∧
    (∀ t, exec .advr s = .next t → t.ring = s.ring.advance) ∧
    (s.canIssue → 0 < s.unread.toNat → s.unread.toNat ≤ s.slotCount →
      ∃ t a, exec (.rdslot s.rd) s = .next t ∧ t.port.result = .address a ∧ s.ring.entries.head? = some a) ∧
    (∀ t, exec .init s = .next t → t.fatal = false → t.ring = { lost := 0, entries := [] })

/-- 43_eventlog.md R236, R237: more than N unread, DRAIN skips the lost ones by single ADVR steps and ends with
`rd = wr - N`, the surviving events untouched (what DRAIN computes belongs to the step of its commands, log 23). -/
def Obligations.DrainSkipsLostEvents : Prop :=
  ∀ (s : State) (rest : List Move), s.fatal = false → s.irq.op = none → s.handler = .drain .peek →
    s.consumerRd = s.rd → s.slotCountOk → s.slotCount < s.unread.toNat →
    s.schedule = List.replicate (s.unread.toNat - s.slotCount + 1) .irq ++ rest →
    ∃ t, steps (s.unread.toNat - s.slotCount + 1) s = .next t ∧ t.handler = .drain .peek ∧
      t.rd = s.wr - BitVec.ofNat 32 s.slotCount ∧ t.unreadEvents = s.unreadEvents ∧
      t = { s with rd := s.wr - BitVec.ofNat 32 s.slotCount, consumerRd := s.wr - BitVec.ofNat 32 s.slotCount,
                   schedule := rest, irq := { s.irq with result := .none } }

/-- 43_eventlog.md R236, R238: with at most N unread and no APPEND inside, DRAIN processes exactly the unread addresses, in
commit order, each once, ends with `rd = wr`, and the handler returns. (No mode switch fires: none of the addresses is the
mode register, or high-speed mode is latched. One atomic step per command, what DRAIN computes from a result in the step of
the command that gave it: the model's choice, log 23.) -/
def Obligations.DrainDeliversUnreadEventsInOrder : Prop :=
  ∀ (s : State) (rest : List Move), s.fatal = false → s.irq.op = none → s.handler = .drain .peek →
    s.consumerRd = s.rd → s.slotCountOk → s.unread.toNat ≤ s.slotCount →
    (s.hsLatched = true ∨ Config.modeReg ∉ s.unreadEvents) →
    s.schedule = List.replicate (4 * s.unread.toNat + 1) .irq ++ rest →
    (∀ j a, s.unreadEvents[j]? = some a →
      ∃ t, steps (4 * j + 2) s = .next t ∧ t.handler = .drain (.notify a)) ∧
    s.unreadEvents.length = s.unread.toNat ∧
    ∃ t, steps (4 * s.unread.toNat + 1) s = .next t ∧ t.handler = .off ∧ t.rd = s.wr ∧ t.wr = s.wr ∧
      t.evtIrq = false ∧ t.consumerRd = t.rd ∧ t.schedule = rest ∧
      (∀ a, t.readV a = s.readV a) ∧ (∀ a, t.readP a = s.readP a)

/-! ## Control -/

/-- 44_control.md R261: INIT; 45_reference_consumer.md R282, R287: the reference consumer's part of it (log 17). -/
def Obligations.InitStartsPipeline : Prop :=
  ∀ s : State, s.canIssue →
    (s.handler = .off → s.enabled = false → s.resourcesOk = true →
      ∃ t, exec .init s = .next t ∧ t.evtIrq = false ∧ t.xDriveEn = false ∧ t.xWrAccept = false ∧ t.canAccept ∧
        (∀ a, t.readV a = s.readV a) ∧ (∀ a, t.readP a = s.readP a) ∧
        t = ({ s with
          wr := 0, rd := 0, phase := .idle, tGated := false, stopping := false, enabled := true,
          flagVideo := false, flagSound := false, irqMasked := false, hsLatched := (s.marker == Marker.magic),
          consumerRd := 0 }).finish .none) ∧
    (s.handler = .off → s.enabled = false → s.resourcesOk = false →
      exec .init s = .next { s with fatal := true, fatalCode := 3 }) ∧
    (s.handler = .off → s.enabled = true → exec .init s = .refused .initWhileEnabled) ∧
    (s.handler ≠ .off → exec .init s = .refused .contextNotAllowed)

/-- 44_control.md R262: SHUTDOWN of an enabled pipeline: step 1 keeps new transactions out, the one in flight runs to its
end exactly as it would have, step 2 disables; a context that comes to step 2 too early waits; and a step 2 that finds the
pipeline disabled, because the handler's own SHUTDOWN came between, completes and changes nothing. -/
def Obligations.ShutdownLetsTransactionFinish : Prop :=
  (∀ (s : State) (rest : List Move), s.canIssue → s.enabled = true →
    s.schedule = .pipe :: .pipe :: .pipe :: .pipe :: s.ownMove :: rest →
    let p4 := pipeStep (pipeStep (pipeStep (pipeStep s)))
    ∃ t u, exec .shutdown s = .next t ∧ t = ({ s with stopping := true }).suspend .shutdown ∧ ¬ t.canAccept ∧
      steps 5 t = .next u ∧ u.enabled = false ∧ u.stopping = false ∧ u.phase = .idle ∧
      u.xDriveEn = false ∧ u.xWrAccept = false ∧ u.evtIrq = false ∧
      u = ({ p4 with enabled := false, stopping := false, schedule := rest }).finish .none ∧
      (s.phase ≠ .idle → continueCommand .shutdown t = t)) ∧
  (∀ (s : State) (rest : List Move), s.fatal = false → s.enabled = false → s.stopping = false →
    s.port.op = some .shutdown → s.schedule = s.ownMove :: rest →
    step s = .next (({ s with schedule := rest }).finish .none))

/-- 44_control.md R262: SHUTDOWN while disabled returns at step 1 and changes nothing. -/
def Obligations.ShutdownWhileDisabled : Prop :=
  ∀ s : State, s.canIssue → s.enabled = false → exec .shutdown s = .next (s.finish .none)

/-! ## The fatal abort, the interrupt, the contexts -/

/-- 60_exceptions.md R301, R310: after an abort neither firmware context takes a step and no command is performed; only a
reset is left. That PIPE, AUTO and the environment take no step either is the model's reading: R310 and U15 leave it open
and no claim may rest on it (log 8). -/
def Obligations.AbortIsFinal : Prop :=
  (∀ s : State, s.fatal = true → (∀ rest, s.schedule ≠ .reset :: rest) →
    step s = .fault (.fatalAbort s.fatalCode)) ∧
  (∀ (i : Instr) (s : State), s.fatal = true → (∀ a d, i ≠ .brd a d) → (∀ a d, i ≠ .bwr a d) →
    exec i s = .fault (.fatalAbort s.fatalCode))

/-- 30_encoding.md R112, 60_exceptions.md R302: the reserved op numbers raise FATAL(ILLEGAL_COMMAND), whatever the other
bits are, and have no other effect. -/
def Obligations.ReservedOpNumbersAbort : Prop :=
  ∀ (s : State) (low : BitVec 28) (w1 w2 : Word), s.canIssue →
    exec (.reservedE low w1 w2) s = .next { s with fatal := true, fatalCode := 4 } ∧
    exec (.reservedF low w1 w2) s = .next { s with fatal := true, fatalCode := 4 }

/-- 60_exceptions.md R305, R306, R308: the handler is entered between two steps of FG when the request stands, is not
masked, and the handler is not running; the entry changes nothing else. Otherwise there is no entry. R305: for a batch of
any size the consumer is run at any time, with the request set or not, while it is not masked and not running (log 12). -/
def Obligations.HandlerEntry : Prop :=
  ∀ (s : State) (rest : List Move), s.fatal = false →
    ((s.enabled = true ∧ s.wr ≠ s.rd ∧ s.irqMasked = false ∧ s.handler = .off) →
      (s.schedule = .enterReference :: rest →
        step s = .next { s with schedule := rest, handler := .drain .peek }) ∧
      (s.schedule = .enterScript :: rest → step s = .next { s with schedule := rest, handler := .script })) ∧
    (¬ (s.enabled = true ∧ s.wr ≠ s.rd ∧ s.irqMasked = false ∧ s.handler = .off) →
      (s.schedule = .enterReference :: rest → step s = .next { s with schedule := rest }) ∧
      (s.schedule = .enterScript :: rest → step s = .next { s with schedule := rest })) ∧
    ((s.irqMasked = false ∧ s.handler = .off) →
      (s.schedule = .runReference :: rest →
        step s = .next { s with schedule := rest, handler := .drain .peek }) ∧
      (s.schedule = .runScript :: rest → step s = .next { s with schedule := rest, handler := .script })) ∧
    (¬ (s.irqMasked = false ∧ s.handler = .off) →
      (s.schedule = .runReference :: rest → step s = .next { s with schedule := rest }) ∧
      (s.schedule = .runScript :: rest → step s = .next { s with schedule := rest }))

/-! ## The reference consumer -/

/-- 45_reference_consumer.md R285: POLLCLR returns the flag and clears it, the other flag untouched; it is FG's alone; a
flag id other than 0 or 1 is an illegal command. -/
def Obligations.PollAndClear : Prop :=
  ∀ (s : State) (flag : Byte), s.canIssue →
    (s.handler = .off → flag = 0 →
      ∃ t, exec (.pollclr flag) s = .next t ∧ t.port.result = .bit s.flagVideo ∧
        t = ({ s with flagVideo := false, irqMasked := false }).finish (.bit s.flagVideo)) ∧
    (s.handler = .off → flag = 1 →
      ∃ t, exec (.pollclr flag) s = .next t ∧ t.port.result = .bit s.flagSound ∧
        t = ({ s with flagSound := false, irqMasked := false }).finish (.bit s.flagSound)) ∧
    (s.handler ≠ .off → flag.toNat < 2 → exec (.pollclr flag) s = .refused .contextNotAllowed) ∧
    (2 ≤ flag.toNat → exec (.pollclr flag) s = .next { s with fatal := true, fatalCode := 4 })

/-- 45_reference_consumer.md R283: NOTIFY is an if / else-if chain: the mode register with its bit set fires the mode
switch unless latched; else a watched address sets its flag and no other; an event for the mode register whose bit is
clear, or that comes after the latch, falls through to the range tests. -/
def Obligations.NotifyTests : Prop :=
  ∀ (s : State) (rest : List Move) (a : Address), s.fatal = false → s.irq.op = none →
    s.handler = .drain (.notify a) → s.schedule = .irq :: rest →
    ¬ (s.phase = .writeCommitted ∧ s.tAddr = a) →
    let fires := a = 0xBFFE ∧ (s.readV a.toNat).getLsbD 5 = true ∧ s.hsLatched = false
    let inVideo := Config.watch.videoBase ≤ a.toNat ∧ a.toNat < Config.watch.videoBase + Config.watch.videoLen
    let inSound := Config.watch.soundBase ≤ a.toNat ∧ a.toNat < Config.watch.soundBase + Config.watch.soundLen
    ∃ t, step s = .next t ∧
      t = { s with
        schedule := rest, handler := t.handler, flagVideo := t.flagVideo, flagSound := t.flagSound,
        irq := { s.irq with result := t.irq.result } } ∧
      (fires → t.handler = .drain .latchHighSpeed ∧ t.flagVideo = s.flagVideo ∧ t.flagSound = s.flagSound) ∧
      (¬ fires → t.handler = .drain .advance ∧
        (inVideo → t.flagVideo = true ∧ t.flagSound = s.flagSound) ∧
        (¬ inVideo → inSound → t.flagVideo = s.flagVideo ∧ t.flagSound = true) ∧
        (¬ inVideo → ¬ inSound → t.flagVideo = s.flagVideo ∧ t.flagSound = s.flagSound))

/-- 45_reference_consumer.md R283, for every value of the open parameters: the range tests are an if / else-if chain; the
first and the last address of a range are watched, the one before and the one after are not; at most one flag is set and
nothing else changes. -/
def Obligations.WatchedRangesSetFlags : Prop :=
  ∀ (s : State) (r : Config.WatchRanges) (a : Address),
    let inVideo := r.videoBase ≤ a.toNat ∧ a.toNat < r.videoBase + r.videoLen
    let inSound := r.soundBase ≤ a.toNat ∧ a.toNat < r.soundBase + r.soundLen
    s.markWatched r a = { s with
      flagVideo := s.flagVideo || decide inVideo, flagSound := s.flagSound || decide (inSound ∧ ¬ inVideo) }

/-- 45_reference_consumer.md R284, R287: MODE_SWITCH latches, shuts the pipeline down, then persists the marker, then
reboots; the next INIT finds the marker and latches high-speed mode, so that the switch does not fire again. -/
def Obligations.ModeSwitchReboots : Prop :=
  ∀ (s : State) (rest : List Move), s.fatal = false → s.irq.op = none → s.handler = .drain .latchHighSpeed →
    s.enabled = true → s.phase = .idle → s.resourcesOk = true →
    s.schedule = List.replicate 5 .irq ++ rest →
    ∃ m t u, steps 3 s = .next m ∧ m.hsLatched = true ∧ m.enabled = false ∧ m.stopping = false ∧ m.marker = s.marker ∧
      m.wr = s.wr ∧ m.rd = s.rd ∧
      steps 5 s = .next t ∧ t.marker = .magic ∧ t.boots = s.boots + 1 ∧ t.handler = .off ∧ t.enabled = false ∧
      t.phase = .idle ∧ t.fatal = false ∧ t.schedule = rest ∧
      exec .init t = .next u ∧ u.hsLatched = true ∧ ∀ (a : Address) (b : Byte), u.modeSwitchFires a b = false

/-- 45_reference_consumer.md R286, 60_exceptions.md R312: a sticky flag that is set stays set through every command but
INIT and its own POLLCLR, and through every step of the handler but the reboot. -/
def Obligations.StickyFlagsStaySet : Prop :=
  (∀ (i : Instr) (s t : State), exec i s = .next t → i ≠ .init →
    (i ≠ .pollclr 0 → t.flagVideo = s.flagVideo) ∧
    ((∀ f : Byte, f ≠ 0 → i ≠ .pollclr f) → t.flagSound = s.flagSound)) ∧
  (∀ (pt : DrainPoint) (s t : State), handlerStep pt s = .next t → pt ≠ .reboot →
    (s.flagVideo = true → t.flagVideo = true) ∧ (s.flagSound = true → t.flagSound = true))
end

