-- ==== Sys2Proof/Laws/Decode.lean ====
section
/-! SUPPORT. The fields of the words the encoder writes. -/

namespace Sys2Proof

variable (op : BitVec 4) (code : Perm) (data : Byte)

theorem cmdWord_bit (i : Nat) :
    (cmdWord op code data).getLsbD i =
      if i < 8 then data.getLsbD i else if i < 10 then code.getLsbD (i - 8)
      else if i < 28 then false else op.getLsbD (i - 28) := by
  have h : (cmdWord op code data).getLsbD i =
      if i < 8 then data.getLsbD i
      else if i - 8 < 2 then code.getLsbD (i - 8)
      else if i - 8 - 2 < 18 then (0 : BitVec 18).getLsbD (i - 8 - 2) else op.getLsbD (i - 8 - 2 - 18) := by
    unfold cmdWord
    exact BitVec.getLsbD_append.trans (if_congr Iff.rfl rfl (BitVec.getLsbD_append.trans
      (if_congr Iff.rfl rfl BitVec.getLsbD_append)))
  rw [h]
  by_cases h1 : i < 8
  · simp [h1]
  · by_cases h2 : i < 10
    · simp [h1, h2, show i - 8 < 2 by omega]
    · by_cases h3 : i < 28
      · simp [h1, h2, h3, show ¬ i - 8 < 2 by omega, show i - 8 - 2 < 18 by omega]
      · simp [h1, h2, h3, show ¬ i - 8 < 2 by omega, show ¬ i - 8 - 2 < 18 by omega,
          show i - 8 - 2 - 18 = i - 28 by omega]

@[simp] theorem opField_cmdWord : opField (cmdWord op code data) = op := by
  apply BitVec.eq_of_getLsbD_eq
  intro i hi
  rw [opField, BitVec.getLsbD_extractLsb', cmdWord_bit]
  simp [hi, show ¬ 28 + i < 8 by omega, show ¬ 28 + i < 10 by omega]

@[simp] theorem zeroField_cmdWord : zeroField (cmdWord op code data) = 0 := by
  apply BitVec.eq_of_getLsbD_eq
  intro i hi
  rw [zeroField, BitVec.getLsbD_extractLsb', cmdWord_bit]
  simp [show ¬ 10 + i < 8 by omega, show ¬ 10 + i < 10 by omega, show 10 + i < 28 by omega]

@[simp] theorem codeField_cmdWord : codeField (cmdWord op code data) = code := by
  apply BitVec.eq_of_getLsbD_eq
  intro i hi
  rw [codeField, BitVec.getLsbD_extractLsb', cmdWord_bit]
  simp [hi, show ¬ 8 + i < 8 by omega, show 8 + i < 10 by omega]

@[simp] theorem dataField_cmdWord : dataField (cmdWord op code data) = data := by
  apply BitVec.eq_of_getLsbD_eq
  intro i hi
  rw [dataField, BitVec.getLsbD_extractLsb', cmdWord_bit]
  simp [hi]

theorem reqWord_bit (isWrite : Bool) (addr : Address) (wdata : Byte) (i : Nat) :
    (reqWord isWrite addr wdata).getLsbD i =
      if i < 16 then addr.getLsbD i else if i < 24 then wdata.getLsbD (i - 16)
      else if i = 24 then isWrite else false := by
  have h : (reqWord isWrite addr wdata).getLsbD i =
      if i < 16 then addr.getLsbD i
      else if i - 16 < 8 then wdata.getLsbD (i - 16)
      else if i - 16 - 8 < 1 then (BitVec.ofBool isWrite).getLsbD (i - 16 - 8)
      else (0 : BitVec 7).getLsbD (i - 16 - 8 - 1) := by
    unfold reqWord
    exact BitVec.getLsbD_append.trans (if_congr Iff.rfl rfl (BitVec.getLsbD_append.trans
      (if_congr Iff.rfl rfl BitVec.getLsbD_append)))
  rw [h]
  by_cases h1 : i < 16
  · simp [h1]
  · by_cases h2 : i < 24
    · simp [h1, h2, show i - 16 < 8 by omega]
    · by_cases h3 : i = 24
      · subst h3; cases isWrite <;> simp
      · simp [h1, h2, h3, show ¬ i - 16 < 8 by omega, show ¬ i - 16 - 8 < 1 by omega]

theorem decodeReq_reqWord (isWrite : Bool) (addr : Address) (wdata : Byte) :
    decodeReq (reqWord isWrite addr wdata) = if isWrite then .bwr addr wdata else .brd addr wdata := by
  have ha : (reqWord isWrite addr wdata).extractLsb' 0 16 = addr := by
    apply BitVec.eq_of_getLsbD_eq
    intro i hi
    rw [BitVec.getLsbD_extractLsb', reqWord_bit]
    simp [hi]
  have hd : (reqWord isWrite addr wdata).extractLsb' 16 8 = wdata := by
    apply BitVec.eq_of_getLsbD_eq
    intro i hi
    rw [BitVec.getLsbD_extractLsb', reqWord_bit]
    simp [hi, show ¬ 16 + i < 16 by omega, show 16 + i < 24 by omega]
  have hw : (reqWord isWrite addr wdata).getLsbD 24 = isWrite := by rw [reqWord_bit]; simp
  unfold decodeReq
  simp only [ha, hd, hw]

end Sys2Proof
end

