-- ==== Sys2Proof/Laws/Memory.lean ====
section
/-! SUPPORT. The laws of the sparse planes: a read after a write, the canonical form, and that equal contents are equal
lists. -/

namespace Sys2Proof.Machine

variable {α : Type}

@[simp] theorem Memory.get?_nil (a : Nat) : Memory.get? ([] : Memory α) a = none := rfl

theorem Memory.get?_cons (b : Nat) (x : α) (m : Memory α) (a : Nat) :
    Memory.get? ((b, x) :: m) a = if a = b then some x else Memory.get? m a := rfl

theorem Memory.get?_set_same (m : Memory α) (a : Nat) (x : α) : Memory.get? (Memory.set m a x) a = some x := by
  induction m with
  | nil => simp [Memory.set, Memory.get?]
  | cons c m ih =>
    obtain ⟨b, y⟩ := c
    simp only [Memory.set]
    split_ifs with h1 h2
    · simp [Memory.get?]
    · simp [Memory.get?]
    · simp [Memory.get?, h2, ih]

theorem Memory.get?_set_other (m : Memory α) {a b : Nat} (x : α) (h : b ≠ a) :
    Memory.get? (Memory.set m a x) b = Memory.get? m b := by
  induction m with
  | nil => simp [Memory.set, Memory.get?, h]
  | cons c m ih =>
    obtain ⟨k, y⟩ := c
    simp only [Memory.set]
    split_ifs with h1 h2
    · simp [Memory.get?, h]
    · subst h2; simp [Memory.get?, h]
    · simp only [Memory.get?, ih]

/-- A read after a write. -/
theorem Memory.get?_set (m : Memory α) (a b : Nat) (x : α) :
    Memory.get? (Memory.set m a x) b = if b = a then some x else Memory.get? m b := by
  split_ifs with h
  · subst h; exact Memory.get?_set_same m b x
  · exact Memory.get?_set_other m x h

/-- Which addresses a write lists. -/
theorem Memory.mem_keys_set (m : Memory α) (a : Nat) (x : α) (k : Nat) :
    k ∈ (Memory.set m a x).map Prod.fst → k = a ∨ k ∈ m.map Prod.fst := by
  induction m with
  | nil => simp [Memory.set]
  | cons c m ih =>
    obtain ⟨b, y⟩ := c
    simp only [Memory.set]
    split_ifs with h1 h2
    · simp only [List.map_cons, List.mem_cons]; tauto
    · subst h2; simp only [List.map_cons, List.mem_cons]; tauto
    · simp only [List.map_cons, List.mem_cons]
      rintro (h | h)
      · exact .inr (.inl h)
      · exact (ih h).imp_right .inr

theorem Memory.wf_nil : Memory.wf ([] : Memory α) := by simp [Memory.wf]

theorem Memory.wf_iff_keys (m : Memory α) :
    Memory.wf m ↔ (m.map Prod.fst).Pairwise (· < ·) ∧ ∀ k ∈ m.map Prod.fst, k < Config.space := by
  simp [Memory.wf]

/-- A write inside the store keeps the canonical form. -/
theorem Memory.wf_set {m : Memory α} (h : Memory.wf m) {a : Nat} (ha : a < Config.space) (x : α) :
    Memory.wf (Memory.set m a x) := by
  rw [Memory.wf_iff_keys] at h ⊢
  refine ⟨?_, fun k hk => (Memory.mem_keys_set m a x k hk).elim (· ▸ ha) (h.2 k)⟩
  obtain ⟨hp, -⟩ := h
  induction m with
  | nil => simp [Memory.set]
  | cons c m ih =>
    obtain ⟨b, y⟩ := c
    simp only [List.map_cons, List.pairwise_cons] at hp
    simp only [Memory.set]
    split_ifs with h1 h2
    · simp only [List.map_cons, List.pairwise_cons, List.mem_cons]
      exact ⟨fun k hk => hk.elim (· ▸ h1) (fun hk => h1.trans (hp.1 k hk)), hp⟩
    · subst h2; simpa only [List.map_cons, List.pairwise_cons] using hp
    · simp only [List.map_cons, List.pairwise_cons]
      refine ⟨fun k hk => ?_, ih hp.2⟩
      rcases Memory.mem_keys_set m a x k hk with rfl | hk
      · omega
      · exact hp.1 k hk

/-- Below the first listed address nothing is listed. -/
theorem Memory.get?_eq_none_of_lt (m : Memory α) (a : Nat) (h : ∀ k ∈ m.map Prod.fst, a < k) :
    Memory.get? m a = none := by
  induction m with
  | nil => rfl
  | cons c m ih =>
    obtain ⟨b, y⟩ := c
    simp only [List.map_cons, List.mem_cons] at h
    have hb := h b (.inl rfl)
    simp only [Memory.get?, if_neg (Nat.ne_of_lt hb)]
    exact ih fun k hk => h k (.inr hk)

/-- Equal contents in canonical form are equal lists. -/
theorem Memory.ext_of_wf {m m' : Memory α} (h : Memory.wf m) (h' : Memory.wf m')
    (heq : ∀ a, Memory.get? m a = Memory.get? m' a) : m = m' := by
  rw [Memory.wf_iff_keys] at h h'
  replace h := h.1
  replace h' := h'.1
  induction m generalizing m' with
  | nil =>
    cases m' with
    | nil => rfl
    | cons c m' => have := heq c.1; simp [Memory.get?] at this
  | cons c m ih =>
    obtain ⟨a, x⟩ := c
    cases m' with
    | nil => have := heq a; simp [Memory.get?] at this
    | cons c' m' =>
      obtain ⟨b, y⟩ := c'
      simp only [List.map_cons, List.pairwise_cons] at h h'
      have hab : a = b := by
        rcases Nat.lt_trichotomy a b with hlt | rfl | hlt
        · have := heq a
          rw [Memory.get?_eq_none_of_lt ((b, y) :: m') a (by
            simp only [List.map_cons, List.mem_cons]
            exact fun k hk => hk.elim (· ▸ hlt) (fun hk => hlt.trans (h'.1 k hk)))] at this
          simp [Memory.get?] at this
        · rfl
        · have := heq b
          rw [Memory.get?_eq_none_of_lt ((a, x) :: m) b (by
            simp only [List.map_cons, List.mem_cons]
            exact fun k hk => hk.elim (· ▸ hlt) (fun hk => hlt.trans (h.1 k hk)))] at this
          simp [Memory.get?] at this
      subst hab
      have hxy : x = y := by have := heq a; simpa [Memory.get?] using this
      subst hxy
      congr 1
      refine ih (fun k => ?_) h.2 h'.2
      by_cases hk : k = a
      · subst hk
        rw [Memory.get?_eq_none_of_lt m k h.1, Memory.get?_eq_none_of_lt m' k h'.1]
      · have := heq k
        simpa [Memory.get?, hk] using this

end Sys2Proof.Machine
end

