-- ==== Sys2Proof/Laws/State.lean ====
section
/-! SUPPORT. One lemma per field per named update of the state: each says what the update leaves alone, or what it
writes. Later proofs cite these and unfold no update. -/

namespace Sys2Proof.Machine

variable (s : State)

/-! ## A value write -/

@[simp] theorem State.writeV_v (a : Nat) (b : Byte) : (s.writeV a b).v = Memory.set s.v a b := rfl
@[simp] theorem State.writeV_p (a : Nat) (b : Byte) : (s.writeV a b).p = s.p := rfl
@[simp] theorem State.writeV_slots (a : Nat) (b : Byte) : (s.writeV a b).slots = s.slots := rfl
@[simp] theorem State.writeV_wr (a : Nat) (b : Byte) : (s.writeV a b).wr = s.wr := rfl
@[simp] theorem State.writeV_rd (a : Nat) (b : Byte) : (s.writeV a b).rd = s.rd := rfl
@[simp] theorem State.writeV_phase (a : Nat) (b : Byte) : (s.writeV a b).phase = s.phase := rfl
@[simp] theorem State.writeV_tAddr (a : Nat) (b : Byte) : (s.writeV a b).tAddr = s.tAddr := rfl
@[simp] theorem State.writeV_tIsWrite (a : Nat) (b : Byte) : (s.writeV a b).tIsWrite = s.tIsWrite := rfl
@[simp] theorem State.writeV_tWdata (a : Nat) (b : Byte) : (s.writeV a b).tWdata = s.tWdata := rfl
@[simp] theorem State.writeV_tEntry (a : Nat) (b : Byte) : (s.writeV a b).tEntry = s.tEntry := rfl
@[simp] theorem State.writeV_tGated (a : Nat) (b : Byte) : (s.writeV a b).tGated = s.tGated := rfl
@[simp] theorem State.writeV_tOld (a : Nat) (b : Byte) : (s.writeV a b).tOld = s.tOld := rfl
@[simp] theorem State.writeV_enabled (a : Nat) (b : Byte) : (s.writeV a b).enabled = s.enabled := rfl
@[simp] theorem State.writeV_stopping (a : Nat) (b : Byte) : (s.writeV a b).stopping = s.stopping := rfl
@[simp] theorem State.writeV_fatal (a : Nat) (b : Byte) : (s.writeV a b).fatal = s.fatal := rfl
@[simp] theorem State.writeV_fatalCode (a : Nat) (b : Byte) : (s.writeV a b).fatalCode = s.fatalCode := rfl
@[simp] theorem State.writeV_flagVideo (a : Nat) (b : Byte) : (s.writeV a b).flagVideo = s.flagVideo := rfl
@[simp] theorem State.writeV_flagSound (a : Nat) (b : Byte) : (s.writeV a b).flagSound = s.flagSound := rfl
@[simp] theorem State.writeV_hsLatched (a : Nat) (b : Byte) : (s.writeV a b).hsLatched = s.hsLatched := rfl
@[simp] theorem State.writeV_irqMasked (a : Nat) (b : Byte) : (s.writeV a b).irqMasked = s.irqMasked := rfl
@[simp] theorem State.writeV_marker (a : Nat) (b : Byte) : (s.writeV a b).marker = s.marker := rfl
@[simp] theorem State.writeV_consumerRd (a : Nat) (b : Byte) : (s.writeV a b).consumerRd = s.consumerRd := rfl
@[simp] theorem State.writeV_handler (a : Nat) (b : Byte) : (s.writeV a b).handler = s.handler := rfl
@[simp] theorem State.writeV_fg (a : Nat) (b : Byte) : (s.writeV a b).fg = s.fg := rfl
@[simp] theorem State.writeV_irq (a : Nat) (b : Byte) : (s.writeV a b).irq = s.irq := rfl
@[simp] theorem State.writeV_bus (a : Nat) (b : Byte) : (s.writeV a b).bus = s.bus := rfl
@[simp] theorem State.writeV_extData (a : Nat) (b : Byte) : (s.writeV a b).extData = s.extData := rfl
@[simp] theorem State.writeV_resourcesOk (a : Nat) (b : Byte) : (s.writeV a b).resourcesOk = s.resourcesOk := rfl
@[simp] theorem State.writeV_schedule (a : Nat) (b : Byte) : (s.writeV a b).schedule = s.schedule := rfl
@[simp] theorem State.writeV_draws (a : Nat) (b : Byte) : (s.writeV a b).draws = s.draws := rfl
@[simp] theorem State.writeV_boots (a : Nat) (b : Byte) : (s.writeV a b).boots = s.boots := rfl

/-! ## A permission write -/

@[simp] theorem State.writeP_v (a : Nat) (c : Perm) : (s.writeP a c).v = s.v := rfl
@[simp] theorem State.writeP_p (a : Nat) (c : Perm) : (s.writeP a c).p = Memory.set s.p a c := rfl
@[simp] theorem State.writeP_slots (a : Nat) (c : Perm) : (s.writeP a c).slots = s.slots := rfl
@[simp] theorem State.writeP_wr (a : Nat) (c : Perm) : (s.writeP a c).wr = s.wr := rfl
@[simp] theorem State.writeP_rd (a : Nat) (c : Perm) : (s.writeP a c).rd = s.rd := rfl
@[simp] theorem State.writeP_phase (a : Nat) (c : Perm) : (s.writeP a c).phase = s.phase := rfl
@[simp] theorem State.writeP_tAddr (a : Nat) (c : Perm) : (s.writeP a c).tAddr = s.tAddr := rfl
@[simp] theorem State.writeP_tIsWrite (a : Nat) (c : Perm) : (s.writeP a c).tIsWrite = s.tIsWrite := rfl
@[simp] theorem State.writeP_tWdata (a : Nat) (c : Perm) : (s.writeP a c).tWdata = s.tWdata := rfl
@[simp] theorem State.writeP_tEntry (a : Nat) (c : Perm) : (s.writeP a c).tEntry = s.tEntry := rfl
@[simp] theorem State.writeP_tGated (a : Nat) (c : Perm) : (s.writeP a c).tGated = s.tGated := rfl
@[simp] theorem State.writeP_tOld (a : Nat) (c : Perm) : (s.writeP a c).tOld = s.tOld := rfl
@[simp] theorem State.writeP_enabled (a : Nat) (c : Perm) : (s.writeP a c).enabled = s.enabled := rfl
@[simp] theorem State.writeP_stopping (a : Nat) (c : Perm) : (s.writeP a c).stopping = s.stopping := rfl
@[simp] theorem State.writeP_fatal (a : Nat) (c : Perm) : (s.writeP a c).fatal = s.fatal := rfl
@[simp] theorem State.writeP_fatalCode (a : Nat) (c : Perm) : (s.writeP a c).fatalCode = s.fatalCode := rfl
@[simp] theorem State.writeP_flagVideo (a : Nat) (c : Perm) : (s.writeP a c).flagVideo = s.flagVideo := rfl
@[simp] theorem State.writeP_flagSound (a : Nat) (c : Perm) : (s.writeP a c).flagSound = s.flagSound := rfl
@[simp] theorem State.writeP_hsLatched (a : Nat) (c : Perm) : (s.writeP a c).hsLatched = s.hsLatched := rfl
@[simp] theorem State.writeP_irqMasked (a : Nat) (c : Perm) : (s.writeP a c).irqMasked = s.irqMasked := rfl
@[simp] theorem State.writeP_marker (a : Nat) (c : Perm) : (s.writeP a c).marker = s.marker := rfl
@[simp] theorem State.writeP_consumerRd (a : Nat) (c : Perm) : (s.writeP a c).consumerRd = s.consumerRd := rfl
@[simp] theorem State.writeP_handler (a : Nat) (c : Perm) : (s.writeP a c).handler = s.handler := rfl
@[simp] theorem State.writeP_fg (a : Nat) (c : Perm) : (s.writeP a c).fg = s.fg := rfl
@[simp] theorem State.writeP_irq (a : Nat) (c : Perm) : (s.writeP a c).irq = s.irq := rfl
@[simp] theorem State.writeP_bus (a : Nat) (c : Perm) : (s.writeP a c).bus = s.bus := rfl
@[simp] theorem State.writeP_extData (a : Nat) (c : Perm) : (s.writeP a c).extData = s.extData := rfl
@[simp] theorem State.writeP_resourcesOk (a : Nat) (c : Perm) : (s.writeP a c).resourcesOk = s.resourcesOk := rfl
@[simp] theorem State.writeP_schedule (a : Nat) (c : Perm) : (s.writeP a c).schedule = s.schedule := rfl
@[simp] theorem State.writeP_draws (a : Nat) (c : Perm) : (s.writeP a c).draws = s.draws := rfl
@[simp] theorem State.writeP_boots (a : Nat) (c : Perm) : (s.writeP a c).boots = s.boots := rfl

/-! ## The abort -/

@[simp] theorem State.raiseFatal_v (c : FatalCause) : (s.raiseFatal c).v = s.v := rfl
@[simp] theorem State.raiseFatal_p (c : FatalCause) : (s.raiseFatal c).p = s.p := rfl
@[simp] theorem State.raiseFatal_slots (c : FatalCause) : (s.raiseFatal c).slots = s.slots := rfl
@[simp] theorem State.raiseFatal_wr (c : FatalCause) : (s.raiseFatal c).wr = s.wr := rfl
@[simp] theorem State.raiseFatal_rd (c : FatalCause) : (s.raiseFatal c).rd = s.rd := rfl
@[simp] theorem State.raiseFatal_phase (c : FatalCause) : (s.raiseFatal c).phase = s.phase := rfl
@[simp] theorem State.raiseFatal_tAddr (c : FatalCause) : (s.raiseFatal c).tAddr = s.tAddr := rfl
@[simp] theorem State.raiseFatal_tIsWrite (c : FatalCause) : (s.raiseFatal c).tIsWrite = s.tIsWrite := rfl
@[simp] theorem State.raiseFatal_tWdata (c : FatalCause) : (s.raiseFatal c).tWdata = s.tWdata := rfl
@[simp] theorem State.raiseFatal_tEntry (c : FatalCause) : (s.raiseFatal c).tEntry = s.tEntry := rfl
@[simp] theorem State.raiseFatal_tGated (c : FatalCause) : (s.raiseFatal c).tGated = s.tGated := rfl
@[simp] theorem State.raiseFatal_tOld (c : FatalCause) : (s.raiseFatal c).tOld = s.tOld := rfl
@[simp] theorem State.raiseFatal_enabled (c : FatalCause) : (s.raiseFatal c).enabled = s.enabled := rfl
@[simp] theorem State.raiseFatal_stopping (c : FatalCause) : (s.raiseFatal c).stopping = s.stopping := rfl
@[simp] theorem State.raiseFatal_fatal (c : FatalCause) : (s.raiseFatal c).fatal = true := rfl
@[simp] theorem State.raiseFatal_fatalCode (c : FatalCause) : (s.raiseFatal c).fatalCode = c.code := rfl
@[simp] theorem State.raiseFatal_flagVideo (c : FatalCause) : (s.raiseFatal c).flagVideo = s.flagVideo := rfl
@[simp] theorem State.raiseFatal_flagSound (c : FatalCause) : (s.raiseFatal c).flagSound = s.flagSound := rfl
@[simp] theorem State.raiseFatal_hsLatched (c : FatalCause) : (s.raiseFatal c).hsLatched = s.hsLatched := rfl
@[simp] theorem State.raiseFatal_irqMasked (c : FatalCause) : (s.raiseFatal c).irqMasked = s.irqMasked := rfl
@[simp] theorem State.raiseFatal_marker (c : FatalCause) : (s.raiseFatal c).marker = s.marker := rfl
@[simp] theorem State.raiseFatal_consumerRd (c : FatalCause) : (s.raiseFatal c).consumerRd = s.consumerRd := rfl
@[simp] theorem State.raiseFatal_handler (c : FatalCause) : (s.raiseFatal c).handler = s.handler := rfl
@[simp] theorem State.raiseFatal_fg (c : FatalCause) : (s.raiseFatal c).fg = s.fg := rfl
@[simp] theorem State.raiseFatal_irq (c : FatalCause) : (s.raiseFatal c).irq = s.irq := rfl
@[simp] theorem State.raiseFatal_bus (c : FatalCause) : (s.raiseFatal c).bus = s.bus := rfl
@[simp] theorem State.raiseFatal_extData (c : FatalCause) : (s.raiseFatal c).extData = s.extData := rfl
@[simp] theorem State.raiseFatal_resourcesOk (c : FatalCause) : (s.raiseFatal c).resourcesOk = s.resourcesOk := rfl
@[simp] theorem State.raiseFatal_schedule (c : FatalCause) : (s.raiseFatal c).schedule = s.schedule := rfl
@[simp] theorem State.raiseFatal_draws (c : FatalCause) : (s.raiseFatal c).draws = s.draws := rfl
@[simp] theorem State.raiseFatal_boots (c : FatalCause) : (s.raiseFatal c).boots = s.boots := rfl

/-! ## An undriven read -/

@[simp] theorem State.undrivenRead_v : (s.undrivenRead).v = s.v := rfl
@[simp] theorem State.undrivenRead_p : (s.undrivenRead).p = s.p := rfl
@[simp] theorem State.undrivenRead_slots : (s.undrivenRead).slots = s.slots := rfl
@[simp] theorem State.undrivenRead_wr : (s.undrivenRead).wr = s.wr := rfl
@[simp] theorem State.undrivenRead_rd : (s.undrivenRead).rd = s.rd := rfl
@[simp] theorem State.undrivenRead_phase : (s.undrivenRead).phase = s.phase := rfl
@[simp] theorem State.undrivenRead_tAddr : (s.undrivenRead).tAddr = s.tAddr := rfl
@[simp] theorem State.undrivenRead_tIsWrite : (s.undrivenRead).tIsWrite = s.tIsWrite := rfl
@[simp] theorem State.undrivenRead_tWdata : (s.undrivenRead).tWdata = s.tWdata := rfl
@[simp] theorem State.undrivenRead_tEntry : (s.undrivenRead).tEntry = s.tEntry := rfl
@[simp] theorem State.undrivenRead_tGated : (s.undrivenRead).tGated = s.tGated := rfl
@[simp] theorem State.undrivenRead_tOld : (s.undrivenRead).tOld = s.tOld := rfl
@[simp] theorem State.undrivenRead_enabled : (s.undrivenRead).enabled = s.enabled := rfl
@[simp] theorem State.undrivenRead_stopping : (s.undrivenRead).stopping = s.stopping := rfl
@[simp] theorem State.undrivenRead_fatal : (s.undrivenRead).fatal = s.fatal := rfl
@[simp] theorem State.undrivenRead_fatalCode : (s.undrivenRead).fatalCode = s.fatalCode := rfl
@[simp] theorem State.undrivenRead_flagVideo : (s.undrivenRead).flagVideo = s.flagVideo := rfl
@[simp] theorem State.undrivenRead_flagSound : (s.undrivenRead).flagSound = s.flagSound := rfl
@[simp] theorem State.undrivenRead_hsLatched : (s.undrivenRead).hsLatched = s.hsLatched := rfl
@[simp] theorem State.undrivenRead_irqMasked : (s.undrivenRead).irqMasked = s.irqMasked := rfl
@[simp] theorem State.undrivenRead_marker : (s.undrivenRead).marker = s.marker := rfl
@[simp] theorem State.undrivenRead_consumerRd : (s.undrivenRead).consumerRd = s.consumerRd := rfl
@[simp] theorem State.undrivenRead_handler : (s.undrivenRead).handler = s.handler := rfl
@[simp] theorem State.undrivenRead_fg : (s.undrivenRead).fg = s.fg := rfl
@[simp] theorem State.undrivenRead_irq : (s.undrivenRead).irq = s.irq := rfl
@[simp] theorem State.undrivenRead_bus : (s.undrivenRead).bus = s.bus := rfl
@[simp] theorem State.undrivenRead_extData : (s.undrivenRead).extData = Config.freeByte s.draws := rfl
@[simp] theorem State.undrivenRead_resourcesOk : (s.undrivenRead).resourcesOk = s.resourcesOk := rfl
@[simp] theorem State.undrivenRead_schedule : (s.undrivenRead).schedule = s.schedule := rfl
@[simp] theorem State.undrivenRead_draws : (s.undrivenRead).draws = s.draws + 1 := rfl
@[simp] theorem State.undrivenRead_boots : (s.undrivenRead).boots = s.boots := rfl

/-! ## The handler moves on -/

@[simp] theorem State.goto_v (pt : DrainPoint) : (s.goto pt).v = s.v := rfl
@[simp] theorem State.goto_p (pt : DrainPoint) : (s.goto pt).p = s.p := rfl
@[simp] theorem State.goto_slots (pt : DrainPoint) : (s.goto pt).slots = s.slots := rfl
@[simp] theorem State.goto_wr (pt : DrainPoint) : (s.goto pt).wr = s.wr := rfl
@[simp] theorem State.goto_rd (pt : DrainPoint) : (s.goto pt).rd = s.rd := rfl
@[simp] theorem State.goto_phase (pt : DrainPoint) : (s.goto pt).phase = s.phase := rfl
@[simp] theorem State.goto_tAddr (pt : DrainPoint) : (s.goto pt).tAddr = s.tAddr := rfl
@[simp] theorem State.goto_tIsWrite (pt : DrainPoint) : (s.goto pt).tIsWrite = s.tIsWrite := rfl
@[simp] theorem State.goto_tWdata (pt : DrainPoint) : (s.goto pt).tWdata = s.tWdata := rfl
@[simp] theorem State.goto_tEntry (pt : DrainPoint) : (s.goto pt).tEntry = s.tEntry := rfl
@[simp] theorem State.goto_tGated (pt : DrainPoint) : (s.goto pt).tGated = s.tGated := rfl
@[simp] theorem State.goto_tOld (pt : DrainPoint) : (s.goto pt).tOld = s.tOld := rfl
@[simp] theorem State.goto_enabled (pt : DrainPoint) : (s.goto pt).enabled = s.enabled := rfl
@[simp] theorem State.goto_stopping (pt : DrainPoint) : (s.goto pt).stopping = s.stopping := rfl
@[simp] theorem State.goto_fatal (pt : DrainPoint) : (s.goto pt).fatal = s.fatal := rfl
@[simp] theorem State.goto_fatalCode (pt : DrainPoint) : (s.goto pt).fatalCode = s.fatalCode := rfl
@[simp] theorem State.goto_flagVideo (pt : DrainPoint) : (s.goto pt).flagVideo = s.flagVideo := rfl
@[simp] theorem State.goto_flagSound (pt : DrainPoint) : (s.goto pt).flagSound = s.flagSound := rfl
@[simp] theorem State.goto_hsLatched (pt : DrainPoint) : (s.goto pt).hsLatched = s.hsLatched := rfl
@[simp] theorem State.goto_irqMasked (pt : DrainPoint) : (s.goto pt).irqMasked = s.irqMasked := rfl
@[simp] theorem State.goto_marker (pt : DrainPoint) : (s.goto pt).marker = s.marker := rfl
@[simp] theorem State.goto_consumerRd (pt : DrainPoint) : (s.goto pt).consumerRd = s.consumerRd := rfl
@[simp] theorem State.goto_handler (pt : DrainPoint) : (s.goto pt).handler = .drain pt := rfl
@[simp] theorem State.goto_fg (pt : DrainPoint) : (s.goto pt).fg = s.fg := rfl
@[simp] theorem State.goto_irq (pt : DrainPoint) : (s.goto pt).irq = s.irq := rfl
@[simp] theorem State.goto_bus (pt : DrainPoint) : (s.goto pt).bus = s.bus := rfl
@[simp] theorem State.goto_extData (pt : DrainPoint) : (s.goto pt).extData = s.extData := rfl
@[simp] theorem State.goto_resourcesOk (pt : DrainPoint) : (s.goto pt).resourcesOk = s.resourcesOk := rfl
@[simp] theorem State.goto_schedule (pt : DrainPoint) : (s.goto pt).schedule = s.schedule := rfl
@[simp] theorem State.goto_draws (pt : DrainPoint) : (s.goto pt).draws = s.draws := rfl
@[simp] theorem State.goto_boots (pt : DrainPoint) : (s.goto pt).boots = s.boots := rfl

/-! ## The handler returns -/

@[simp] theorem State.leaveHandler_v : (s.leaveHandler).v = s.v := rfl
@[simp] theorem State.leaveHandler_p : (s.leaveHandler).p = s.p := rfl
@[simp] theorem State.leaveHandler_slots : (s.leaveHandler).slots = s.slots := rfl
@[simp] theorem State.leaveHandler_wr : (s.leaveHandler).wr = s.wr := rfl
@[simp] theorem State.leaveHandler_rd : (s.leaveHandler).rd = s.rd := rfl
@[simp] theorem State.leaveHandler_phase : (s.leaveHandler).phase = s.phase := rfl
@[simp] theorem State.leaveHandler_tAddr : (s.leaveHandler).tAddr = s.tAddr := rfl
@[simp] theorem State.leaveHandler_tIsWrite : (s.leaveHandler).tIsWrite = s.tIsWrite := rfl
@[simp] theorem State.leaveHandler_tWdata : (s.leaveHandler).tWdata = s.tWdata := rfl
@[simp] theorem State.leaveHandler_tEntry : (s.leaveHandler).tEntry = s.tEntry := rfl
@[simp] theorem State.leaveHandler_tGated : (s.leaveHandler).tGated = s.tGated := rfl
@[simp] theorem State.leaveHandler_tOld : (s.leaveHandler).tOld = s.tOld := rfl
@[simp] theorem State.leaveHandler_enabled : (s.leaveHandler).enabled = s.enabled := rfl
@[simp] theorem State.leaveHandler_stopping : (s.leaveHandler).stopping = s.stopping := rfl
@[simp] theorem State.leaveHandler_fatal : (s.leaveHandler).fatal = s.fatal := rfl
@[simp] theorem State.leaveHandler_fatalCode : (s.leaveHandler).fatalCode = s.fatalCode := rfl
@[simp] theorem State.leaveHandler_flagVideo : (s.leaveHandler).flagVideo = s.flagVideo := rfl
@[simp] theorem State.leaveHandler_flagSound : (s.leaveHandler).flagSound = s.flagSound := rfl
@[simp] theorem State.leaveHandler_hsLatched : (s.leaveHandler).hsLatched = s.hsLatched := rfl
@[simp] theorem State.leaveHandler_irqMasked : (s.leaveHandler).irqMasked = s.irqMasked := rfl
@[simp] theorem State.leaveHandler_marker : (s.leaveHandler).marker = s.marker := rfl
@[simp] theorem State.leaveHandler_consumerRd : (s.leaveHandler).consumerRd = s.consumerRd := rfl
@[simp] theorem State.leaveHandler_handler : (s.leaveHandler).handler = .off := rfl
@[simp] theorem State.leaveHandler_fg : (s.leaveHandler).fg = s.fg := rfl
@[simp] theorem State.leaveHandler_irq : (s.leaveHandler).irq = s.irq := rfl
@[simp] theorem State.leaveHandler_bus : (s.leaveHandler).bus = s.bus := rfl
@[simp] theorem State.leaveHandler_extData : (s.leaveHandler).extData = s.extData := rfl
@[simp] theorem State.leaveHandler_resourcesOk : (s.leaveHandler).resourcesOk = s.resourcesOk := rfl
@[simp] theorem State.leaveHandler_schedule : (s.leaveHandler).schedule = s.schedule := rfl
@[simp] theorem State.leaveHandler_draws : (s.leaveHandler).draws = s.draws := rfl
@[simp] theorem State.leaveHandler_boots : (s.leaveHandler).boots = s.boots := rfl

/-! ## INIT, the block -/

@[simp] theorem initBlock_v : (initBlock s).v = s.v := rfl
@[simp] theorem initBlock_p : (initBlock s).p = s.p := rfl
@[simp] theorem initBlock_slots : (initBlock s).slots = s.slots := rfl
@[simp] theorem initBlock_wr : (initBlock s).wr = 0 := rfl
@[simp] theorem initBlock_rd : (initBlock s).rd = 0 := rfl
@[simp] theorem initBlock_phase : (initBlock s).phase = .idle := rfl
@[simp] theorem initBlock_tAddr : (initBlock s).tAddr = s.tAddr := rfl
@[simp] theorem initBlock_tIsWrite : (initBlock s).tIsWrite = s.tIsWrite := rfl
@[simp] theorem initBlock_tWdata : (initBlock s).tWdata = s.tWdata := rfl
@[simp] theorem initBlock_tEntry : (initBlock s).tEntry = s.tEntry := rfl
@[simp] theorem initBlock_tGated : (initBlock s).tGated = false := rfl
@[simp] theorem initBlock_tOld : (initBlock s).tOld = s.tOld := rfl
@[simp] theorem initBlock_enabled : (initBlock s).enabled = true := rfl
@[simp] theorem initBlock_stopping : (initBlock s).stopping = false := rfl
@[simp] theorem initBlock_fatal : (initBlock s).fatal = s.fatal := rfl
@[simp] theorem initBlock_fatalCode : (initBlock s).fatalCode = s.fatalCode := rfl
@[simp] theorem initBlock_flagVideo : (initBlock s).flagVideo = s.flagVideo := rfl
@[simp] theorem initBlock_flagSound : (initBlock s).flagSound = s.flagSound := rfl
@[simp] theorem initBlock_hsLatched : (initBlock s).hsLatched = s.hsLatched := rfl
@[simp] theorem initBlock_irqMasked : (initBlock s).irqMasked = s.irqMasked := rfl
@[simp] theorem initBlock_marker : (initBlock s).marker = s.marker := rfl
@[simp] theorem initBlock_consumerRd : (initBlock s).consumerRd = s.consumerRd := rfl
@[simp] theorem initBlock_handler : (initBlock s).handler = s.handler := rfl
@[simp] theorem initBlock_fg : (initBlock s).fg = s.fg := rfl
@[simp] theorem initBlock_irq : (initBlock s).irq = s.irq := rfl
@[simp] theorem initBlock_bus : (initBlock s).bus = s.bus := rfl
@[simp] theorem initBlock_extData : (initBlock s).extData = s.extData := rfl
@[simp] theorem initBlock_resourcesOk : (initBlock s).resourcesOk = s.resourcesOk := rfl
@[simp] theorem initBlock_schedule : (initBlock s).schedule = s.schedule := rfl
@[simp] theorem initBlock_draws : (initBlock s).draws = s.draws := rfl
@[simp] theorem initBlock_boots : (initBlock s).boots = s.boots := rfl

/-! ## INIT, the consumer -/

@[simp] theorem initConsumer_v : (initConsumer s).v = s.v := rfl
@[simp] theorem initConsumer_p : (initConsumer s).p = s.p := rfl
@[simp] theorem initConsumer_slots : (initConsumer s).slots = s.slots := rfl
@[simp] theorem initConsumer_wr : (initConsumer s).wr = s.wr := rfl
@[simp] theorem initConsumer_rd : (initConsumer s).rd = s.rd := rfl
@[simp] theorem initConsumer_phase : (initConsumer s).phase = s.phase := rfl
@[simp] theorem initConsumer_tAddr : (initConsumer s).tAddr = s.tAddr := rfl
@[simp] theorem initConsumer_tIsWrite : (initConsumer s).tIsWrite = s.tIsWrite := rfl
@[simp] theorem initConsumer_tWdata : (initConsumer s).tWdata = s.tWdata := rfl
@[simp] theorem initConsumer_tEntry : (initConsumer s).tEntry = s.tEntry := rfl
@[simp] theorem initConsumer_tGated : (initConsumer s).tGated = s.tGated := rfl
@[simp] theorem initConsumer_tOld : (initConsumer s).tOld = s.tOld := rfl
@[simp] theorem initConsumer_enabled : (initConsumer s).enabled = s.enabled := rfl
@[simp] theorem initConsumer_stopping : (initConsumer s).stopping = s.stopping := rfl
@[simp] theorem initConsumer_fatal : (initConsumer s).fatal = s.fatal := rfl
@[simp] theorem initConsumer_fatalCode : (initConsumer s).fatalCode = s.fatalCode := rfl
@[simp] theorem initConsumer_flagVideo : (initConsumer s).flagVideo = false := rfl
@[simp] theorem initConsumer_flagSound : (initConsumer s).flagSound = false := rfl
@[simp] theorem initConsumer_hsLatched : (initConsumer s).hsLatched = (s.marker == .magic) := rfl
@[simp] theorem initConsumer_irqMasked : (initConsumer s).irqMasked = false := rfl
@[simp] theorem initConsumer_marker : (initConsumer s).marker = s.marker := rfl
@[simp] theorem initConsumer_consumerRd : (initConsumer s).consumerRd = 0 := rfl
@[simp] theorem initConsumer_handler : (initConsumer s).handler = s.handler := rfl
@[simp] theorem initConsumer_fg : (initConsumer s).fg = s.fg := rfl
@[simp] theorem initConsumer_irq : (initConsumer s).irq = s.irq := rfl
@[simp] theorem initConsumer_bus : (initConsumer s).bus = s.bus := rfl
@[simp] theorem initConsumer_extData : (initConsumer s).extData = s.extData := rfl
@[simp] theorem initConsumer_resourcesOk : (initConsumer s).resourcesOk = s.resourcesOk := rfl
@[simp] theorem initConsumer_schedule : (initConsumer s).schedule = s.schedule := rfl
@[simp] theorem initConsumer_draws : (initConsumer s).draws = s.draws := rfl
@[simp] theorem initConsumer_boots : (initConsumer s).boots = s.boots := rfl

/-! ## A change at the running context's port -/

@[simp] theorem State.modifyPort_v (f : Port → Port) : (s.modifyPort f).v = s.v := by unfold State.modifyPort; split <;> rfl
@[simp] theorem State.modifyPort_p (f : Port → Port) : (s.modifyPort f).p = s.p := by unfold State.modifyPort; split <;> rfl
@[simp] theorem State.modifyPort_slots (f : Port → Port) : (s.modifyPort f).slots = s.slots := by unfold State.modifyPort; split <;> rfl
@[simp] theorem State.modifyPort_wr (f : Port → Port) : (s.modifyPort f).wr = s.wr := by unfold State.modifyPort; split <;> rfl
@[simp] theorem State.modifyPort_rd (f : Port → Port) : (s.modifyPort f).rd = s.rd := by unfold State.modifyPort; split <;> rfl
@[simp] theorem State.modifyPort_phase (f : Port → Port) : (s.modifyPort f).phase = s.phase := by unfold State.modifyPort; split <;> rfl
@[simp] theorem State.modifyPort_tAddr (f : Port → Port) : (s.modifyPort f).tAddr = s.tAddr := by unfold State.modifyPort; split <;> rfl
@[simp] theorem State.modifyPort_tIsWrite (f : Port → Port) : (s.modifyPort f).tIsWrite = s.tIsWrite := by unfold State.modifyPort; split <;> rfl
@[simp] theorem State.modifyPort_tWdata (f : Port → Port) : (s.modifyPort f).tWdata = s.tWdata := by unfold State.modifyPort; split <;> rfl
@[simp] theorem State.modifyPort_tEntry (f : Port → Port) : (s.modifyPort f).tEntry = s.tEntry := by unfold State.modifyPort; split <;> rfl
@[simp] theorem State.modifyPort_tGated (f : Port → Port) : (s.modifyPort f).tGated = s.tGated := by unfold State.modifyPort; split <;> rfl
@[simp] theorem State.modifyPort_tOld (f : Port → Port) : (s.modifyPort f).tOld = s.tOld := by unfold State.modifyPort; split <;> rfl
@[simp] theorem State.modifyPort_enabled (f : Port → Port) : (s.modifyPort f).enabled = s.enabled := by unfold State.modifyPort; split <;> rfl
@[simp] theorem State.modifyPort_stopping (f : Port → Port) : (s.modifyPort f).stopping = s.stopping := by unfold State.modifyPort; split <;> rfl
@[simp] theorem State.modifyPort_fatal (f : Port → Port) : (s.modifyPort f).fatal = s.fatal := by unfold State.modifyPort; split <;> rfl
@[simp] theorem State.modifyPort_fatalCode (f : Port → Port) : (s.modifyPort f).fatalCode = s.fatalCode := by unfold State.modifyPort; split <;> rfl
@[simp] theorem State.modifyPort_flagVideo (f : Port → Port) : (s.modifyPort f).flagVideo = s.flagVideo := by unfold State.modifyPort; split <;> rfl
@[simp] theorem State.modifyPort_flagSound (f : Port → Port) : (s.modifyPort f).flagSound = s.flagSound := by unfold State.modifyPort; split <;> rfl
@[simp] theorem State.modifyPort_hsLatched (f : Port → Port) : (s.modifyPort f).hsLatched = s.hsLatched := by unfold State.modifyPort; split <;> rfl
@[simp] theorem State.modifyPort_irqMasked (f : Port → Port) : (s.modifyPort f).irqMasked = s.irqMasked := by unfold State.modifyPort; split <;> rfl
@[simp] theorem State.modifyPort_marker (f : Port → Port) : (s.modifyPort f).marker = s.marker := by unfold State.modifyPort; split <;> rfl
@[simp] theorem State.modifyPort_consumerRd (f : Port → Port) : (s.modifyPort f).consumerRd = s.consumerRd := by unfold State.modifyPort; split <;> rfl
@[simp] theorem State.modifyPort_handler (f : Port → Port) : (s.modifyPort f).handler = s.handler := by unfold State.modifyPort; split <;> rfl
@[simp] theorem State.modifyPort_bus (f : Port → Port) : (s.modifyPort f).bus = s.bus := by unfold State.modifyPort; split <;> rfl
@[simp] theorem State.modifyPort_extData (f : Port → Port) : (s.modifyPort f).extData = s.extData := by unfold State.modifyPort; split <;> rfl
@[simp] theorem State.modifyPort_resourcesOk (f : Port → Port) : (s.modifyPort f).resourcesOk = s.resourcesOk := by unfold State.modifyPort; split <;> rfl
@[simp] theorem State.modifyPort_schedule (f : Port → Port) : (s.modifyPort f).schedule = s.schedule := by unfold State.modifyPort; split <;> rfl
@[simp] theorem State.modifyPort_draws (f : Port → Port) : (s.modifyPort f).draws = s.draws := by unfold State.modifyPort; split <;> rfl
@[simp] theorem State.modifyPort_boots (f : Port → Port) : (s.modifyPort f).boots = s.boots := by unfold State.modifyPort; split <;> rfl

/-! ## A command completes -/

@[simp] theorem State.finish_v (r : Result) : (s.finish r).v = s.v := s.modifyPort_v _
@[simp] theorem State.finish_p (r : Result) : (s.finish r).p = s.p := s.modifyPort_p _
@[simp] theorem State.finish_slots (r : Result) : (s.finish r).slots = s.slots := s.modifyPort_slots _
@[simp] theorem State.finish_wr (r : Result) : (s.finish r).wr = s.wr := s.modifyPort_wr _
@[simp] theorem State.finish_rd (r : Result) : (s.finish r).rd = s.rd := s.modifyPort_rd _
@[simp] theorem State.finish_phase (r : Result) : (s.finish r).phase = s.phase := s.modifyPort_phase _
@[simp] theorem State.finish_tAddr (r : Result) : (s.finish r).tAddr = s.tAddr := s.modifyPort_tAddr _
@[simp] theorem State.finish_tIsWrite (r : Result) : (s.finish r).tIsWrite = s.tIsWrite := s.modifyPort_tIsWrite _
@[simp] theorem State.finish_tWdata (r : Result) : (s.finish r).tWdata = s.tWdata := s.modifyPort_tWdata _
@[simp] theorem State.finish_tEntry (r : Result) : (s.finish r).tEntry = s.tEntry := s.modifyPort_tEntry _
@[simp] theorem State.finish_tGated (r : Result) : (s.finish r).tGated = s.tGated := s.modifyPort_tGated _
@[simp] theorem State.finish_tOld (r : Result) : (s.finish r).tOld = s.tOld := s.modifyPort_tOld _
@[simp] theorem State.finish_enabled (r : Result) : (s.finish r).enabled = s.enabled := s.modifyPort_enabled _
@[simp] theorem State.finish_stopping (r : Result) : (s.finish r).stopping = s.stopping := s.modifyPort_stopping _
@[simp] theorem State.finish_fatal (r : Result) : (s.finish r).fatal = s.fatal := s.modifyPort_fatal _
@[simp] theorem State.finish_fatalCode (r : Result) : (s.finish r).fatalCode = s.fatalCode := s.modifyPort_fatalCode _
@[simp] theorem State.finish_flagVideo (r : Result) : (s.finish r).flagVideo = s.flagVideo := s.modifyPort_flagVideo _
@[simp] theorem State.finish_flagSound (r : Result) : (s.finish r).flagSound = s.flagSound := s.modifyPort_flagSound _
@[simp] theorem State.finish_hsLatched (r : Result) : (s.finish r).hsLatched = s.hsLatched := s.modifyPort_hsLatched _
@[simp] theorem State.finish_irqMasked (r : Result) : (s.finish r).irqMasked = s.irqMasked := s.modifyPort_irqMasked _
@[simp] theorem State.finish_marker (r : Result) : (s.finish r).marker = s.marker := s.modifyPort_marker _
@[simp] theorem State.finish_consumerRd (r : Result) : (s.finish r).consumerRd = s.consumerRd := s.modifyPort_consumerRd _
@[simp] theorem State.finish_handler (r : Result) : (s.finish r).handler = s.handler := s.modifyPort_handler _
@[simp] theorem State.finish_bus (r : Result) : (s.finish r).bus = s.bus := s.modifyPort_bus _
@[simp] theorem State.finish_extData (r : Result) : (s.finish r).extData = s.extData := s.modifyPort_extData _
@[simp] theorem State.finish_resourcesOk (r : Result) : (s.finish r).resourcesOk = s.resourcesOk := s.modifyPort_resourcesOk _
@[simp] theorem State.finish_schedule (r : Result) : (s.finish r).schedule = s.schedule := s.modifyPort_schedule _
@[simp] theorem State.finish_draws (r : Result) : (s.finish r).draws = s.draws := s.modifyPort_draws _
@[simp] theorem State.finish_boots (r : Result) : (s.finish r).boots = s.boots := s.modifyPort_boots _

/-! ## A command goes on -/

@[simp] theorem State.suspend_v (p : Pending) : (s.suspend p).v = s.v := s.modifyPort_v _
@[simp] theorem State.suspend_p (p : Pending) : (s.suspend p).p = s.p := s.modifyPort_p _
@[simp] theorem State.suspend_slots (p : Pending) : (s.suspend p).slots = s.slots := s.modifyPort_slots _
@[simp] theorem State.suspend_wr (p : Pending) : (s.suspend p).wr = s.wr := s.modifyPort_wr _
@[simp] theorem State.suspend_rd (p : Pending) : (s.suspend p).rd = s.rd := s.modifyPort_rd _
@[simp] theorem State.suspend_phase (p : Pending) : (s.suspend p).phase = s.phase := s.modifyPort_phase _
@[simp] theorem State.suspend_tAddr (p : Pending) : (s.suspend p).tAddr = s.tAddr := s.modifyPort_tAddr _
@[simp] theorem State.suspend_tIsWrite (p : Pending) : (s.suspend p).tIsWrite = s.tIsWrite := s.modifyPort_tIsWrite _
@[simp] theorem State.suspend_tWdata (p : Pending) : (s.suspend p).tWdata = s.tWdata := s.modifyPort_tWdata _
@[simp] theorem State.suspend_tEntry (p : Pending) : (s.suspend p).tEntry = s.tEntry := s.modifyPort_tEntry _
@[simp] theorem State.suspend_tGated (p : Pending) : (s.suspend p).tGated = s.tGated := s.modifyPort_tGated _
@[simp] theorem State.suspend_tOld (p : Pending) : (s.suspend p).tOld = s.tOld := s.modifyPort_tOld _
@[simp] theorem State.suspend_enabled (p : Pending) : (s.suspend p).enabled = s.enabled := s.modifyPort_enabled _
@[simp] theorem State.suspend_stopping (p : Pending) : (s.suspend p).stopping = s.stopping := s.modifyPort_stopping _
@[simp] theorem State.suspend_fatal (p : Pending) : (s.suspend p).fatal = s.fatal := s.modifyPort_fatal _
@[simp] theorem State.suspend_fatalCode (p : Pending) : (s.suspend p).fatalCode = s.fatalCode := s.modifyPort_fatalCode _
@[simp] theorem State.suspend_flagVideo (p : Pending) : (s.suspend p).flagVideo = s.flagVideo := s.modifyPort_flagVideo _
@[simp] theorem State.suspend_flagSound (p : Pending) : (s.suspend p).flagSound = s.flagSound := s.modifyPort_flagSound _
@[simp] theorem State.suspend_hsLatched (p : Pending) : (s.suspend p).hsLatched = s.hsLatched := s.modifyPort_hsLatched _
@[simp] theorem State.suspend_irqMasked (p : Pending) : (s.suspend p).irqMasked = s.irqMasked := s.modifyPort_irqMasked _
@[simp] theorem State.suspend_marker (p : Pending) : (s.suspend p).marker = s.marker := s.modifyPort_marker _
@[simp] theorem State.suspend_consumerRd (p : Pending) : (s.suspend p).consumerRd = s.consumerRd := s.modifyPort_consumerRd _
@[simp] theorem State.suspend_handler (p : Pending) : (s.suspend p).handler = s.handler := s.modifyPort_handler _
@[simp] theorem State.suspend_bus (p : Pending) : (s.suspend p).bus = s.bus := s.modifyPort_bus _
@[simp] theorem State.suspend_extData (p : Pending) : (s.suspend p).extData = s.extData := s.modifyPort_extData _
@[simp] theorem State.suspend_resourcesOk (p : Pending) : (s.suspend p).resourcesOk = s.resourcesOk := s.modifyPort_resourcesOk _
@[simp] theorem State.suspend_schedule (p : Pending) : (s.suspend p).schedule = s.schedule := s.modifyPort_schedule _
@[simp] theorem State.suspend_draws (p : Pending) : (s.suspend p).draws = s.draws := s.modifyPort_draws _
@[simp] theorem State.suspend_boots (p : Pending) : (s.suspend p).boots = s.boots := s.modifyPort_boots _

/-! ## A Port B read -/

@[simp] theorem State.afterPortBRead_v (a : Nat) : (s.afterPortBRead a).v = s.v := by unfold State.afterPortBRead; split <;> rfl
@[simp] theorem State.afterPortBRead_p (a : Nat) : (s.afterPortBRead a).p = s.p := by unfold State.afterPortBRead; split <;> rfl
@[simp] theorem State.afterPortBRead_slots (a : Nat) : (s.afterPortBRead a).slots = s.slots := by unfold State.afterPortBRead; split <;> rfl
@[simp] theorem State.afterPortBRead_wr (a : Nat) : (s.afterPortBRead a).wr = s.wr := by unfold State.afterPortBRead; split <;> rfl
@[simp] theorem State.afterPortBRead_rd (a : Nat) : (s.afterPortBRead a).rd = s.rd := by unfold State.afterPortBRead; split <;> rfl
@[simp] theorem State.afterPortBRead_phase (a : Nat) : (s.afterPortBRead a).phase = s.phase := by unfold State.afterPortBRead; split <;> rfl
@[simp] theorem State.afterPortBRead_tAddr (a : Nat) : (s.afterPortBRead a).tAddr = s.tAddr := by unfold State.afterPortBRead; split <;> rfl
@[simp] theorem State.afterPortBRead_tIsWrite (a : Nat) : (s.afterPortBRead a).tIsWrite = s.tIsWrite := by unfold State.afterPortBRead; split <;> rfl
@[simp] theorem State.afterPortBRead_tWdata (a : Nat) : (s.afterPortBRead a).tWdata = s.tWdata := by unfold State.afterPortBRead; split <;> rfl
@[simp] theorem State.afterPortBRead_tEntry (a : Nat) : (s.afterPortBRead a).tEntry = s.tEntry := by unfold State.afterPortBRead; split <;> rfl
@[simp] theorem State.afterPortBRead_tGated (a : Nat) : (s.afterPortBRead a).tGated = s.tGated := by unfold State.afterPortBRead; split <;> rfl
@[simp] theorem State.afterPortBRead_tOld (a : Nat) : (s.afterPortBRead a).tOld = s.tOld := by unfold State.afterPortBRead; split <;> rfl
@[simp] theorem State.afterPortBRead_enabled (a : Nat) : (s.afterPortBRead a).enabled = s.enabled := by unfold State.afterPortBRead; split <;> rfl
@[simp] theorem State.afterPortBRead_stopping (a : Nat) : (s.afterPortBRead a).stopping = s.stopping := by unfold State.afterPortBRead; split <;> rfl
@[simp] theorem State.afterPortBRead_fatal (a : Nat) : (s.afterPortBRead a).fatal = s.fatal := by unfold State.afterPortBRead; split <;> rfl
@[simp] theorem State.afterPortBRead_fatalCode (a : Nat) : (s.afterPortBRead a).fatalCode = s.fatalCode := by unfold State.afterPortBRead; split <;> rfl
@[simp] theorem State.afterPortBRead_flagVideo (a : Nat) : (s.afterPortBRead a).flagVideo = s.flagVideo := by unfold State.afterPortBRead; split <;> rfl
@[simp] theorem State.afterPortBRead_flagSound (a : Nat) : (s.afterPortBRead a).flagSound = s.flagSound := by unfold State.afterPortBRead; split <;> rfl
@[simp] theorem State.afterPortBRead_hsLatched (a : Nat) : (s.afterPortBRead a).hsLatched = s.hsLatched := by unfold State.afterPortBRead; split <;> rfl
@[simp] theorem State.afterPortBRead_irqMasked (a : Nat) : (s.afterPortBRead a).irqMasked = s.irqMasked := by unfold State.afterPortBRead; split <;> rfl
@[simp] theorem State.afterPortBRead_marker (a : Nat) : (s.afterPortBRead a).marker = s.marker := by unfold State.afterPortBRead; split <;> rfl
@[simp] theorem State.afterPortBRead_consumerRd (a : Nat) : (s.afterPortBRead a).consumerRd = s.consumerRd := by unfold State.afterPortBRead; split <;> rfl
@[simp] theorem State.afterPortBRead_handler (a : Nat) : (s.afterPortBRead a).handler = s.handler := by unfold State.afterPortBRead; split <;> rfl
@[simp] theorem State.afterPortBRead_fg (a : Nat) : (s.afterPortBRead a).fg = s.fg := by unfold State.afterPortBRead; split <;> rfl
@[simp] theorem State.afterPortBRead_irq (a : Nat) : (s.afterPortBRead a).irq = s.irq := by unfold State.afterPortBRead; split <;> rfl
@[simp] theorem State.afterPortBRead_bus (a : Nat) : (s.afterPortBRead a).bus = s.bus := by unfold State.afterPortBRead; split <;> rfl
@[simp] theorem State.afterPortBRead_extData (a : Nat) : (s.afterPortBRead a).extData = s.extData := by unfold State.afterPortBRead; split <;> rfl
@[simp] theorem State.afterPortBRead_resourcesOk (a : Nat) : (s.afterPortBRead a).resourcesOk = s.resourcesOk := by unfold State.afterPortBRead; split <;> rfl
@[simp] theorem State.afterPortBRead_schedule (a : Nat) : (s.afterPortBRead a).schedule = s.schedule := by unfold State.afterPortBRead; split <;> rfl
@[simp] theorem State.afterPortBRead_boots (a : Nat) : (s.afterPortBRead a).boots = s.boots := by unfold State.afterPortBRead; split <;> rfl

/-! ## A sticky flag cleared, a sticky flag set -/

@[simp] theorem State.clearFlag_v (id : Byte) : (s.clearFlag id).v = s.v := by unfold State.clearFlag; split_ifs <;> rfl
@[simp] theorem State.clearFlag_p (id : Byte) : (s.clearFlag id).p = s.p := by unfold State.clearFlag; split_ifs <;> rfl
@[simp] theorem State.clearFlag_slots (id : Byte) : (s.clearFlag id).slots = s.slots := by unfold State.clearFlag; split_ifs <;> rfl
@[simp] theorem State.clearFlag_wr (id : Byte) : (s.clearFlag id).wr = s.wr := by unfold State.clearFlag; split_ifs <;> rfl
@[simp] theorem State.clearFlag_rd (id : Byte) : (s.clearFlag id).rd = s.rd := by unfold State.clearFlag; split_ifs <;> rfl
@[simp] theorem State.clearFlag_phase (id : Byte) : (s.clearFlag id).phase = s.phase := by unfold State.clearFlag; split_ifs <;> rfl
@[simp] theorem State.clearFlag_tAddr (id : Byte) : (s.clearFlag id).tAddr = s.tAddr := by unfold State.clearFlag; split_ifs <;> rfl
@[simp] theorem State.clearFlag_tIsWrite (id : Byte) : (s.clearFlag id).tIsWrite = s.tIsWrite := by unfold State.clearFlag; split_ifs <;> rfl
@[simp] theorem State.clearFlag_tWdata (id : Byte) : (s.clearFlag id).tWdata = s.tWdata := by unfold State.clearFlag; split_ifs <;> rfl
@[simp] theorem State.clearFlag_tEntry (id : Byte) : (s.clearFlag id).tEntry = s.tEntry := by unfold State.clearFlag; split_ifs <;> rfl
@[simp] theorem State.clearFlag_tGated (id : Byte) : (s.clearFlag id).tGated = s.tGated := by unfold State.clearFlag; split_ifs <;> rfl
@[simp] theorem State.clearFlag_tOld (id : Byte) : (s.clearFlag id).tOld = s.tOld := by unfold State.clearFlag; split_ifs <;> rfl
@[simp] theorem State.clearFlag_enabled (id : Byte) : (s.clearFlag id).enabled = s.enabled := by unfold State.clearFlag; split_ifs <;> rfl
@[simp] theorem State.clearFlag_stopping (id : Byte) : (s.clearFlag id).stopping = s.stopping := by unfold State.clearFlag; split_ifs <;> rfl
@[simp] theorem State.clearFlag_fatal (id : Byte) : (s.clearFlag id).fatal = s.fatal := by unfold State.clearFlag; split_ifs <;> rfl
@[simp] theorem State.clearFlag_fatalCode (id : Byte) : (s.clearFlag id).fatalCode = s.fatalCode := by unfold State.clearFlag; split_ifs <;> rfl
@[simp] theorem State.clearFlag_hsLatched (id : Byte) : (s.clearFlag id).hsLatched = s.hsLatched := by unfold State.clearFlag; split_ifs <;> rfl
@[simp] theorem State.clearFlag_irqMasked (id : Byte) : (s.clearFlag id).irqMasked = s.irqMasked := by unfold State.clearFlag; split_ifs <;> rfl
@[simp] theorem State.clearFlag_marker (id : Byte) : (s.clearFlag id).marker = s.marker := by unfold State.clearFlag; split_ifs <;> rfl
@[simp] theorem State.clearFlag_consumerRd (id : Byte) : (s.clearFlag id).consumerRd = s.consumerRd := by unfold State.clearFlag; split_ifs <;> rfl
@[simp] theorem State.clearFlag_handler (id : Byte) : (s.clearFlag id).handler = s.handler := by unfold State.clearFlag; split_ifs <;> rfl
@[simp] theorem State.clearFlag_fg (id : Byte) : (s.clearFlag id).fg = s.fg := by unfold State.clearFlag; split_ifs <;> rfl
@[simp] theorem State.clearFlag_irq (id : Byte) : (s.clearFlag id).irq = s.irq := by unfold State.clearFlag; split_ifs <;> rfl
@[simp] theorem State.clearFlag_bus (id : Byte) : (s.clearFlag id).bus = s.bus := by unfold State.clearFlag; split_ifs <;> rfl
@[simp] theorem State.clearFlag_extData (id : Byte) : (s.clearFlag id).extData = s.extData := by unfold State.clearFlag; split_ifs <;> rfl
@[simp] theorem State.clearFlag_resourcesOk (id : Byte) : (s.clearFlag id).resourcesOk = s.resourcesOk := by unfold State.clearFlag; split_ifs <;> rfl
@[simp] theorem State.clearFlag_schedule (id : Byte) : (s.clearFlag id).schedule = s.schedule := by unfold State.clearFlag; split_ifs <;> rfl
@[simp] theorem State.clearFlag_draws (id : Byte) : (s.clearFlag id).draws = s.draws := by unfold State.clearFlag; split_ifs <;> rfl
@[simp] theorem State.clearFlag_boots (id : Byte) : (s.clearFlag id).boots = s.boots := by unfold State.clearFlag; split_ifs <;> rfl
@[simp] theorem State.markWatched_v (r : Config.WatchRanges) (a : Address) : (s.markWatched r a).v = s.v := by unfold State.markWatched; split_ifs <;> rfl
@[simp] theorem State.markWatched_p (r : Config.WatchRanges) (a : Address) : (s.markWatched r a).p = s.p := by unfold State.markWatched; split_ifs <;> rfl
@[simp] theorem State.markWatched_slots (r : Config.WatchRanges) (a : Address) : (s.markWatched r a).slots = s.slots := by unfold State.markWatched; split_ifs <;> rfl
@[simp] theorem State.markWatched_wr (r : Config.WatchRanges) (a : Address) : (s.markWatched r a).wr = s.wr := by unfold State.markWatched; split_ifs <;> rfl
@[simp] theorem State.markWatched_rd (r : Config.WatchRanges) (a : Address) : (s.markWatched r a).rd = s.rd := by unfold State.markWatched; split_ifs <;> rfl
@[simp] theorem State.markWatched_phase (r : Config.WatchRanges) (a : Address) : (s.markWatched r a).phase = s.phase := by unfold State.markWatched; split_ifs <;> rfl
@[simp] theorem State.markWatched_tAddr (r : Config.WatchRanges) (a : Address) : (s.markWatched r a).tAddr = s.tAddr := by unfold State.markWatched; split_ifs <;> rfl
@[simp] theorem State.markWatched_tIsWrite (r : Config.WatchRanges) (a : Address) : (s.markWatched r a).tIsWrite = s.tIsWrite := by unfold State.markWatched; split_ifs <;> rfl
@[simp] theorem State.markWatched_tWdata (r : Config.WatchRanges) (a : Address) : (s.markWatched r a).tWdata = s.tWdata := by unfold State.markWatched; split_ifs <;> rfl
@[simp] theorem State.markWatched_tEntry (r : Config.WatchRanges) (a : Address) : (s.markWatched r a).tEntry = s.tEntry := by unfold State.markWatched; split_ifs <;> rfl
@[simp] theorem State.markWatched_tGated (r : Config.WatchRanges) (a : Address) : (s.markWatched r a).tGated = s.tGated := by unfold State.markWatched; split_ifs <;> rfl
@[simp] theorem State.markWatched_tOld (r : Config.WatchRanges) (a : Address) : (s.markWatched r a).tOld = s.tOld := by unfold State.markWatched; split_ifs <;> rfl
@[simp] theorem State.markWatched_enabled (r : Config.WatchRanges) (a : Address) : (s.markWatched r a).enabled = s.enabled := by unfold State.markWatched; split_ifs <;> rfl
@[simp] theorem State.markWatched_stopping (r : Config.WatchRanges) (a : Address) : (s.markWatched r a).stopping = s.stopping := by unfold State.markWatched; split_ifs <;> rfl
@[simp] theorem State.markWatched_fatal (r : Config.WatchRanges) (a : Address) : (s.markWatched r a).fatal = s.fatal := by unfold State.markWatched; split_ifs <;> rfl
@[simp] theorem State.markWatched_fatalCode (r : Config.WatchRanges) (a : Address) : (s.markWatched r a).fatalCode = s.fatalCode := by unfold State.markWatched; split_ifs <;> rfl
@[simp] theorem State.markWatched_hsLatched (r : Config.WatchRanges) (a : Address) : (s.markWatched r a).hsLatched = s.hsLatched := by unfold State.markWatched; split_ifs <;> rfl
@[simp] theorem State.markWatched_irqMasked (r : Config.WatchRanges) (a : Address) : (s.markWatched r a).irqMasked = s.irqMasked := by unfold State.markWatched; split_ifs <;> rfl
@[simp] theorem State.markWatched_marker (r : Config.WatchRanges) (a : Address) : (s.markWatched r a).marker = s.marker := by unfold State.markWatched; split_ifs <;> rfl
@[simp] theorem State.markWatched_consumerRd (r : Config.WatchRanges) (a : Address) : (s.markWatched r a).consumerRd = s.consumerRd := by unfold State.markWatched; split_ifs <;> rfl
@[simp] theorem State.markWatched_handler (r : Config.WatchRanges) (a : Address) : (s.markWatched r a).handler = s.handler := by unfold State.markWatched; split_ifs <;> rfl
@[simp] theorem State.markWatched_fg (r : Config.WatchRanges) (a : Address) : (s.markWatched r a).fg = s.fg := by unfold State.markWatched; split_ifs <;> rfl
@[simp] theorem State.markWatched_irq (r : Config.WatchRanges) (a : Address) : (s.markWatched r a).irq = s.irq := by unfold State.markWatched; split_ifs <;> rfl
@[simp] theorem State.markWatched_bus (r : Config.WatchRanges) (a : Address) : (s.markWatched r a).bus = s.bus := by unfold State.markWatched; split_ifs <;> rfl
@[simp] theorem State.markWatched_extData (r : Config.WatchRanges) (a : Address) : (s.markWatched r a).extData = s.extData := by unfold State.markWatched; split_ifs <;> rfl
@[simp] theorem State.markWatched_resourcesOk (r : Config.WatchRanges) (a : Address) : (s.markWatched r a).resourcesOk = s.resourcesOk := by unfold State.markWatched; split_ifs <;> rfl
@[simp] theorem State.markWatched_schedule (r : Config.WatchRanges) (a : Address) : (s.markWatched r a).schedule = s.schedule := by unfold State.markWatched; split_ifs <;> rfl
@[simp] theorem State.markWatched_draws (r : Config.WatchRanges) (a : Address) : (s.markWatched r a).draws = s.draws := by unfold State.markWatched; split_ifs <;> rfl
@[simp] theorem State.markWatched_boots (r : Config.WatchRanges) (a : Address) : (s.markWatched r a).boots = s.boots := by unfold State.markWatched; split_ifs <;> rfl

/-! ## After an element of a bulk operation -/

@[simp] theorem State.proceed_v (k : Nat) (p : Pending) (r : Result) : (s.proceed k p r).v = s.v := by unfold State.proceed; split_ifs <;> simp
@[simp] theorem State.proceed_p (k : Nat) (p : Pending) (r : Result) : (s.proceed k p r).p = s.p := by unfold State.proceed; split_ifs <;> simp
@[simp] theorem State.proceed_slots (k : Nat) (p : Pending) (r : Result) : (s.proceed k p r).slots = s.slots := by unfold State.proceed; split_ifs <;> simp
@[simp] theorem State.proceed_wr (k : Nat) (p : Pending) (r : Result) : (s.proceed k p r).wr = s.wr := by unfold State.proceed; split_ifs <;> simp
@[simp] theorem State.proceed_rd (k : Nat) (p : Pending) (r : Result) : (s.proceed k p r).rd = s.rd := by unfold State.proceed; split_ifs <;> simp
@[simp] theorem State.proceed_phase (k : Nat) (p : Pending) (r : Result) : (s.proceed k p r).phase = s.phase := by unfold State.proceed; split_ifs <;> simp
@[simp] theorem State.proceed_tAddr (k : Nat) (p : Pending) (r : Result) : (s.proceed k p r).tAddr = s.tAddr := by unfold State.proceed; split_ifs <;> simp
@[simp] theorem State.proceed_tIsWrite (k : Nat) (p : Pending) (r : Result) : (s.proceed k p r).tIsWrite = s.tIsWrite := by unfold State.proceed; split_ifs <;> simp
@[simp] theorem State.proceed_tWdata (k : Nat) (p : Pending) (r : Result) : (s.proceed k p r).tWdata = s.tWdata := by unfold State.proceed; split_ifs <;> simp
@[simp] theorem State.proceed_tEntry (k : Nat) (p : Pending) (r : Result) : (s.proceed k p r).tEntry = s.tEntry := by unfold State.proceed; split_ifs <;> simp
@[simp] theorem State.proceed_tGated (k : Nat) (p : Pending) (r : Result) : (s.proceed k p r).tGated = s.tGated := by unfold State.proceed; split_ifs <;> simp
@[simp] theorem State.proceed_tOld (k : Nat) (p : Pending) (r : Result) : (s.proceed k p r).tOld = s.tOld := by unfold State.proceed; split_ifs <;> simp
@[simp] theorem State.proceed_enabled (k : Nat) (p : Pending) (r : Result) : (s.proceed k p r).enabled = s.enabled := by unfold State.proceed; split_ifs <;> simp
@[simp] theorem State.proceed_stopping (k : Nat) (p : Pending) (r : Result) : (s.proceed k p r).stopping = s.stopping := by unfold State.proceed; split_ifs <;> simp
@[simp] theorem State.proceed_fatal (k : Nat) (p : Pending) (r : Result) : (s.proceed k p r).fatal = s.fatal := by unfold State.proceed; split_ifs <;> simp
@[simp] theorem State.proceed_fatalCode (k : Nat) (p : Pending) (r : Result) : (s.proceed k p r).fatalCode = s.fatalCode := by unfold State.proceed; split_ifs <;> simp
@[simp] theorem State.proceed_flagVideo (k : Nat) (p : Pending) (r : Result) : (s.proceed k p r).flagVideo = s.flagVideo := by unfold State.proceed; split_ifs <;> simp
@[simp] theorem State.proceed_flagSound (k : Nat) (p : Pending) (r : Result) : (s.proceed k p r).flagSound = s.flagSound := by unfold State.proceed; split_ifs <;> simp
@[simp] theorem State.proceed_hsLatched (k : Nat) (p : Pending) (r : Result) : (s.proceed k p r).hsLatched = s.hsLatched := by unfold State.proceed; split_ifs <;> simp
@[simp] theorem State.proceed_irqMasked (k : Nat) (p : Pending) (r : Result) : (s.proceed k p r).irqMasked = s.irqMasked := by unfold State.proceed; split_ifs <;> simp
@[simp] theorem State.proceed_marker (k : Nat) (p : Pending) (r : Result) : (s.proceed k p r).marker = s.marker := by unfold State.proceed; split_ifs <;> simp
@[simp] theorem State.proceed_consumerRd (k : Nat) (p : Pending) (r : Result) : (s.proceed k p r).consumerRd = s.consumerRd := by unfold State.proceed; split_ifs <;> simp
@[simp] theorem State.proceed_handler (k : Nat) (p : Pending) (r : Result) : (s.proceed k p r).handler = s.handler := by unfold State.proceed; split_ifs <;> simp
@[simp] theorem State.proceed_bus (k : Nat) (p : Pending) (r : Result) : (s.proceed k p r).bus = s.bus := by unfold State.proceed; split_ifs <;> simp
@[simp] theorem State.proceed_extData (k : Nat) (p : Pending) (r : Result) : (s.proceed k p r).extData = s.extData := by unfold State.proceed; split_ifs <;> simp
@[simp] theorem State.proceed_resourcesOk (k : Nat) (p : Pending) (r : Result) : (s.proceed k p r).resourcesOk = s.resourcesOk := by unfold State.proceed; split_ifs <;> simp
@[simp] theorem State.proceed_schedule (k : Nat) (p : Pending) (r : Result) : (s.proceed k p r).schedule = s.schedule := by unfold State.proceed; split_ifs <;> simp
@[simp] theorem State.proceed_draws (k : Nat) (p : Pending) (r : Result) : (s.proceed k p r).draws = s.draws := by unfold State.proceed; split_ifs <;> simp
@[simp] theorem State.proceed_boots (k : Nat) (p : Pending) (r : Result) : (s.proceed k p r).boots = s.boots := by unfold State.proceed; split_ifs <;> simp

/-! ## The steps of the pipeline -/

@[simp] theorem accept_v (a : Address) (w : Bool) (d : Byte) : (accept a w d s).v = s.v := rfl
@[simp] theorem accept_p (a : Address) (w : Bool) (d : Byte) : (accept a w d s).p = s.p := rfl
@[simp] theorem accept_slots (a : Address) (w : Bool) (d : Byte) : (accept a w d s).slots = s.slots := rfl
@[simp] theorem accept_wr (a : Address) (w : Bool) (d : Byte) : (accept a w d s).wr = s.wr := rfl
@[simp] theorem accept_rd (a : Address) (w : Bool) (d : Byte) : (accept a w d s).rd = s.rd := rfl
@[simp] theorem accept_phase (a : Address) (w : Bool) (d : Byte) : (accept a w d s).phase = .addressCaptured := rfl
@[simp] theorem accept_tAddr (a : Address) (w : Bool) (d : Byte) : (accept a w d s).tAddr = a := rfl
@[simp] theorem accept_tIsWrite (a : Address) (w : Bool) (d : Byte) : (accept a w d s).tIsWrite = w := rfl
@[simp] theorem accept_tWdata (a : Address) (w : Bool) (d : Byte) : (accept a w d s).tWdata = d := rfl
@[simp] theorem accept_tEntry (a : Address) (w : Bool) (d : Byte) : (accept a w d s).tEntry = s.tEntry := rfl
@[simp] theorem accept_tGated (a : Address) (w : Bool) (d : Byte) : (accept a w d s).tGated = false := rfl
@[simp] theorem accept_tOld (a : Address) (w : Bool) (d : Byte) : (accept a w d s).tOld = s.tOld := rfl
@[simp] theorem accept_enabled (a : Address) (w : Bool) (d : Byte) : (accept a w d s).enabled = s.enabled := rfl
@[simp] theorem accept_stopping (a : Address) (w : Bool) (d : Byte) : (accept a w d s).stopping = s.stopping := rfl
@[simp] theorem accept_fatal (a : Address) (w : Bool) (d : Byte) : (accept a w d s).fatal = s.fatal := rfl
@[simp] theorem accept_fatalCode (a : Address) (w : Bool) (d : Byte) : (accept a w d s).fatalCode = s.fatalCode := rfl
@[simp] theorem accept_flagVideo (a : Address) (w : Bool) (d : Byte) : (accept a w d s).flagVideo = s.flagVideo := rfl
@[simp] theorem accept_flagSound (a : Address) (w : Bool) (d : Byte) : (accept a w d s).flagSound = s.flagSound := rfl
@[simp] theorem accept_hsLatched (a : Address) (w : Bool) (d : Byte) : (accept a w d s).hsLatched = s.hsLatched := rfl
@[simp] theorem accept_irqMasked (a : Address) (w : Bool) (d : Byte) : (accept a w d s).irqMasked = s.irqMasked := rfl
@[simp] theorem accept_marker (a : Address) (w : Bool) (d : Byte) : (accept a w d s).marker = s.marker := rfl
@[simp] theorem accept_consumerRd (a : Address) (w : Bool) (d : Byte) : (accept a w d s).consumerRd = s.consumerRd := rfl
@[simp] theorem accept_handler (a : Address) (w : Bool) (d : Byte) : (accept a w d s).handler = s.handler := rfl
@[simp] theorem accept_fg (a : Address) (w : Bool) (d : Byte) : (accept a w d s).fg = s.fg := rfl
@[simp] theorem accept_irq (a : Address) (w : Bool) (d : Byte) : (accept a w d s).irq = s.irq := rfl
@[simp] theorem accept_bus (a : Address) (w : Bool) (d : Byte) : (accept a w d s).bus = s.bus := rfl
@[simp] theorem accept_extData (a : Address) (w : Bool) (d : Byte) : (accept a w d s).extData = s.extData := rfl
@[simp] theorem accept_resourcesOk (a : Address) (w : Bool) (d : Byte) : (accept a w d s).resourcesOk = s.resourcesOk := rfl
@[simp] theorem accept_schedule (a : Address) (w : Bool) (d : Byte) : (accept a w d s).schedule = s.schedule := rfl
@[simp] theorem accept_draws (a : Address) (w : Bool) (d : Byte) : (accept a w d s).draws = s.draws := rfl
@[simp] theorem accept_boots (a : Address) (w : Bool) (d : Byte) : (accept a w d s).boots = s.boots := rfl
@[simp] theorem lookup_v : (lookup s).v = s.v := by unfold lookup; simp only; split_ifs <;> rfl
@[simp] theorem lookup_p : (lookup s).p = s.p := by unfold lookup; simp only; split_ifs <;> rfl
@[simp] theorem lookup_slots : (lookup s).slots = s.slots := by unfold lookup; simp only; split_ifs <;> rfl
@[simp] theorem lookup_wr : (lookup s).wr = s.wr := by unfold lookup; simp only; split_ifs <;> rfl
@[simp] theorem lookup_rd : (lookup s).rd = s.rd := by unfold lookup; simp only; split_ifs <;> rfl
@[simp] theorem lookup_tAddr : (lookup s).tAddr = s.tAddr := by unfold lookup; simp only; split_ifs <;> rfl
@[simp] theorem lookup_tIsWrite : (lookup s).tIsWrite = s.tIsWrite := by unfold lookup; simp only; split_ifs <;> rfl
@[simp] theorem lookup_tWdata : (lookup s).tWdata = s.tWdata := by unfold lookup; simp only; split_ifs <;> rfl
@[simp] theorem lookup_tEntry : (lookup s).tEntry = s.entryAt s.tAddr.toNat := by unfold lookup; simp only; split_ifs <;> rfl
@[simp] theorem lookup_tOld : (lookup s).tOld = s.tOld := by unfold lookup; simp only; split_ifs <;> rfl
@[simp] theorem lookup_enabled : (lookup s).enabled = s.enabled := by unfold lookup; simp only; split_ifs <;> rfl
@[simp] theorem lookup_stopping : (lookup s).stopping = s.stopping := by unfold lookup; simp only; split_ifs <;> rfl
@[simp] theorem lookup_fatal : (lookup s).fatal = s.fatal := by unfold lookup; simp only; split_ifs <;> rfl
@[simp] theorem lookup_fatalCode : (lookup s).fatalCode = s.fatalCode := by unfold lookup; simp only; split_ifs <;> rfl
@[simp] theorem lookup_flagVideo : (lookup s).flagVideo = s.flagVideo := by unfold lookup; simp only; split_ifs <;> rfl
@[simp] theorem lookup_flagSound : (lookup s).flagSound = s.flagSound := by unfold lookup; simp only; split_ifs <;> rfl
@[simp] theorem lookup_hsLatched : (lookup s).hsLatched = s.hsLatched := by unfold lookup; simp only; split_ifs <;> rfl
@[simp] theorem lookup_irqMasked : (lookup s).irqMasked = s.irqMasked := by unfold lookup; simp only; split_ifs <;> rfl
@[simp] theorem lookup_marker : (lookup s).marker = s.marker := by unfold lookup; simp only; split_ifs <;> rfl
@[simp] theorem lookup_consumerRd : (lookup s).consumerRd = s.consumerRd := by unfold lookup; simp only; split_ifs <;> rfl
@[simp] theorem lookup_handler : (lookup s).handler = s.handler := by unfold lookup; simp only; split_ifs <;> rfl
@[simp] theorem lookup_fg : (lookup s).fg = s.fg := by unfold lookup; simp only; split_ifs <;> rfl
@[simp] theorem lookup_irq : (lookup s).irq = s.irq := by unfold lookup; simp only; split_ifs <;> rfl
@[simp] theorem lookup_bus : (lookup s).bus = s.bus := by unfold lookup; simp only; split_ifs <;> rfl
@[simp] theorem lookup_resourcesOk : (lookup s).resourcesOk = s.resourcesOk := by unfold lookup; simp only; split_ifs <;> rfl
@[simp] theorem lookup_schedule : (lookup s).schedule = s.schedule := by unfold lookup; simp only; split_ifs <;> rfl
@[simp] theorem lookup_boots : (lookup s).boots = s.boots := by unfold lookup; simp only; split_ifs <;> rfl
@[simp] theorem commit_v : (commit s).v = Memory.set s.v s.tAddr.toNat s.tWdata := rfl
@[simp] theorem commit_p : (commit s).p = s.p := rfl
@[simp] theorem commit_slots : (commit s).slots = s.slots := rfl
@[simp] theorem commit_wr : (commit s).wr = s.wr := rfl
@[simp] theorem commit_rd : (commit s).rd = s.rd := rfl
@[simp] theorem commit_phase : (commit s).phase = .writeCommitted := rfl
@[simp] theorem commit_tAddr : (commit s).tAddr = s.tAddr := rfl
@[simp] theorem commit_tIsWrite : (commit s).tIsWrite = s.tIsWrite := rfl
@[simp] theorem commit_tWdata : (commit s).tWdata = s.tWdata := rfl
@[simp] theorem commit_tEntry : (commit s).tEntry = s.tEntry := rfl
@[simp] theorem commit_tGated : (commit s).tGated = false := rfl
@[simp] theorem commit_tOld : (commit s).tOld = s.readV s.tAddr.toNat := rfl
@[simp] theorem commit_enabled : (commit s).enabled = s.enabled := rfl
@[simp] theorem commit_stopping : (commit s).stopping = s.stopping := rfl
@[simp] theorem commit_fatal : (commit s).fatal = s.fatal := rfl
@[simp] theorem commit_fatalCode : (commit s).fatalCode = s.fatalCode := rfl
@[simp] theorem commit_flagVideo : (commit s).flagVideo = s.flagVideo := rfl
@[simp] theorem commit_flagSound : (commit s).flagSound = s.flagSound := rfl
@[simp] theorem commit_hsLatched : (commit s).hsLatched = s.hsLatched := rfl
@[simp] theorem commit_irqMasked : (commit s).irqMasked = s.irqMasked := rfl
@[simp] theorem commit_marker : (commit s).marker = s.marker := rfl
@[simp] theorem commit_consumerRd : (commit s).consumerRd = s.consumerRd := rfl
@[simp] theorem commit_handler : (commit s).handler = s.handler := rfl
@[simp] theorem commit_fg : (commit s).fg = s.fg := rfl
@[simp] theorem commit_irq : (commit s).irq = s.irq := rfl
@[simp] theorem commit_bus : (commit s).bus = s.bus := rfl
@[simp] theorem commit_extData : (commit s).extData = s.extData := rfl
@[simp] theorem commit_resourcesOk : (commit s).resourcesOk = s.resourcesOk := rfl
@[simp] theorem commit_schedule : (commit s).schedule = s.schedule := rfl
@[simp] theorem commit_draws : (commit s).draws = s.draws := rfl
@[simp] theorem commit_boots : (commit s).boots = s.boots := rfl
@[simp] theorem append_v : (append s).v = s.v := rfl
@[simp] theorem append_p : (append s).p = s.p := rfl
@[simp] theorem append_slots : (append s).slots = s.slots.set (s.slotIndex s.wr) s.tAddr := rfl
@[simp] theorem append_wr : (append s).wr = s.wr + 1 := rfl
@[simp] theorem append_rd : (append s).rd = s.rd := rfl
@[simp] theorem append_phase : (append s).phase = .eventLogged := rfl
@[simp] theorem append_tAddr : (append s).tAddr = s.tAddr := rfl
@[simp] theorem append_tIsWrite : (append s).tIsWrite = s.tIsWrite := rfl
@[simp] theorem append_tWdata : (append s).tWdata = s.tWdata := rfl
@[simp] theorem append_tEntry : (append s).tEntry = s.tEntry := rfl
@[simp] theorem append_tGated : (append s).tGated = s.tGated := rfl
@[simp] theorem append_tOld : (append s).tOld = s.tOld := rfl
@[simp] theorem append_enabled : (append s).enabled = s.enabled := rfl
@[simp] theorem append_stopping : (append s).stopping = s.stopping := rfl
@[simp] theorem append_fatal : (append s).fatal = s.fatal := rfl
@[simp] theorem append_fatalCode : (append s).fatalCode = s.fatalCode := rfl
@[simp] theorem append_flagVideo : (append s).flagVideo = s.flagVideo := rfl
@[simp] theorem append_flagSound : (append s).flagSound = s.flagSound := rfl
@[simp] theorem append_hsLatched : (append s).hsLatched = s.hsLatched := rfl
@[simp] theorem append_irqMasked : (append s).irqMasked = s.irqMasked := rfl
@[simp] theorem append_marker : (append s).marker = s.marker := rfl
@[simp] theorem append_consumerRd : (append s).consumerRd = s.consumerRd := rfl
@[simp] theorem append_handler : (append s).handler = s.handler := rfl
@[simp] theorem append_fg : (append s).fg = s.fg := rfl
@[simp] theorem append_irq : (append s).irq = s.irq := rfl
@[simp] theorem append_bus : (append s).bus = s.bus := rfl
@[simp] theorem append_extData : (append s).extData = s.extData := rfl
@[simp] theorem append_resourcesOk : (append s).resourcesOk = s.resourcesOk := rfl
@[simp] theorem append_schedule : (append s).schedule = s.schedule := rfl
@[simp] theorem append_draws : (append s).draws = s.draws := rfl
@[simp] theorem append_boots : (append s).boots = s.boots := rfl
@[simp] theorem retire_v : (retire s).v = s.v := rfl
@[simp] theorem retire_p : (retire s).p = s.p := rfl
@[simp] theorem retire_slots : (retire s).slots = s.slots := rfl
@[simp] theorem retire_wr : (retire s).wr = s.wr := rfl
@[simp] theorem retire_rd : (retire s).rd = s.rd := rfl
@[simp] theorem retire_phase : (retire s).phase = .idle := rfl
@[simp] theorem retire_tAddr : (retire s).tAddr = s.tAddr := rfl
@[simp] theorem retire_tIsWrite : (retire s).tIsWrite = s.tIsWrite := rfl
@[simp] theorem retire_tWdata : (retire s).tWdata = s.tWdata := rfl
@[simp] theorem retire_tEntry : (retire s).tEntry = s.tEntry := rfl
@[simp] theorem retire_tGated : (retire s).tGated = s.tGated := rfl
@[simp] theorem retire_tOld : (retire s).tOld = s.tOld := rfl
@[simp] theorem retire_enabled : (retire s).enabled = s.enabled := rfl
@[simp] theorem retire_stopping : (retire s).stopping = s.stopping := rfl
@[simp] theorem retire_fatal : (retire s).fatal = s.fatal := rfl
@[simp] theorem retire_fatalCode : (retire s).fatalCode = s.fatalCode := rfl
@[simp] theorem retire_flagVideo : (retire s).flagVideo = s.flagVideo := rfl
@[simp] theorem retire_flagSound : (retire s).flagSound = s.flagSound := rfl
@[simp] theorem retire_hsLatched : (retire s).hsLatched = s.hsLatched := rfl
@[simp] theorem retire_irqMasked : (retire s).irqMasked = s.irqMasked := rfl
@[simp] theorem retire_marker : (retire s).marker = s.marker := rfl
@[simp] theorem retire_consumerRd : (retire s).consumerRd = s.consumerRd := rfl
@[simp] theorem retire_handler : (retire s).handler = s.handler := rfl
@[simp] theorem retire_fg : (retire s).fg = s.fg := rfl
@[simp] theorem retire_irq : (retire s).irq = s.irq := rfl
@[simp] theorem retire_bus : (retire s).bus = s.bus := rfl
@[simp] theorem retire_extData : (retire s).extData = s.extData := rfl
@[simp] theorem retire_resourcesOk : (retire s).resourcesOk = s.resourcesOk := rfl
@[simp] theorem retire_schedule : (retire s).schedule = s.schedule := rfl
@[simp] theorem retire_draws : (retire s).draws = s.draws := rfl
@[simp] theorem retire_boots : (retire s).boots = s.boots := rfl

/-! ## The handler starts -/

@[simp] theorem State.enterHandler_v (h : Handler) : (s.enterHandler h).v = s.v := by unfold State.enterHandler; split_ifs <;> rfl
@[simp] theorem State.enterHandler_p (h : Handler) : (s.enterHandler h).p = s.p := by unfold State.enterHandler; split_ifs <;> rfl
@[simp] theorem State.enterHandler_slots (h : Handler) : (s.enterHandler h).slots = s.slots := by unfold State.enterHandler; split_ifs <;> rfl
@[simp] theorem State.enterHandler_wr (h : Handler) : (s.enterHandler h).wr = s.wr := by unfold State.enterHandler; split_ifs <;> rfl
@[simp] theorem State.enterHandler_rd (h : Handler) : (s.enterHandler h).rd = s.rd := by unfold State.enterHandler; split_ifs <;> rfl
@[simp] theorem State.enterHandler_phase (h : Handler) : (s.enterHandler h).phase = s.phase := by unfold State.enterHandler; split_ifs <;> rfl
@[simp] theorem State.enterHandler_tAddr (h : Handler) : (s.enterHandler h).tAddr = s.tAddr := by unfold State.enterHandler; split_ifs <;> rfl
@[simp] theorem State.enterHandler_tIsWrite (h : Handler) : (s.enterHandler h).tIsWrite = s.tIsWrite := by unfold State.enterHandler; split_ifs <;> rfl
@[simp] theorem State.enterHandler_tWdata (h : Handler) : (s.enterHandler h).tWdata = s.tWdata := by unfold State.enterHandler; split_ifs <;> rfl
@[simp] theorem State.enterHandler_tEntry (h : Handler) : (s.enterHandler h).tEntry = s.tEntry := by unfold State.enterHandler; split_ifs <;> rfl
@[simp] theorem State.enterHandler_tGated (h : Handler) : (s.enterHandler h).tGated = s.tGated := by unfold State.enterHandler; split_ifs <;> rfl
@[simp] theorem State.enterHandler_tOld (h : Handler) : (s.enterHandler h).tOld = s.tOld := by unfold State.enterHandler; split_ifs <;> rfl
@[simp] theorem State.enterHandler_enabled (h : Handler) : (s.enterHandler h).enabled = s.enabled := by unfold State.enterHandler; split_ifs <;> rfl
@[simp] theorem State.enterHandler_stopping (h : Handler) : (s.enterHandler h).stopping = s.stopping := by unfold State.enterHandler; split_ifs <;> rfl
@[simp] theorem State.enterHandler_fatal (h : Handler) : (s.enterHandler h).fatal = s.fatal := by unfold State.enterHandler; split_ifs <;> rfl
@[simp] theorem State.enterHandler_fatalCode (h : Handler) : (s.enterHandler h).fatalCode = s.fatalCode := by unfold State.enterHandler; split_ifs <;> rfl
@[simp] theorem State.enterHandler_flagVideo (h : Handler) : (s.enterHandler h).flagVideo = s.flagVideo := by unfold State.enterHandler; split_ifs <;> rfl
@[simp] theorem State.enterHandler_flagSound (h : Handler) : (s.enterHandler h).flagSound = s.flagSound := by unfold State.enterHandler; split_ifs <;> rfl
@[simp] theorem State.enterHandler_hsLatched (h : Handler) : (s.enterHandler h).hsLatched = s.hsLatched := by unfold State.enterHandler; split_ifs <;> rfl
@[simp] theorem State.enterHandler_irqMasked (h : Handler) : (s.enterHandler h).irqMasked = s.irqMasked := by unfold State.enterHandler; split_ifs <;> rfl
@[simp] theorem State.enterHandler_marker (h : Handler) : (s.enterHandler h).marker = s.marker := by unfold State.enterHandler; split_ifs <;> rfl
@[simp] theorem State.enterHandler_consumerRd (h : Handler) : (s.enterHandler h).consumerRd = s.consumerRd := by unfold State.enterHandler; split_ifs <;> rfl
@[simp] theorem State.enterHandler_fg (h : Handler) : (s.enterHandler h).fg = s.fg := by unfold State.enterHandler; split_ifs <;> rfl
@[simp] theorem State.enterHandler_irq (h : Handler) : (s.enterHandler h).irq = s.irq := by unfold State.enterHandler; split_ifs <;> rfl
@[simp] theorem State.enterHandler_bus (h : Handler) : (s.enterHandler h).bus = s.bus := by unfold State.enterHandler; split_ifs <;> rfl
@[simp] theorem State.enterHandler_extData (h : Handler) : (s.enterHandler h).extData = s.extData := by unfold State.enterHandler; split_ifs <;> rfl
@[simp] theorem State.enterHandler_resourcesOk (h : Handler) : (s.enterHandler h).resourcesOk = s.resourcesOk := by unfold State.enterHandler; split_ifs <;> rfl
@[simp] theorem State.enterHandler_schedule (h : Handler) : (s.enterHandler h).schedule = s.schedule := by unfold State.enterHandler; split_ifs <;> rfl
@[simp] theorem State.enterHandler_draws (h : Handler) : (s.enterHandler h).draws = s.draws := by unfold State.enterHandler; split_ifs <;> rfl
@[simp] theorem State.enterHandler_boots (h : Handler) : (s.enterHandler h).boots = s.boots := by unfold State.enterHandler; split_ifs <;> rfl
@[simp] theorem State.runHandler_v (h : Handler) : (s.runHandler h).v = s.v := by unfold State.runHandler; split_ifs <;> rfl
@[simp] theorem State.runHandler_p (h : Handler) : (s.runHandler h).p = s.p := by unfold State.runHandler; split_ifs <;> rfl
@[simp] theorem State.runHandler_slots (h : Handler) : (s.runHandler h).slots = s.slots := by unfold State.runHandler; split_ifs <;> rfl
@[simp] theorem State.runHandler_wr (h : Handler) : (s.runHandler h).wr = s.wr := by unfold State.runHandler; split_ifs <;> rfl
@[simp] theorem State.runHandler_rd (h : Handler) : (s.runHandler h).rd = s.rd := by unfold State.runHandler; split_ifs <;> rfl
@[simp] theorem State.runHandler_phase (h : Handler) : (s.runHandler h).phase = s.phase := by unfold State.runHandler; split_ifs <;> rfl
@[simp] theorem State.runHandler_tAddr (h : Handler) : (s.runHandler h).tAddr = s.tAddr := by unfold State.runHandler; split_ifs <;> rfl
@[simp] theorem State.runHandler_tIsWrite (h : Handler) : (s.runHandler h).tIsWrite = s.tIsWrite := by unfold State.runHandler; split_ifs <;> rfl
@[simp] theorem State.runHandler_tWdata (h : Handler) : (s.runHandler h).tWdata = s.tWdata := by unfold State.runHandler; split_ifs <;> rfl
@[simp] theorem State.runHandler_tEntry (h : Handler) : (s.runHandler h).tEntry = s.tEntry := by unfold State.runHandler; split_ifs <;> rfl
@[simp] theorem State.runHandler_tGated (h : Handler) : (s.runHandler h).tGated = s.tGated := by unfold State.runHandler; split_ifs <;> rfl
@[simp] theorem State.runHandler_tOld (h : Handler) : (s.runHandler h).tOld = s.tOld := by unfold State.runHandler; split_ifs <;> rfl
@[simp] theorem State.runHandler_enabled (h : Handler) : (s.runHandler h).enabled = s.enabled := by unfold State.runHandler; split_ifs <;> rfl
@[simp] theorem State.runHandler_stopping (h : Handler) : (s.runHandler h).stopping = s.stopping := by unfold State.runHandler; split_ifs <;> rfl
@[simp] theorem State.runHandler_fatal (h : Handler) : (s.runHandler h).fatal = s.fatal := by unfold State.runHandler; split_ifs <;> rfl
@[simp] theorem State.runHandler_fatalCode (h : Handler) : (s.runHandler h).fatalCode = s.fatalCode := by unfold State.runHandler; split_ifs <;> rfl
@[simp] theorem State.runHandler_flagVideo (h : Handler) : (s.runHandler h).flagVideo = s.flagVideo := by unfold State.runHandler; split_ifs <;> rfl
@[simp] theorem State.runHandler_flagSound (h : Handler) : (s.runHandler h).flagSound = s.flagSound := by unfold State.runHandler; split_ifs <;> rfl
@[simp] theorem State.runHandler_hsLatched (h : Handler) : (s.runHandler h).hsLatched = s.hsLatched := by unfold State.runHandler; split_ifs <;> rfl
@[simp] theorem State.runHandler_irqMasked (h : Handler) : (s.runHandler h).irqMasked = s.irqMasked := by unfold State.runHandler; split_ifs <;> rfl
@[simp] theorem State.runHandler_marker (h : Handler) : (s.runHandler h).marker = s.marker := by unfold State.runHandler; split_ifs <;> rfl
@[simp] theorem State.runHandler_consumerRd (h : Handler) : (s.runHandler h).consumerRd = s.consumerRd := by unfold State.runHandler; split_ifs <;> rfl
@[simp] theorem State.runHandler_fg (h : Handler) : (s.runHandler h).fg = s.fg := by unfold State.runHandler; split_ifs <;> rfl
@[simp] theorem State.runHandler_irq (h : Handler) : (s.runHandler h).irq = s.irq := by unfold State.runHandler; split_ifs <;> rfl
@[simp] theorem State.runHandler_bus (h : Handler) : (s.runHandler h).bus = s.bus := by unfold State.runHandler; split_ifs <;> rfl
@[simp] theorem State.runHandler_extData (h : Handler) : (s.runHandler h).extData = s.extData := by unfold State.runHandler; split_ifs <;> rfl
@[simp] theorem State.runHandler_resourcesOk (h : Handler) : (s.runHandler h).resourcesOk = s.resourcesOk := by unfold State.runHandler; split_ifs <;> rfl
@[simp] theorem State.runHandler_schedule (h : Handler) : (s.runHandler h).schedule = s.schedule := by unfold State.runHandler; split_ifs <;> rfl
@[simp] theorem State.runHandler_draws (h : Handler) : (s.runHandler h).draws = s.draws := by unfold State.runHandler; split_ifs <;> rfl
@[simp] theorem State.runHandler_boots (h : Handler) : (s.runHandler h).boots = s.boots := by unfold State.runHandler; split_ifs <;> rfl

end Sys2Proof.Machine
end

