-- ==== Sys2Proof/Laws/Store.lean ====
section
/-! SUPPORT. What one entry of the store reads as after each named update, and what a torn read is. -/

namespace Sys2Proof.Machine

variable (s : State)

theorem State.readV_writeV (a b : Nat) (x : Byte) :
    (s.writeV a x).readV b = if b = a then x else s.readV b := by
  unfold State.readV
  simp only [State.writeV_v, State.writeV_boots, Memory.get?_set]
  split_ifs <;> rfl

theorem State.readP_writeP (a b : Nat) (c : Perm) :
    (s.writeP a c).readP b = if b = a then c else s.readP b := by
  unfold State.readP
  simp only [State.writeP_p, State.writeP_boots, Memory.get?_set]
  split_ifs <;> rfl

@[simp] theorem State.readP_writeV (a b : Nat) (x : Byte) : (s.writeV a x).readP b = s.readP b := rfl
@[simp] theorem State.readV_writeP (a b : Nat) (c : Perm) : (s.writeP a c).readV b = s.readV b := rfl

/-- A byte read depends on the value plane and the boot count alone. -/
theorem State.readV_congr {s t : State} (hv : t.v = s.v) (hb : t.boots = s.boots) (a : Nat) : t.readV a = s.readV a := by
  unfold State.readV; rw [hv, hb]

/-- A permission depends on the permission plane and the boot count alone. -/
theorem State.readP_congr {s t : State} (hp : t.p = s.p) (hb : t.boots = s.boots) (a : Nat) : t.readP a = s.readP a := by
  unfold State.readP; rw [hp, hb]

@[simp] theorem State.readV_finish (r : Result) (a : Nat) : (s.finish r).readV a = s.readV a :=
  State.readV_congr (by simp) (by simp) a
@[simp] theorem State.readP_finish (r : Result) (a : Nat) : (s.finish r).readP a = s.readP a :=
  State.readP_congr (by simp) (by simp) a
@[simp] theorem State.readV_suspend (p : Pending) (a : Nat) : (s.suspend p).readV a = s.readV a :=
  State.readV_congr (by simp) (by simp) a
@[simp] theorem State.readP_suspend (p : Pending) (a : Nat) : (s.suspend p).readP a = s.readP a :=
  State.readP_congr (by simp) (by simp) a
@[simp] theorem State.readV_modifyPort (f : Port → Port) (a : Nat) : (s.modifyPort f).readV a = s.readV a :=
  State.readV_congr (by simp) (by simp) a
@[simp] theorem State.readP_modifyPort (f : Port → Port) (a : Nat) : (s.modifyPort f).readP a = s.readP a :=
  State.readP_congr (by simp) (by simp) a
@[simp] theorem State.readV_afterPortBRead (b a : Nat) : (s.afterPortBRead b).readV a = s.readV a :=
  State.readV_congr (by simp) (by simp) a

/-- 20_memory.md R66: every bit of a torn byte is the old one or the new one. -/
theorem mixBits_bit (old new mask : Byte) (i : Nat) :
    (mixBits old new mask).getLsbD i = old.getLsbD i ∨ (mixBits old new mask).getLsbD i = new.getLsbD i := by
  by_cases hi : i < 8
  · simp only [mixBits, BitVec.getLsbD_or, BitVec.getLsbD_and, BitVec.getLsbD_not, hi]
    cases mask.getLsbD i <;> simp
  · left; simp [mixBits, BitVec.getLsbD_of_ge, Nat.le_of_not_lt hi]

/-- Every mixture is some mask's: the free byte leaves none out. -/
theorem mixBits_complete (old new r : Byte)
    (h : ∀ i, r.getLsbD i = old.getLsbD i ∨ r.getLsbD i = new.getLsbD i) :
    ∃ mask, mixBits old new mask = r := by
  refine ⟨~~~(old ^^^ r), ?_⟩
  apply BitVec.eq_of_getLsbD_eq
  intro i hi
  have := h i
  cases ho : old.getLsbD i <;> cases hn : new.getLsbD i <;> cases hr : r.getLsbD i <;>
    simp_all [mixBits]

theorem State.portBRead_outside {a : Nat} (h : s.inTearWindow a = false) : s.portBRead a = s.readV a := by
  simp [State.portBRead, h]

theorem State.afterPortBRead_outside {a : Nat} (h : s.inTearWindow a = false) : s.afterPortBRead a = s := by
  simp [State.afterPortBRead, h]

theorem State.portBRead_bit (a i : Nat) :
    (s.portBRead a).getLsbD i = s.tOld.getLsbD i ∨ (s.portBRead a).getLsbD i = (s.readV a).getLsbD i := by
  unfold State.portBRead
  split_ifs
  · exact mixBits_bit _ _ _ i
  · exact .inr rfl

/-! ## The fused entry -/

theorem fuse_bit (c : Perm) (b : Byte) (i : Nat) :
    (fuse c b).getLsbD i = if i < 8 then b.getLsbD i else c.getLsbD (i - 8) :=
  BitVec.getLsbD_append

@[simp] theorem entryValue_fuse (c : Perm) (b : Byte) : entryValue (fuse c b) = b := by
  unfold entryValue
  apply BitVec.eq_of_getLsbD_eq
  intro i hi
  rw [BitVec.getLsbD_extractLsb', fuse_bit]
  simp [hi]

@[simp] theorem entryPerm_fuse (c : Perm) (b : Byte) : entryPerm (fuse c b) = c := by
  unfold entryPerm
  apply BitVec.eq_of_getLsbD_eq
  intro i hi
  rw [BitVec.getLsbD_extractLsb', fuse_bit]
  simp [hi]

end Sys2Proof.Machine
end

