-- ==== Sys2Proof/Laws/Ops.lean ====
section
/-! SUPPORT. The running context and its port under each named update, and once, for each shared operation that can
answer more than one outcome, everything it can answer. -/

namespace Sys2Proof.Machine

variable (s : State)

/-! ## The running context -/

theorem State.context_eq_fg : s.context = .fg ↔ s.handler = .off := by
  unfold State.context; cases s.handler <;> simp

theorem State.context_congr {s t : State} (h : t.handler = s.handler) : t.context = s.context := by
  unfold State.context; rw [h]

@[simp] theorem State.context_modifyPort (f : Port → Port) : (s.modifyPort f).context = s.context :=
  State.context_congr (by simp)
@[simp] theorem State.context_finish (r : Result) : (s.finish r).context = s.context := s.context_modifyPort _
@[simp] theorem State.context_suspend (p : Pending) : (s.suspend p).context = s.context := s.context_modifyPort _
@[simp] theorem State.context_writeV (a : Nat) (b : Byte) : (s.writeV a b).context = s.context := rfl
@[simp] theorem State.context_writeP (a : Nat) (c : Perm) : (s.writeP a c).context = s.context := rfl
@[simp] theorem State.context_afterPortBRead (a : Nat) : (s.afterPortBRead a).context = s.context :=
  State.context_congr (by simp)

@[simp] theorem State.port_modifyPort (f : Port → Port) : (s.modifyPort f).port = f s.port := by
  unfold State.port
  rw [State.context_modifyPort]
  unfold State.modifyPort
  split <;> simp_all

@[simp] theorem State.port_finish (r : Result) : (s.finish r).port = { s.port with op := none, result := r } :=
  s.port_modifyPort _
@[simp] theorem State.port_suspend (p : Pending) : (s.suspend p).port = { s.port with op := some p } :=
  s.port_modifyPort _
@[simp] theorem State.port_writeV (a : Nat) (b : Byte) : (s.writeV a b).port = s.port := rfl
@[simp] theorem State.port_writeP (a : Nat) (c : Perm) : (s.writeP a c).port = s.port := rfl
@[simp] theorem State.port_afterPortBRead (a : Nat) : (s.afterPortBRead a).port = s.port := by
  unfold State.afterPortBRead; split <;> rfl

/-- Two changes at the running context's port are one. -/
theorem State.modifyPort_modifyPort (f g : Port → Port) :
    (s.modifyPort f).modifyPort g = s.modifyPort (g ∘ f) := by
  unfold State.modifyPort State.context
  cases s.handler <;> rfl

/-- The port of the context that is not running is left alone. -/
theorem State.modifyPort_irq (h : s.handler = .off) (f : Port → Port) : (s.modifyPort f).irq = s.irq := by
  simp [State.modifyPort, State.context, h]

theorem State.modifyPort_fg (h : s.handler ≠ .off) (f : Port → Port) : (s.modifyPort f).fg = s.fg := by
  unfold State.modifyPort State.context
  cases hh : s.handler <;> simp_all

/-- Going on twice, or going on and then completing: the last word holds. -/
@[simp] theorem State.suspend_suspend (p q : Pending) : (s.suspend p).suspend q = s.suspend q := by
  unfold State.suspend; rw [State.modifyPort_modifyPort]; rfl
@[simp] theorem State.finish_suspend (p : Pending) (r : Result) : (s.suspend p).finish r = s.finish r := by
  unfold State.suspend State.finish; rw [State.modifyPort_modifyPort]; rfl

/-- A change at the port commutes with what the port does not hold. -/
theorem State.modifyPort_withSchedule (ms : List Move) (f : Port → Port) :
    ({ s with schedule := ms } : State).modifyPort f = { s.modifyPort f with schedule := ms } := by
  unfold State.modifyPort State.context
  cases s.handler <;> rfl
theorem State.writeV_modifyPort (f : Port → Port) (a : Nat) (b : Byte) :
    (s.modifyPort f).writeV a b = (s.writeV a b).modifyPort f := by
  unfold State.writeV State.modifyPort State.context
  cases s.handler <;> rfl
theorem State.writeP_modifyPort (f : Port → Port) (a : Nat) (c : Perm) :
    (s.modifyPort f).writeP a c = (s.writeP a c).modifyPort f := by
  unfold State.writeP State.modifyPort State.context
  cases s.handler <;> rfl

/-! ## Outcomes -/

@[simp] theorem andThen_next (f : State → State) : andThen (.next s) f = .next (f s) := rfl

/-- What `andThen` can answer next. -/
theorem andThen_eq_next {o : Outcome} {f : State → State} {t : State} (h : andThen o f = .next t) :
    ∃ u, o = .next u ∧ t = f u := by
  cases o with
  | next u => exact ⟨u, rfl, by simpa [andThen] using h.symm⟩
  | fault r => simp [andThen] at h
  | refused r => simp [andThen] at h

/-! ## The F-port -/

/-- A command runs where no abort stands and none is in progress. -/
theorem fportCommand_of_ready {body : State → Outcome} (hf : s.fatal = false) (ho : s.port.op = none) :
    fportCommand body s = body s := by
  simp [fportCommand, hf, ho]

/-- What an F-port command can answer next. -/
theorem fportCommand_eq_next {body : State → Outcome} {t : State} (h : fportCommand body s = .next t) :
    s.fatal = false ∧ s.port.op = none ∧ body s = .next t := by
  unfold fportCommand at h
  split_ifs at h with h1 h2
  exact ⟨by simpa using h1, by simpa using h2, h⟩

theorem rangeChecked_of_inRange {cause : FatalCause} {addr : Word} {n : Nat} {body : State → State}
    (hf : s.fatal = false) (ho : s.port.op = none) (hr : addr.toNat + n ≤ 65536) :
    rangeChecked cause addr n body s = .next (body s) := by
  unfold rangeChecked
  rw [fportCommand_of_ready s hf ho]
  simp [inRange, Config.space, hr]

theorem rangeChecked_of_outOfRange {cause : FatalCause} {addr : Word} {n : Nat} {body : State → State}
    (hf : s.fatal = false) (ho : s.port.op = none) (hr : 65536 < addr.toNat + n) :
    rangeChecked cause addr n body s = .next (s.raiseFatal cause) := by
  unfold rangeChecked
  rw [fportCommand_of_ready s hf ho]
  simp [inRange, Config.space, Nat.not_le.mpr hr]

/-- What a range-checked command can answer next: its effect inside the range, the abort outside it. -/
theorem rangeChecked_eq_next {cause : FatalCause} {addr : Word} {n : Nat} {body : State → State} {t : State}
    (h : rangeChecked cause addr n body s = .next t) :
    s.fatal = false ∧ s.port.op = none ∧
      (addr.toNat + n ≤ 65536 ∧ t = body s ∨ 65536 < addr.toNat + n ∧ t = s.raiseFatal cause) := by
  obtain ⟨hf, ho, hb⟩ := fportCommand_eq_next s h
  refine ⟨hf, ho, ?_⟩
  by_cases hr : addr.toNat + n ≤ 65536
  · exact .inl ⟨hr, by simpa [inRange, Config.space, hr] using hb.symm⟩
  · exact .inr ⟨by omega, by simpa [inRange, Config.space, hr] using hb.symm⟩

/-- After the range check the Address is the operand (30_encoding.md R110). -/
theorem storeAddress_toNat {addr : Word} (h : addr.toNat < 65536) : (storeAddress addr).toNat = addr.toNat := by
  simp [storeAddress, Nat.mod_eq_of_lt h]

/-! ## The ring's slots -/

theorem State.slotIndex_lt (h : 0 < s.slotCount) (c : Word) : s.slotIndex c < s.slots.length := Nat.mod_lt _ h

/-- Slots and their indices depend on the slots alone. -/
theorem State.slotIndex_congr {s t : State} (h : t.slots = s.slots) (c : Word) : t.slotIndex c = s.slotIndex c := by
  unfold State.slotIndex State.slotCount; rw [h]
theorem State.slotAt_congr {s t : State} (h : t.slots = s.slots) (c : Word) : t.slotAt c = s.slotAt c := by
  unfold State.slotAt; rw [State.slotIndex_congr h, h]

/-! ## Bytes in order -/

/-- One more byte, below those before it. -/
theorem shift_in_toNat (acc : Word) (b : Byte) :
    ((acc <<< 8) ||| b.setWidth 32).toNat = (acc.toNat % 2 ^ 24) * 2 ^ 8 + b.toNat := by
  have hb := b.isLt
  rw [BitVec.toNat_or, BitVec.toNat_shiftLeft, BitVec.toNat_setWidth, Nat.mod_eq_of_lt (by omega : b.toNat < 2 ^ 32),
    Nat.shiftLeft_eq, show acc.toNat * 2 ^ 8 % 2 ^ 32 = (acc.toNat % 2 ^ 24) <<< 8 by rw [Nat.shiftLeft_eq]; omega,
    ← Nat.shiftLeft_add_eq_or_of_lt (by omega), Nat.shiftLeft_eq]

theorem packBigEndian_four (a b c d : Byte) :
    (packBigEndian [a, b, c, d]).toNat = a.toNat * 2 ^ 24 + b.toNat * 2 ^ 16 + c.toNat * 2 ^ 8 + d.toNat := by
  simp only [packBigEndian, List.foldl, shift_in_toNat]
  have := a.isLt; have := b.isLt; have := c.isLt; have := d.isLt
  have h0 : (0 : Word).toNat = 0 := rfl
  omega

end Sys2Proof.Machine
end

