-- ==== Sys2Proof/Laws/PerInstr.lean ====
section
/-! SUPPORT. The family OpNumber: the words of every operation carry the op number the spec gives it, on the port it
gives it (spec/30_encoding.md R101, R109). -/

namespace Sys2Proof.Laws.OpNumber

/-- The op number of a command (R109); none for the two requests. -/
def expected : Instr → Option (BitVec 4)
  | .brd _ _ => none
  | .bwr _ _ => none
  | .rdv _ => some 0x0
  | .wrv _ _ => some 0x1
  | .rdw32 _ => some 0x2
  | .fill _ _ _ => some 0x3
  | .cpin _ _ => some 0x4
  | .cpout _ _ => some 0x5
  | .setp _ _ => some 0x6
  | .setpr _ _ _ => some 0x7
  | .init => some 0x8
  | .shutdown => some 0x9
  | .peekw => some 0xA
  | .rdslot _ => some 0xB
  | .advr => some 0xC
  | .pollclr _ => some 0xD
  | .reservedE _ _ _ => some 0xE
  | .reservedF _ _ _ => some 0xF

/-- The op number the encoder's words carry; none for a request. -/
def carried : PortWords → Option (BitVec 4)
  | .req _ => none
  | .cmd w0 _ _ => some (opField w0)

def Statement (i : Instr) : Prop := carried (encode i) = expected i

theorem opField_reserved (op : BitVec 4) (low : BitVec 28) : opField (op ++ low) = op := by
  have h : ∀ i, ((op ++ low : BitVec (4 + 28))).getLsbD i = if i < 28 then low.getLsbD i else op.getLsbD (i - 28) :=
    fun i => BitVec.getLsbD_append
  apply BitVec.eq_of_getLsbD_eq
  intro i hi
  rw [opField, BitVec.getLsbD_extractLsb']
  refine (congrArg (decide (i < 4) && ·) (h (28 + i))).trans ?_
  simp [hi, show ¬ 28 + i < 28 by omega]

theorem brd (addr : Address) (wdata : Byte) : Statement (.brd addr wdata) := rfl
theorem bwr (addr : Address) (wdata : Byte) : Statement (.bwr addr wdata) := rfl
theorem rdv (addr : Word) : Statement (.rdv addr) := by simp [Statement, carried, encode, expected]
theorem wrv (addr : Word) (value : Byte) : Statement (.wrv addr value) := by simp [Statement, carried, encode, expected]
theorem rdw32 (addr : Word) : Statement (.rdw32 addr) := by simp [Statement, carried, encode, expected]
theorem fill (addr : Word) (value : Byte) (count : Word) : Statement (.fill addr value count) := by
  simp [Statement, carried, encode, expected]
theorem cpin (addr count : Word) : Statement (.cpin addr count) := by simp [Statement, carried, encode, expected]
theorem cpout (addr count : Word) : Statement (.cpout addr count) := by simp [Statement, carried, encode, expected]
theorem setp (addr : Word) (code : Perm) : Statement (.setp addr code) := by simp [Statement, carried, encode, expected]
theorem setpr (start : Word) (code : Perm) (count : Word) : Statement (.setpr start code count) := by
  simp [Statement, carried, encode, expected]
theorem init : Statement .init := by simp [Statement, carried, encode, expected]
theorem shutdown : Statement .shutdown := by simp [Statement, carried, encode, expected]
theorem peekw : Statement .peekw := by simp [Statement, carried, encode, expected]
theorem rdslot (index : Word) : Statement (.rdslot index) := by simp [Statement, carried, encode, expected]
theorem advr : Statement .advr := by simp [Statement, carried, encode, expected]
theorem pollclr (flag : Byte) : Statement (.pollclr flag) := by simp [Statement, carried, encode, expected]
theorem reservedE (low : BitVec 28) (w1 w2 : Word) : Statement (.reservedE low w1 w2) :=
  congrArg some (opField_reserved 14 low)
theorem reservedF (low : BitVec 28) (w1 w2 : Word) : Statement (.reservedF low w1 w2) :=
  congrArg some (opField_reserved 15 low)

end Sys2Proof.Laws.OpNumber
end

