-- ==== Sys2Proof/Laws/Step.lean ====
section
/-! SUPPORT. What a step is, by its schedule; how runs of `steps` begin; the one step of the pipeline by phase. -/

namespace Sys2Proof.Machine

variable (s : State)

/-- A scheduled move is taken. -/
theorem step_scheduled {m : Move} {ms : List Move} (h : s.schedule = m :: ms) :
    step s = performMove m { s with schedule := ms } := by
  simp [step, h]

theorem step_unscheduled (h : s.schedule = []) : step s = performDefault s := by
  simp [step, h]

theorem performMove_alive {m : Move} (hf : s.fatal = false) : performMove m s = performAlive m s := by
  simp [performMove, hf]

@[simp] theorem steps_zero : steps 0 s = .next s := rfl

theorem steps_succ {t : State} (k : Nat) (h : step s = .next t) : steps (k + 1) s = steps k t := by
  simp [steps, h]

/-- A run is a first part and the rest. -/
theorem steps_add {t : State} (j k : Nat) (h : steps j s = .next t) : steps (j + k) s = steps k t := by
  induction j generalizing s with
  | zero => simp only [steps_zero, Host.Outcome.next.injEq] at h; simp [h]
  | succ j ih =>
    rw [show j + 1 + k = (j + k) + 1 by omega]
    cases hs : step s with
    | next u => rw [steps_succ s _ hs]; rw [steps_succ s _ hs] at h; exact ih u h
    | fault r => simp [steps, hs] at h
    | refused r => simp [steps, hs] at h

/-- The last state of a safe run is no faulted one (60_exceptions.md R301). -/
theorem runsSafely_last {k : Nat} (h : runsSafely k s) : ∃ t, steps k s = .next t ∧ t.fatal = false := h k (Nat.le_refl k)

/-- A shorter run of a safe run is safe. -/
theorem runsSafely_mono {j k : Nat} (hj : j ≤ k) (h : runsSafely k s) : runsSafely j s :=
  fun i hi => h i (Nat.le_trans hi hj)

/-- A safe run begins without an abort, and is a safe step followed by a safe run. -/
theorem runsSafely_succ (k : Nat) :
    runsSafely (k + 1) s ↔ s.fatal = false ∧ ∃ t, step s = .next t ∧ runsSafely k t := by
  constructor
  · intro h
    obtain ⟨u, hu, hf⟩ := h 0 (Nat.zero_le _)
    cases hu
    refine ⟨hf, ?_⟩
    cases hs : step s with
    | next t =>
      refine ⟨t, rfl, fun j hj => ?_⟩
      have := h (j + 1) (by omega)
      rwa [steps_succ s j hs] at this
    | fault r => have := h 1 (by omega); simp [steps, hs] at this
    | refused r => have := h 1 (by omega); simp [steps, hs] at this
  · rintro ⟨hf, t, hs, h⟩ j hj
    cases j with
    | zero => exact ⟨s, rfl, hf⟩
    | succ j => rw [steps_succ s j hs]; exact h j (by omega)

/-- The host's run of this machine is `steps`. -/
theorem core_run_eq_steps (k : Nat) : Host.Core.run core k s = steps k s := by
  induction k generalizing s with
  | zero => rfl
  | succ k ih =>
    refine (Host.Core.run.eq_2 core s k).trans ?_
    unfold steps
    cases h : step s <;> simp only [show core.step s = step s from rfl, h, ih] <;> rfl

/-! ## A context goes on with its command -/

theorem State.ownMove_congr {s t : State} (h : t.handler = s.handler) : t.ownMove = s.ownMove := by
  unfold State.ownMove; rw [State.context_congr h]

/-- The running context's own move takes one step of its command in progress. -/
theorem step_ownMove {p : Pending} {ms : List Move} (hf : s.fatal = false) (hs : s.schedule = s.ownMove :: ms)
    (hp : s.port.op = some p) : step s = .next (continueCommand p { s with schedule := ms }) := by
  rw [step_scheduled _ hs, performMove_alive { s with schedule := ms } hf]
  unfold State.ownMove State.port at *
  rcases hh : s.handler with _ | _ | pt <;> simp [State.context, hh] at hp ⊢
  · simp [performAlive, fgStep, contextStep, State.port, State.context, hp]
  · simp [performAlive, irqStep, contextStep, State.port, State.context, hp]
  · simp [performAlive, irqStep, hp]

/-! ## PIPE -/

theorem pipeStep_idle (h : s.phase = .idle) : pipeStep s = s := by simp [pipeStep, h]
theorem pipeStep_lookup (h : s.phase = .addressCaptured) (hg : s.tGated = false) : pipeStep s = lookup s := by
  simp [pipeStep, h, hg]
theorem pipeStep_commit (h : s.phase = .addressCaptured) (hg : s.tGated = true) : pipeStep s = commit s := by
  simp [pipeStep, h, hg]
theorem pipeStep_append (h : s.phase = .writeCommitted) : pipeStep s = append s := by simp [pipeStep, h]
theorem pipeStep_retire (h : s.phase = .readResolved ∨ s.phase = .eventLogged) : pipeStep s = retire s := by
  rcases h with h | h <;> simp [pipeStep, h]

@[simp] theorem append_slotCount : (append s).slotCount = s.slotCount := by simp [State.slotCount]
@[simp] theorem append_slotIndex (c : Word) : (append s).slotIndex c = s.slotIndex c := by simp [State.slotIndex]

/-- 43_eventlog.md R231: the slot an APPEND writes, and the others. -/
theorem append_slotAt (hn : 0 < s.slotCount) (j : Word) :
    (append s).slotAt j = if s.slotIndex j = s.slotIndex s.wr then s.tAddr else s.slotAt j := by
  have hj := s.slotIndex_lt hn j
  unfold State.slotAt
  rw [append_slotIndex, append_slots, List.getD_eq_getElem?_getD, List.getElem?_set, List.getD_eq_getElem?_getD]
  simp only [eq_comm, s.slotIndex_lt hn s.wr, if_true]
  split_ifs with h
  · rfl
  · rfl

/-- Whether the number of slots is legal depends on that number alone. -/
theorem State.slotCountOk_congr {s t : State} (h : t.slots.length = s.slots.length) : t.slotCountOk ↔ s.slotCountOk := by
  unfold State.slotCountOk; rw [h]
@[simp] theorem State.slotCount_reboot : s.reboot.slotCount = s.slotCount := by
  simp [State.reboot, State.powerUp, State.slotCount]

/-- A legal number of slots is not 0, and divides the cursors' range. -/
theorem State.slotCount_pos (h : s.slotCountOk) : 0 < s.slotCount := by
  obtain ⟨k, -, h⟩ := h
  unfold State.slotCount; rw [h]; exact Nat.two_pow_pos k
theorem State.slotCount_dvd (h : s.slotCountOk) : s.slotCount ∣ 2 ^ 32 := by
  obtain ⟨k, hk, h⟩ := h
  unfold State.slotCount; rw [h]; exact Nat.pow_dvd_pow 2 hk

end Sys2Proof.Machine
end

