-- ==== Sys2Proof/Tests/Slice0.lean ====
section
/-! SUPPORT. Tests of one step each, with results from the worked vectors of spec/95_test_vectors.md (the vector's name
stands beside each), and for every statement with hypotheses a witness that meets them, clause by clause. -/

namespace Sys2Proof.Tests

open Sys2Proof.Machine

/-! ## Small states -/

/-- What is seen of a next state. -/
def after {α : Type} (o : Outcome) (f : State → α) : Option α :=
  match o with
  | .next s => some (f s)
  | .fault _ => none
  | .refused _ => none

/-- Why there is no next state. -/
def stopOf (o : Outcome) : Option (Fault ⊕ Refusal) :=
  match o with
  | .next _ => none
  | .fault r => some (.inl r)
  | .refused r => some (.inr r)

/-- After INIT, with the store of the vectors B1 to B8: `V[0x1234] = 0x7E`, `P[0x1234]` the given code. -/
def live (code : Perm) : State :=
  { State.reset with enabled := true, v := [(0x1234, 0x7E)], p := [(0x1234, code)] }

/-- A transaction in flight, at the given point. -/
def inFlight (code : Perm) (isWrite gated : Bool) (ph : Phase) : State :=
  { live code with
    phase := ph, tAddr := 0x1234, tIsWrite := isWrite, tWdata := 0xA5, tGated := gated
    tEntry := fuse code 0x7E, tOld := 0x0F }

/-- A state that FG shares with a handler of another consumer, which runs. -/
def scripted : State := { live 1 with handler := .script }

/-- `n` unread events at the addresses `0x1000 + i`, the handler at its first step (vectors E1 to E4). -/
def drainOf (wr rd : Word) : State :=
  { live 1 with
    wr := wr, rd := rd, consumerRd := rd, handler := .drain .peek
    slots := [0x1000, 0x1001, 0x1002, 0x1003, 0x1004, 0x1005, 0x1006, 0x1007] }

/-! ## Well-formedness and decoding -/

theorem test_pollclr_flag_two_is_ill_formed : (Instr.pollclr 2).wellFormed = false := by decide
theorem test_pollclr_flag_one_is_well_formed : (Instr.pollclr 1).wellFormed = true := by decide

/-- B7, B2: `REQ` words. -/
theorem test_decode_requests :
    decode (.req 0x00001234) = .ok (.brd 0x1234 0) ∧ decode (.req 0x01A51234) = .ok (.bwr 0x1234 0xA5) ∧
    decode (.req 0x00FF1234) = .ok (.brd 0x1234 0xFF) ∧ decode (.req 0xFE001234) = .ok (.brd 0x1234 0) := by decide

/-- V1, V4, V11, K1, K7, K12, K14, K18. -/
theorem test_decode_store_commands :
    decode (.cmd 0x00000000 0x0000D000 0) = .ok (.rdv 0xD000) ∧
    decode (.cmd 0x10000041 0x00008000 0) = .ok (.wrv 0x8000 0x41) ∧
    decode (.cmd 0x60000300 0x0000D015 0) = .ok (.setp 0xD015 3) ∧
    decode (.cmd 0x20000000 0x000000FF 0) = .ok (.rdw32 0xFF) ∧
    decode (.cmd 0x300000AA 0x0000FFFF 1) = .ok (.fill 0xFFFF 0xAA 1) ∧
    decode (.cmd 0x40000000 0x00008000 2) = .ok (.cpin 0x8000 2) ∧
    decode (.cmd 0x50000000 0x00008000 2) = .ok (.cpout 0x8000 2) ∧
    decode (.cmd 0x70000000 0x0000D000 0x15) = .ok (.setpr 0xD000 0 21) := by decide

/-- C1, C4, E10, E6, N4, X1, X2. -/
theorem test_decode_other_commands :
    decode (.cmd 0x80000000 0 0) = .ok .init ∧ decode (.cmd 0x90000000 0 0) = .ok .shutdown ∧
    decode (.cmd 0xA0000000 0 0) = .ok .peekw ∧ decode (.cmd 0xB0000000 9 0) = .ok (.rdslot 9) ∧
    decode (.cmd 0xC0000000 0 0) = .ok .advr ∧ decode (.cmd 0xD0000001 0 0) = .ok (.pollclr 1) ∧
    decode (.cmd 0xE0000000 0 0) = .ok (.reservedE 0 0 0) ∧ decode (.cmd 0xF0000000 0 0) = .ok (.reservedF 0 0 0) := by
  decide

/-- X3 to X7, X9, and a flag id of 2 (45_reference_consumer.md R285). -/
theorem test_decode_illegal_commands :
    decode (.cmd 0x00000001 0x1000 0) = .error .dataNotZero ∧ decode (.cmd 0x10000141 0x1000 0) = .error .codeNotZero ∧
    decode (.cmd 0 0x1000 1) = .error .countNotZero ∧ decode (.cmd 0x60000400 0x1000 0) = .error .reservedBitsSet ∧
    decode (.cmd 0xA0000000 1 0) = .error .addrNotZero ∧ decode (.cmd 0x20000000 0x9000 4) = .error .countNotZero ∧
    decode (.cmd 0xD0000002 0 0) = .error .unknownFlag := by decide

/-! ## Bus transactions -/

/-- B1: ACCEPT. -/
theorem test_brd_accepts :
    after (exec (.brd 0x1234 0) (live 1)) (fun t => (t.phase, t.tAddr, t.tIsWrite)) =
      some (.addressCaptured, 0x1234, false) := by decide

/-- B7, B5: RSP, the drive enable, the external byte. -/
theorem test_read_lookup :
    (pipeStep (inFlight 3 false false .addressCaptured)).xRsp = 0x037E ∧
    (pipeStep (inFlight 3 false false .addressCaptured)).xDriveEn = true ∧
    (pipeStep (inFlight 3 false false .addressCaptured)).extData = 0x7E ∧
    (pipeStep (inFlight 2 false false .addressCaptured)).xRsp = 0x027E ∧
    (pipeStep (inFlight 2 false false .addressCaptured)).xDriveEn = false := by decide

/-- B2: ACCEPT of a write. -/
theorem test_bwr_accepts :
    after (exec (.bwr 0x1234 0xA5) (live 1)) (fun t => (t.phase, t.tWdata, t.tIsWrite, t.tGated)) =
      some (.addressCaptured, 0xA5, true, false) := by decide

/-- B2, B6: the gate; COMMIT; APPEND at the wrap of the cursor (E5). -/
theorem test_write_steps :
    (pipeStep (inFlight 1 true false .addressCaptured)).xWrAccept = true ∧
    (pipeStep (inFlight 2 true false .addressCaptured)).phase = .idle ∧
    (pipeStep (inFlight 1 true true .addressCaptured)).readV 0x1234 = 0xA5 ∧
    (pipeStep (inFlight 1 true true .addressCaptured)).tOld = 0x7E ∧
    (pipeStep { inFlight 1 true false .writeCommitted with wr := 0xFFFFFFFF }).wr = 0 ∧
    (pipeStep { inFlight 1 true false .writeCommitted with wr := 0xFFFFFFFF }).slotAt 7 = 0x1234 := by decide

/-! ## Store commands -/

/-- V2: the last address; V3: the first outside. -/
theorem test_rdv :
    after (exec (.rdv 0xFFFF) { live 1 with v := [(0xFFFF, 1)] }) (·.port.result) = some (.byte 1) ∧
    after (exec (.rdv 0x10000) (live 1)) (fun t => (t.fatal, t.fatalCode)) = some (true, 1) := by decide

/-- V4, V7. -/
theorem test_wrv :
    after (exec (.wrv 0x1234 0x41) (live 3)) (fun t => (t.readV 0x1234, t.readP 0x1234, t.wr)) = some (0x41, 3, 0) ∧
    after (exec (.wrv 0xFFFFFFFF 0x12) (live 3)) (fun t => (t.fatalCode, t.v)) = some (1, [(0x1234, 0x7E)]) := by decide

/-- V8, V12. -/
theorem test_setp :
    after (exec (.setp 0x1234 2) (live 1)) (fun t => (t.readV 0x1234, t.readP 0x1234)) = some (0x7E, 2) ∧
    after (exec (.setp 0x10000 3) (live 1)) (fun t => (t.fatalCode, t.p)) = some (2, [(0x1234, 1)]) := by decide

/-- K1: the last of the four bytes, and the order of packing; K3. -/
theorem test_rdw32 :
    (continueCommand (.readWide 0x102 1 [0xDE, 0xAD, 0xBE]) { live 1 with v := [(0x102, 0xEF)] }).port.result =
      .word 0xDEADBEEF ∧
    after (exec (.rdw32 0xFFFD) (live 1)) (fun t => (t.fatalCode, t.port.op)) = some (1, none) := by decide

/-- S9: the first element of FILL 0xFFFE, 0xAA, 2; K8: the legal empty range at 65536. -/
theorem test_fill :
    after (exec (.fill 0xFFFE 0xAA 2) (live 1)) (fun t => (t.readV 0xFFFE, t.port.op)) =
      some (0xAA, some (.fill 0xFFFF 1 0xAA)) ∧
    after (exec (.fill 0x10000 0xAA 0) (live 1)) (fun t => (t.v, t.port.op, t.fatal)) =
      some ([(0x1234, 0x7E)], none, false) := by decide

/-- K12: its first byte; K13: outside the range no payload byte is taken. -/
theorem test_cpin :
    after (exec (.cpin 0x8000 2) { live 1 with fg := { Port.empty with sin := [0x48, 0x49] } })
      (fun t => (t.readV 0x8000, t.fg.sin)) = some (0x48, [0x49]) ∧
    after (exec (.cpin 0xFFFE 3) { live 1 with fg := { Port.empty with sin := [1, 2, 3] } })
      (fun t => (t.fatalCode, t.fg.sin)) = some (1, [1, 2, 3]) := by decide

/-- K14: its last byte; K15. -/
theorem test_cpout :
    (continueCommand (.copyOut 0x8001 1 [0x48]) { live 1 with v := [(0x8001, 0x49)] }).port.result =
      .bytes [0x48, 0x49] ∧
    after (exec (.cpout 0x1234 0) (live 1)) (·.port.result) = some (.bytes []) := by decide

/-- I10: SETPR with its first element done; K20. -/
theorem test_setpr :
    after (exec (.setpr 0x1234 2 2) { live 1 with p := [(0x1234, 1), (0x1235, 1)] })
      (fun t => (t.readP 0x1234, t.readP 0x1235)) = some (2, 1) ∧
    after (exec (.setpr 0xFFFF 3 2) (live 1)) (fun t => (t.fatalCode, t.p)) = some (2, [(0x1234, 1)]) := by decide

/-! ## The ring, control, the reference consumer -/

/-- E1. -/
theorem test_peekw : after (exec .peekw (drainOf 3 0)) (·.port.result) = some (.word 3) := by decide

/-- E6. -/
theorem test_rdslot :
    after (exec (.rdslot 9) (drainOf 8 0)) (·.port.result) = some (.address 0x1001) ∧
    after (exec (.rdslot 0xFFFFFFFF) (drainOf 8 0)) (·.port.result) = some (.address 0x1007) := by decide

/-- E5: the wrap of the cursor; E7. -/
theorem test_advr :
    after (exec .advr (drainOf 1 0xFFFFFFFF)) (fun t => (t.rd, t.evtIrq)) = some (0, true) ∧
    stopOf (exec .advr (drainOf 3 3)) = some (.inr .advrOnEmptyRing) := by decide

/-- C1, C2, C3. -/
theorem test_init :
    after (exec .init { live 1 with enabled := false, wr := 5, rd := 2 }) (fun t => (t.enabled, t.wr, t.rd, t.evtIrq)) =
      some (true, 0, 0, false) ∧
    after (exec .init { live 1 with enabled := false, wr := 5, resourcesOk := false })
      (fun t => (t.fatalCode, t.enabled, t.wr)) = some (3, false, 5) ∧
    stopOf (exec .init (live 1)) = some (.inr .initWhileEnabled) := by decide

/-- C4, C5: the two steps of SHUTDOWN; C6. -/
theorem test_shutdown :
    after (exec .shutdown (live 1)) (fun t => (t.enabled, t.stopping, t.port.op)) = some (true, true, some .shutdown) ∧
    (continueCommand .shutdown { live 1 with stopping := true }).enabled = false ∧
    (continueCommand .shutdown { inFlight 1 true true .addressCaptured with stopping := true }).enabled = true ∧
    after (exec .shutdown { live 1 with enabled := false }) (fun t => (t.stopping, t.port.op)) = some (false, none) := by
  decide

/-- A ring of four slots, and of one (00_scope.md R7: N is a parameter). -/
theorem test_rdslot_other_ring_sizes :
    after (exec (.rdslot 9) { drainOf 3 0 with slots := [0x1000, 0x1001, 0x1002, 0x1003] }) (·.port.result) =
      some (.address 0x1001) ∧
    after (exec (.rdslot 9) { drainOf 1 0 with slots := [0x1000] }) (·.port.result) = some (.address 0x1000) := by decide

/-- With nothing scheduled, a CPIN that waits for its payload keeps no bus cycle waiting, in either context (log 1). -/
theorem test_waiting_cpin_lets_auto_move :
    defaultMove { scripted with bus := [0x1234], irq := { Port.empty with op := some (.copyIn 0 1) } } = some .auto ∧
    defaultMove { live 1 with bus := [0x1234], fg := { Port.empty with op := some (.copyIn 0 1) } } = some .auto := by
  decide

/-- N4. -/
theorem test_pollclr :
    after (exec (.pollclr 0) { live 1 with flagVideo := true, flagSound := true })
      (fun t => (t.port.result, t.flagVideo, t.flagSound)) = some (.bit true, false, true) ∧
    after (exec (.pollclr 0) { live 1 with flagSound := true }) (·.port.result) = some (.bit false) := by decide

/-- X1, X2. -/
theorem test_reserved_op_numbers :
    after (exec (.reservedE 1 2 3) (live 1)) (fun t => (t.fatal, t.fatalCode)) = some (true, 4) ∧
    after (exec (.reservedF 0 0 0) (live 1)) (fun t => (t.fatal, t.fatalCode)) = some (true, 4) := by decide

/-- X8: decode first. -/
theorem test_illegal_before_range :
    after (step { live 1 with schedule := [.fg], fg := { Port.empty with cmds := [⟨1, 0x10000, 0⟩] } }) (·.fatalCode) =
      some 4 := by decide

/-- X1: the step that aborts answers a next state, and ends no safe run, nor does a reset after it make one. -/
theorem test_abort_ends_no_safe_run (k : Nat) (hk : 1 ≤ k) :
    ¬ runsSafely k { live 1 with
      schedule := [.fg, .reset], fg := { Port.empty with cmds := [⟨0xE0000000, 0, 0⟩] } } := by
  intro h
  obtain ⟨t, ht, hf⟩ := h 1 hk
  cases ht
  exact absurd hf (by decide)

/-- N1 to N3, with the ranges of 95_test_vectors.md 2.8. -/
theorem test_watched_ranges :
    let r : Config.WatchRanges := { videoBase := 0x4000, videoLen := 0x100, soundBase := 0x5000, soundLen := 0x10 }
    ((live 1).markWatched r 0x40FF).flagVideo = true ∧ ((live 1).markWatched r 0x4100).flagVideo = false ∧
    ((live 1).markWatched r 0x500F).flagSound = true ∧ ((live 1).markWatched r 0x5010).flagSound = false := by decide

/-- N5, N6, N7. -/
theorem test_mode_switch_test :
    (live 1).modeSwitchFires 0xBFFE 0x20 = true ∧ (live 1).modeSwitchFires 0xBFFE 0xDF = false ∧
    ({ live 1 with hsLatched := true } : State).modeSwitchFires 0xBFFE 0xFF = false := by decide

/-- E4: twenty events, twelve lost; E2: none lost. -/
theorem test_drain_decision :
    after (step { drainOf 20 0 with schedule := [.irq] }) (·.handler) = some (.drain (.skip 12)) ∧
    after (step { drainOf 8 0 with schedule := [.irq] }) (·.handler) = some (.drain .fetch) ∧
    after (step { drainOf 3 3 with schedule := [.irq] }) (·.handler) = some .off := by decide

/-! ## Witnesses: for every statement with hypotheses, states and operands that meet them all, clause by clause

A clause's own hypotheses are met together with the statement's. A statement over every state needs no witness. -/

/-- A command waits at the running context's port. -/
def commanding (s : State) (c : Command) : State :=
  s.modifyPort fun q => { q with cmds := [c] }

theorem witness_DecodeEncodeAgree : (Instr.pollclr 1).wellFormed = true ∧ (Instr.fill 0xFFFFFFFF 0xFF 0xFFFFFFFF).wellFormed = true := by
  decide

theorem witness_EncodeDecodeAgree : decode (.cmd 0xFFFFFFFF 1 2) = .ok (.reservedF 0xFFFFFFF 1 2) := by decide

/-- The reserved op numbers, with other bits set. -/
theorem witness_MustBeZeroFieldsEnforced :
    (0xE0000001 : Word).toNat / 2 ^ 28 = 14 ∧ (0xFFFFFFFF : Word).toNat / 2 ^ 28 = 15 := by decide

theorem witness_StepIssuesDecodedCommand_fg :
    let s := { commanding (live 1) ⟨0xA0000000, 0, 0⟩ with schedule := [.fg] }
    s.canIssue ∧ s.handler = .off ∧ s.port.cmds = [⟨0xA0000000, 0, 0⟩] ∧ decode (.cmd 0xA0000000 0 0) = .ok .peekw := by
  decide

theorem witness_StepIssuesDecodedCommand_irq :
    let s := { commanding scripted ⟨0xC0000000, 0, 0⟩ with schedule := [.irq] }
    s.canIssue ∧ s.handler = .script ∧ s.port.cmds = [⟨0xC0000000, 0, 0⟩] ∧ decode (.cmd 0xC0000000 0 0) = .ok .advr := by
  decide

theorem witness_StepPresentsDecodedRequest :
    (let s := { live 1 with schedule := [.auto], bus := [0x1234] }; s.fatal = false ∧ s.phase = .idle) ∧
    (let s := { inFlight 1 true true .addressCaptured with schedule := [.auto], bus := [0x1234] };
      s.fatal = false ∧ s.phase ≠ .idle) := by decide

theorem witness_IllegalCommandAborts_fg :
    let s := { commanding (live 1) ⟨0x60000400, 0, 0⟩ with schedule := [.fg] }
    s.canIssue ∧ s.handler = .off ∧ decode (.cmd 0x60000400 0 0) = .error .reservedBitsSet := by decide

theorem witness_IllegalCommandAborts_irq :
    let s := { commanding scripted ⟨0xD0000002, 0, 0⟩ with schedule := [.irq] }
    s.canIssue ∧ s.handler = .script ∧ decode (.cmd 0xD0000002 0 0) = .error .unknownFlag := by decide

theorem witness_PipeMovesAndFinishes :
    (let s := { inFlight 1 true false .addressCaptured with schedule := [.pipe, .fg] }; s.fatal = false) ∧
    (let s := inFlight 1 true false .addressCaptured; s.schedule = [] ∧ s.fatal = false) := by decide

theorem witness_ContextsTakeTurns :
    (let s := { scripted with schedule := [.fg] }; s.fatal = false ∧ s.handler ≠ .off) ∧
    (let s := { live 1 with schedule := [.irq] }; s.fatal = false ∧ s.handler = .off) := by decide

/-- In a state with an abort. -/
theorem witness_ResetFromEveryState :
    let s := { live 1 with schedule := [.reset], fatal := true, fatalCode := 4 }
    s.schedule = .reset :: [] := by decide

/-- A write past the gate and a FILL in progress. -/
theorem witness_StepKeepsInvariant :
    let s := { inFlight 1 true true .addressCaptured with
      schedule := [.pipe], fg := { Port.empty with op := some (.fill 0xFFFF 1 0) } }
    s.Inv ∧ after (step s) (·.phase) = some .writeCommitted := by
  refine ⟨?_, by decide⟩
  constructor
  case fg_in_store => rintro p ⟨⟩; exact ⟨by decide, by decide⟩
  case irq_in_store => rintro p ⟨⟩
  all_goals decide

/-- APPEND, INIT, ADVR and a reset are each a step. -/
theorem witness_CursorOwnership :
    after (step { inFlight 1 true false .writeCommitted with schedule := [.pipe] }) (·.wr) = some 1 ∧
    after (step { commanding { live 1 with enabled := false, wr := 9 } ⟨0x80000000, 0, 0⟩ with schedule := [.fg] }) (·.wr) =
      some 0 ∧
    after (step { drainOf 9 8 with handler := .drain .advance, schedule := [.irq] }) (·.rd) = some 9 ∧
    after (step { drainOf 9 8 with schedule := [.reset] }) (·.rd) = some 0 := by decide

/-- The moves of those steps, and the least and the greatest number of slots. -/
theorem witness_CursorOwnership_moves :
    ({ inFlight 1 true false .writeCommitted with schedule := [.pipe] } : State).nextMove = some .pipe ∧
    (inFlight 1 true false .writeCommitted).nextMove = some .pipe ∧
    ({ drainOf 9 8 with handler := .drain .advance } : State).nextMove = some .irq ∧
    (drainOf 9 8).slotCountOk ∧ (State.powerUp (2 ^ 0)).slotCountOk := by decide

/-- A ring of four slots through an APPEND and through a reset. -/
theorem witness_SlotCountIsFixed :
    let s := { inFlight 1 true false .writeCommitted with slots := [1, 2, 3, 4] }
    after (step { s with schedule := [.pipe] }) (·.slotCount) = some 4 ∧
    after (step { s with schedule := [.reset] }) (·.slotCount) = some 4 := by decide

theorem witness_ResetSatisfiesInvariant : 0 ≤ 32 ∧ 32 ≤ 32 := by decide

theorem witness_LookupFetchesFusedEntry :
    (let s := inFlight 0 false false .addressCaptured;
      s.phase = .addressCaptured ∧ s.tGated = false ∧ s.tIsWrite = false) ∧
    (let s := inFlight 0 true false .addressCaptured;
      s.phase = .addressCaptured ∧ s.tGated = false ∧ s.tIsWrite = true ∧ writable (s.readP s.tAddr.toNat) = true) ∧
    (let s := inFlight 3 true false .addressCaptured;
      s.phase = .addressCaptured ∧ s.tGated = false ∧ s.tIsWrite = true ∧ writable (s.readP s.tAddr.toNat) = false) := by
  decide

theorem witness_CommitStoresLatchedByte :
    let s := inFlight 2 true true .addressCaptured
    s.phase = .addressCaptured ∧ s.tGated = true := by decide

theorem witness_AppendLogsCommittedAddress :
    ((inFlight 1 true false .writeCommitted).phase = .writeCommitted ∧ (inFlight 1 true false .writeCommitted).slotCountOk) ∧
    (inFlight 1 true false .eventLogged).phase ≠ .writeCommitted ∧
    after (exec .init { live 1 with enabled := false }) (·.enabled) = some true ∧
    after (exec .peekw (live 1)) (·.wr) = some 0 := by decide

theorem witness_RetireFreesTheSlot :
    (let s := inFlight 1 false false .readResolved; s.phase = .readResolved ∧ s.enabled = true ∧ s.stopping = false) ∧
    (let s := inFlight 1 true false .eventLogged; s.phase = .eventLogged ∧ s.enabled = true ∧ s.stopping = false) := by
  decide

theorem witness_TransactionsNeverBlock :
    (inFlight 1 true false .addressCaptured).phase ≠ .idle ∧ (live 1).phase = .idle := by decide

theorem witness_PipelineWritesOnlyItsOwn :
    (0x1233 ≠ (inFlight 1 true true .addressCaptured).tAddr.toNat) ∧ (inFlight 1 true false .addressCaptured).tGated = false := by
  decide

/-- The lookup still to come, and done; at the last address. -/
theorem witness_PermissionChangeSeenFromNextLookup (gated : Bool) :
    let s := { inFlight 1 true gated .addressCaptured with tAddr := 0xFFFF }
    s.canIssue ∧ (0xFFFF : Word).toNat < 65536 ∧ s.tAddr.toNat = (0xFFFF : Word).toNat ∧ s.phase = .addressCaptured ∧
      s.tIsWrite = true ∧ s.tGated = gated := by cases gated <;> decide

theorem witness_UnreadableBytesAreNotDriven :
    let s := inFlight 0 false false .addressCaptured
    s.phase = .addressCaptured ∧ s.tGated = false ∧ s.tIsWrite = false ∧ readable (s.readP s.tAddr.toNat) = false := by
  decide

theorem witness_ReadTransaction :
    let s := { live 1 with schedule := [.pipe, .pipe] }
    s.canAccept ∧ s.fatal = false ∧ s.schedule = .pipe :: .pipe :: [] := by decide

theorem witness_CommittedWriteTransaction :
    let s := { live 0 with schedule := [.pipe, .pipe, .pipe, .pipe], p := [(0, 0), (0xFFFF, 1)] }
    s.canAccept ∧ s.fatal = false ∧ writable (s.readP (0 : Address).toNat) = true ∧
      writable (s.readP (0xFFFF : Address).toNat) = true ∧ s.slotCountOk ∧ s.schedule = .pipe :: .pipe :: .pipe :: .pipe :: [] := by decide

theorem witness_IgnoredWriteTransaction :
    let s := { live 2 with schedule := [.pipe], p := [(0, 2), (0xFFFF, 3)] }
    s.canAccept ∧ s.fatal = false ∧ writable (s.readP (0 : Address).toNat) = false ∧
      writable (s.readP (0xFFFF : Address).toNat) = false ∧ s.schedule = .pipe :: [] := by decide

/-- Disabled (B14), stopping (C7), in flight. -/
theorem witness_BusCycleWithoutAccept :
    (State.reset.phase = .idle ∧ State.reset.enabled = false) ∧
    (let s := { live 1 with stopping := true }; s.phase = .idle ∧ s.stopping = true) ∧
    (inFlight 1 true true .addressCaptured).phase ≠ .idle := by decide

/-- At the last address with the slot idle, and inside the tear window (I3). -/
theorem witness_ReadByteOrTornByte :
    (let s := live 1;
      s.canIssue ∧ (0xFFFF : Word).toNat < 65536 ∧ ¬ (s.phase = .writeCommitted ∧ s.tAddr.toNat = (0xFFFF : Word).toNat)) ∧
    (let s := inFlight 1 true false .writeCommitted;
      s.canIssue ∧ (0x1234 : Word).toNat < 65536 ∧ s.phase = .writeCommitted ∧ s.tAddr.toNat = (0x1234 : Word).toNat) := by
  decide

/-- For FG and for a handler; the last address and the first outside (V3, V6, V9, V12). -/
theorem witness_WriteByte_SetPermission :
    (live 1).canIssue ∧ scripted.canIssue ∧ (0xFFFF : Word).toNat ≤ 65535 ∧ 65535 < (0x10000 : Word).toNat := by decide

theorem witness_WriteThenReadRoundTrip :
    let s := inFlight 1 true false .writeCommitted
    s.canIssue ∧ (0x1235 : Word).toNat < 65536 ∧ ¬ (s.phase = .writeCommitted ∧ s.tAddr.toNat = (0x1235 : Word).toNat) := by
  decide

/-- V3, K3, S9, K9, K10: the first sum outside, and the greatest. -/
theorem witness_RangeViolationsAbort :
    (live 1).canIssue ∧ 65536 < (0x10000 : Word).toNat + 1 ∧ 65536 < (0xFFFD : Word).toNat + 4 ∧
    65536 < (0xFFFF : Word).toNat + (2 : Word).toNat ∧ 65536 < (0x10001 : Word).toNat + (0 : Word).toNat ∧
    65536 < (0xFFFFFFFF : Word).toNat + (0xFFFFFFFF : Word).toNat := by decide

theorem witness_CommandsIgnorePermissions :
    (∀ a c, Instr.rdv 0x1234 ≠ .setp a c) ∧ (∀ a c n, Instr.rdv 0x1234 ≠ .setpr a c n) := by simp

/-- FG and a handler; two elements, one element at the top (K7), none at 65536 (K8). -/
theorem witness_FillRange_SetPermissionRange :
    (let s := { live 1 with schedule := [.fg] };
      s.canIssue ∧ (0xFFFE : Word).toNat + (2 : Word).toNat ≤ 65536 ∧
        s.schedule = List.replicate ((2 : Word).toNat - 1) s.ownMove ++ []) ∧
    (let s := { scripted with schedule := [.irq, .pipe] };
      s.canIssue ∧ (0xFFFE : Word).toNat + (2 : Word).toNat ≤ 65536 ∧
        s.schedule = List.replicate ((2 : Word).toNat - 1) s.ownMove ++ [.pipe]) ∧
    ((0xFFFF : Word).toNat + (1 : Word).toNat ≤ 65536 ∧ (0x10000 : Word).toNat + (0 : Word).toNat ≤ 65536 ∧
      (live 1).schedule = List.replicate ((0 : Word).toNat - 1) (live 1).ownMove ++ [] ∧
      (live 1).schedule = List.replicate ((1 : Word).toNat - 1) (live 1).ownMove ++ []) := by decide

/-- K12, one more byte offered than asked for. -/
theorem witness_CopyInPayload :
    let s := { live 1 with schedule := [.fg], fg := { Port.empty with sin := [0x48, 0x49, 0x50] } }
    s.canIssue ∧ (0xFFFE : Word).toNat + (2 : Word).toNat ≤ 65536 ∧ s.port.sin = [0x48, 0x49] ++ [0x50] ∧
      [(0x48 : Byte), 0x49].length = (2 : Word).toNat ∧
      s.schedule = List.replicate ((2 : Word).toNat - 1) s.ownMove ++ [] := by decide

theorem witness_CopyInWaitsForPayload :
    let s := live 1
    s.canIssue ∧ (0xFFFF : Word).toNat + (1 : Word).toNat ≤ 65536 ∧ 0 < (1 : Word).toNat ∧ s.port.sin = [] := by decide

/-- The second clause: earlier elements are stored, the last one waits, for FG and for a handler. -/
theorem witness_CopyInWaitsForPayload_inProgress :
    (let s := { live 1 with schedule := [.fg], fg := { Port.empty with op := some (.copyIn 0xFFFF 1) } };
      s.fatal = false ∧ 0 < 1 ∧ s.port.sin = [] ∧ s.port.op = some (.copyIn 0xFFFF 1) ∧ s.schedule = s.ownMove :: []) ∧
    (let s := { scripted with schedule := [.irq], irq := { Port.empty with op := some (.copyIn 0xFFFF 1) } };
      s.fatal = false ∧ 0 < 1 ∧ s.port.sin = [] ∧ s.port.op = some (.copyIn 0xFFFF 1) ∧ s.schedule = s.ownMove :: []) := by
  decide

theorem witness_CopyOutBytes :
    let s := { live 1 with schedule := [.fg] }
    (s.canIssue ∧ (0xFFFE : Word).toNat + (2 : Word).toNat ≤ 65536 ∧
      s.schedule = List.replicate ((2 : Word).toNat - 1) s.ownMove ++ []) ∧
    ∀ a, (0xFFFE : Word).toNat ≤ a → a < (0xFFFE : Word).toNat + (2 : Word).toNat → s.inTearWindow a = false :=
  ⟨by decide, fun _ _ _ => rfl⟩

/-- K2: the last address RDW32 admits. -/
theorem witness_ReadWideBigEndian :
    let s := { live 1 with schedule := [.fg, .fg, .fg] }
    (s.canIssue ∧ (0xFFFC : Word).toNat + 4 ≤ 65536 ∧ s.schedule = List.replicate 3 s.ownMove ++ []) ∧
    ∀ a, (0xFFFC : Word).toNat ≤ a → a < (0xFFFC : Word).toNat + 4 → s.inTearWindow a = false :=
  ⟨by decide, fun _ _ _ => rfl⟩

theorem witness_ElementsReadLikeRdv :
    let s := inFlight 1 true false .writeCommitted
    s.inTearWindow 0x1234 = true ∧ s.canIssue ∧ (0x1234 : Word).toNat = 0x1234 ∧ (0x1234 : Word).toNat + 4 ≤ 65536 ∧
      (0x1234 : Word).toNat + (2 : Word).toNat ≤ 65536 ∧ 1 < (2 : Word).toNat ∧ (1 : Word).toNat = 1 := by decide

/-- A FILL of FG while the handler takes a step. -/
theorem witness_SuspendedCommandResumes :
    let s := { drainOf 3 0 with schedule := [.irq], fg := { Port.empty with op := some (.fill 0x4002 2 0) } }
    s.nextMove ≠ some .fg ∧ s.fg.op = some (.fill 0x4002 2 0) ∧ after (step s) (·.boots) = some s.boots := by decide

/-- The same by a default move; FG's move, scheduled and by default. -/
theorem witness_SuspendedCommandResumes_resume :
    (let s := { drainOf 3 0 with fg := { Port.empty with op := some (.fill 0x4002 2 0) } };
      s.schedule = [] ∧ s.nextMove ≠ some .fg ∧ s.fg.op = some (.fill 0x4002 2 0) ∧
        after (step s) (·.boots) = some s.boots) ∧
    (let s := { live 1 with schedule := [.fg], fg := { Port.empty with op := some (.fill 0xFFFF 1 0) } };
      s.fatal = false ∧ s.handler = .off ∧ s.fg.op = some (.fill 0xFFFF 1 0)) ∧
    (let s := { live 1 with fg := { Port.empty with op := some (.fill 0xFFFF 1 0) } };
      s.fatal = false ∧ s.schedule = [] ∧ s.fg.op = some (.fill 0xFFFF 1 0) ∧ s.nextMove = some .fg) := by decide

theorem witness_PeekReturnsWriteCursor_ReadSlotReducesIndex : (live 1).canIssue ∧ (drainOf 3 0).canIssue := by decide

theorem witness_AdvanceReadCursor :
    (let s := drainOf 0 0xFFFFFFFF; s.canIssue ∧ s.handler ≠ .off ∧ s.rd ≠ s.wr ∧ s.rd + 1 = s.wr) ∧
    (let s := drainOf 3 3; s.canIssue ∧ s.handler ≠ .off ∧ s.rd = s.wr) ∧
    ((live 1).canIssue ∧ (live 1).handler = .off) := by decide

/-- None, seven, eight and 2^32 - 2 unread before an APPEND. -/
theorem witness_RingRefinesLossyQueue_append :
    ∀ u ∈ [(0 : Word), 7, 8, 0xFFFFFFFE],
      let s := { inFlight 1 true false .writeCommitted with wr := u }
      s.slotCountOk ∧ s.phase = .writeCommitted ∧ s.unread = u ∧ s.unread.toNat < 2 ^ 32 - 1 ∧
        s.nextMove = some .pipe := by
  intro u hu
  simp only [List.mem_cons, List.not_mem_nil, or_false] at hu
  rcases hu with rfl | rfl | rfl | rfl <;> exact
    ⟨⟨3, by decide, rfl⟩, rfl, by rfl, Nat.lt_of_lt_of_eq (by decide) (rfl : 0xFFFFFFFF = _), by decide⟩

/-- One and eight unread before RDSLOT; ADVR and INIT. -/
theorem witness_RingRefinesLossyQueue_consumer :
    ((drainOf 1 0).canIssue ∧ (drainOf 1 0).slotCountOk ∧ (drainOf 1 0).unread.toNat = 1) ∧
    ((drainOf 8 0).canIssue ∧ (drainOf 8 0).slotCount = 8 ∧ (drainOf 8 0).unread.toNat = 8) ∧
    after (exec .advr (drainOf 9 0)) (·.rd) = some 1 ∧
    after (exec .init { live 1 with enabled := false }) (·.fatal) = some false := by decide

/-- Nine unread (E3). -/
theorem witness_DrainSkipsLostEvents :
    let s := { drainOf 9 0 with schedule := [.irq, .irq] }
    s.fatal = false ∧ s.irq.op = none ∧ s.handler = .drain .peek ∧ s.consumerRd = s.rd ∧ s.slotCountOk ∧
      s.slotCount < s.unread.toNat ∧
      s.schedule = List.replicate (s.unread.toNat - s.slotCount + 1) .irq ++ [] := by decide

/-- None, and eight unread (E2), without the mode register among them. -/
theorem witness_DrainDeliversUnreadEventsInOrder (u : Word) (hu : u = 0 ∨ u = 8) :
    let s := { drainOf u 0 with schedule := List.replicate (4 * u.toNat + 1) .irq }
    s.fatal = false ∧ s.irq.op = none ∧ s.handler = .drain .peek ∧ s.consumerRd = s.rd ∧ s.slotCountOk ∧
      s.unread.toNat ≤ s.slotCount ∧ s.unread.toNat = u.toNat ∧ Config.modeReg ∉ s.unreadEvents ∧
      s.schedule = List.replicate (4 * s.unread.toNat + 1) .irq ++ [] := by
  rcases hu with rfl | rfl
  · decide
  · refine ⟨rfl, rfl, rfl, rfl, ⟨3, by decide, rfl⟩, by decide, by decide, by decide, rfl⟩

/-- An event for the mode register, with high-speed mode latched. -/
theorem witness_DrainDeliversUnreadEventsInOrder_latched :
    let s := { drainOf 1 0 with
      hsLatched := true, slots := [0xBFFE, 0, 0, 0, 0, 0, 0, 0], schedule := List.replicate 5 .irq }
    s.fatal = false ∧ s.irq.op = none ∧ s.handler = .drain .peek ∧ s.consumerRd = s.rd ∧ s.slotCountOk ∧
      s.unread.toNat ≤ s.slotCount ∧ s.hsLatched = true ∧ s.schedule = List.replicate (4 * s.unread.toNat + 1) .irq ++ [] := by
  refine ⟨rfl, rfl, rfl, rfl, ⟨3, by decide, rfl⟩, by decide, rfl, rfl⟩

/-- C1, C2, C3, and from a handler. -/
theorem witness_InitStartsPipeline :
    (let s := State.reset; s.canIssue ∧ s.handler = .off ∧ s.enabled = false ∧ s.resourcesOk = true) ∧
    (let s := { State.reset with resourcesOk := false };
      s.canIssue ∧ s.handler = .off ∧ s.enabled = false ∧ s.resourcesOk = false) ∧
    ((live 1).canIssue ∧ (live 1).handler = .off ∧ (live 1).enabled = true) ∧
    (scripted.canIssue ∧ scripted.handler ≠ .off) := by decide

/-- C5, by FG and by a handler. -/
theorem witness_ShutdownLetsTransactionFinish :
    (let s := { inFlight 1 true true .addressCaptured with schedule := [.pipe, .pipe, .pipe, .pipe, .fg] };
      s.canIssue ∧ s.enabled = true ∧ s.schedule = .pipe :: .pipe :: .pipe :: .pipe :: s.ownMove :: [] ∧ s.phase ≠ .idle) ∧
    (let s := { scripted with schedule := [.pipe, .pipe, .pipe, .pipe, .irq] };
      s.canIssue ∧ s.enabled = true ∧ s.schedule = .pipe :: .pipe :: .pipe :: .pipe :: s.ownMove :: []) := by decide

/-- Step 2 of FG's SHUTDOWN after the handler's. -/
theorem witness_ShutdownLetsTransactionFinish_disabled :
    let s := { State.reset with schedule := [.fg], fg := { Port.empty with op := some .shutdown } }
    s.fatal = false ∧ s.enabled = false ∧ s.stopping = false ∧ s.port.op = some .shutdown ∧
      s.schedule = s.ownMove :: [] := by decide

theorem witness_ShutdownWhileDisabled : State.reset.canIssue ∧ State.reset.enabled = false := by decide

/-- Nothing scheduled, and another agent's move; a command. -/
theorem witness_AbortIsFinal :
    (let s := { live 1 with fatal := true, fatalCode := 4 }; s.fatal = true ∧ ∀ rest, s.schedule ≠ .reset :: rest) ∧
    (let s := { live 1 with fatal := true, fatalCode := 4, schedule := [.pipe] };
      s.fatal = true ∧ ∀ rest, s.schedule ≠ .reset :: rest) ∧
    (∀ a d, Instr.peekw ≠ .brd a d) ∧ (∀ a d, Instr.peekw ≠ .bwr a d) := by
  refine ⟨⟨rfl, ?_⟩, ⟨rfl, ?_⟩, ?_, ?_⟩ <;> simp [live, State.reset, State.powerUp]

theorem witness_ReservedOpNumbersAbort : (live 1).canIssue ∧ scripted.canIssue := by decide

/-- The request stands; it is masked; it does not stand; the handler runs already. -/
theorem witness_HandlerEntry :
    (let s := { live 1 with wr := 1, schedule := [.enterReference] };
      s.fatal = false ∧ s.enabled = true ∧ s.wr ≠ s.rd ∧ s.irqMasked = false ∧ s.handler = .off) ∧
    (let s := { live 1 with wr := 1, irqMasked := true, schedule := [.enterScript] };
      s.fatal = false ∧ ¬ (s.enabled = true ∧ s.wr ≠ s.rd ∧ s.irqMasked = false ∧ s.handler = .off)) ∧
    (let s := { live 1 with schedule := [.enterReference] };
      s.fatal = false ∧ ¬ (s.enabled = true ∧ s.wr ≠ s.rd ∧ s.irqMasked = false ∧ s.handler = .off)) ∧
    (let s := { scripted with wr := 1, schedule := [.enterScript] };
      s.fatal = false ∧ ¬ (s.enabled = true ∧ s.wr ≠ s.rd ∧ s.irqMasked = false ∧ s.handler = .off)) := by decide

/-- The consumer runs with the request low; it is masked; it runs already. -/
theorem witness_HandlerEntry_anyTime :
    (let s := { live 1 with schedule := [.runReference] };
      s.fatal = false ∧ s.evtIrq = false ∧ s.irqMasked = false ∧ s.handler = .off) ∧
    (let s := { live 1 with schedule := [.runScript], irqMasked := true };
      s.fatal = false ∧ ¬ (s.irqMasked = false ∧ s.handler = .off)) ∧
    (let s := { scripted with schedule := [.runReference] };
      s.fatal = false ∧ ¬ (s.irqMasked = false ∧ s.handler = .off)) := by decide

theorem witness_PollAndClear :
    ((live 1).canIssue ∧ (live 1).handler = .off ∧ (0 : Byte).toNat < 2 ∧ (1 : Byte).toNat < 2) ∧
    (scripted.canIssue ∧ scripted.handler ≠ .off) ∧ 2 ≤ (2 : Byte).toNat := by decide

/-- The switch fires (N5); its bit is clear (N6); it is latched already (N7); another address (N8). -/
theorem witness_NotifyTests :
    (∀ b ∈ [(0x20 : Byte), 0xDF],
      let s := { drainOf 1 0 with handler := .drain (.notify 0xBFFE), schedule := [.irq], v := [(0xBFFE, b)] };
      s.fatal = false ∧ s.irq.op = none ∧ ¬ (s.phase = .writeCommitted ∧ s.tAddr = 0xBFFE) ∧
        ((s.readV (0xBFFE : Address).toNat).getLsbD 5 = true ↔ b = 0x20) ∧ s.hsLatched = false) ∧
    (let s := { drainOf 1 0 with
        handler := .drain (.notify 0xBFFE), schedule := [.irq], v := [(0xBFFE, 0xFF)], hsLatched := true };
      s.fatal = false ∧ s.irq.op = none ∧ ¬ (s.phase = .writeCommitted ∧ s.tAddr = 0xBFFE) ∧ s.hsLatched ≠ false) ∧
    (let s := { drainOf 1 0 with handler := .drain (.notify 0x1234), schedule := [.irq] };
      s.fatal = false ∧ s.irq.op = none ∧ ¬ (s.phase = .writeCommitted ∧ s.tAddr = 0x1234)) := by decide

theorem witness_ModeSwitchReboots :
    let s := { drainOf 1 0 with handler := .drain .latchHighSpeed, schedule := [.irq, .irq, .irq, .irq, .irq] }
    s.fatal = false ∧ s.irq.op = none ∧ s.enabled = true ∧ s.phase = .idle ∧ s.resourcesOk = true ∧
      s.schedule = List.replicate 5 .irq ++ [] := by decide

/-- POLLCLR of the other flag; ADVR of the handler. -/
theorem witness_StickyFlagsStaySet :
    after (exec (.pollclr 1) { live 1 with flagVideo := true }) (·.flagVideo) = some true ∧
    after (handlerStep .advance { drainOf 1 0 with flagVideo := true, flagSound := true })
      (fun t => (t.flagVideo, t.flagSound)) = some (true, true) := by decide

end Sys2Proof.Tests
end

section
/-! PROOFS. The family of 40_bus_transactions.md: what the commit, the lookup and the retirement of a transaction do, and
the bound on a transaction's steps. -/

namespace Sys2Proof.Machine

variable (s : State)

/-! ## COMMIT (R148) -/

/-- The committed byte is read back at the latched address, and nowhere else. -/
theorem readV_commit (b : Nat) :
    (commit s).readV b = if b = s.tAddr.toNat then s.tWdata else s.readV b :=
  calc (commit s).readV b
    _ = (s.writeV s.tAddr.toNat s.tWdata).readV b := State.readV_congr (by simp) (by simp) b
    _ = if b = s.tAddr.toNat then s.tWdata else s.readV b := s.readV_writeV _ b _

@[simp] theorem readP_commit (b : Nat) : (commit s).readP b = s.readP b :=
  State.readP_congr (commit_p s) (commit_boots s) b

/-- R66: the COMMIT opens the tear window, at the latched address alone. -/
@[simp] theorem inTearWindow_commit (a : Nat) : (commit s).inTearWindow a = (s.tAddr.toNat == a) := by
  simp [State.inTearWindow]

/-- The frame of COMMIT, with the value plane left open. -/
theorem commit_frame :
    commit s = { s with
      v := (commit s).v, tOld := s.readV s.tAddr.toNat, tGated := false, phase := .writeCommitted } := rfl

/-! ## RETIRE (R150) -/

@[simp] theorem xDriveEn_retire : (retire s).xDriveEn = false := by simp [State.xDriveEn]

/-- ACCEPT is enabled after a RETIRE where the pipeline lets transactions start. -/
theorem canAccept_retire : (retire s).canAccept ↔ s.enabled = true ∧ s.stopping = false := by
  simp [State.canAccept]

/-! ## LOOKUP (R144) -/

/-- The code the gate looks at is the stored one. -/
@[simp] theorem entryPerm_entryAt (a : Nat) : entryPerm (s.entryAt a) = s.readP a := entryPerm_fuse _ _

/-- A read is resolved by its lookup, driven or not. -/
theorem lookup_phase_of_read (hr : s.tIsWrite = false) : (lookup s).phase = .readResolved := by
  simp only [lookup, hr, Bool.false_eq_true, if_false]
  split
  · rfl
  · rfl

/-- A write that the gate allows is forwarded to its commit. -/
theorem lookup_of_allowed (hw : s.tIsWrite = true) (hp : writable (s.readP s.tAddr.toNat) = true) :
    lookup s = { s with tEntry := s.entryAt s.tAddr.toNat, tGated := true } := by
  simp [lookup, hw, hp]

/-- A write that the gate forbids ends at its lookup. -/
theorem lookup_of_ignored (hw : s.tIsWrite = true) (hp : writable (s.readP s.tAddr.toNat) = false) :
    lookup s = { s with tEntry := s.entryAt s.tAddr.toNat, phase := .idle } := by
  simp [lookup, hw, hp]

/-- The three ends of a lookup: the read is resolved, the write is ignored, or the write is gated and stays captured. -/
theorem lookup_cases :
    (lookup s).phase = .readResolved ∨ (lookup s).phase = .idle ∨
      (lookup s).phase = s.phase ∧ (lookup s).tGated = true := by
  cases hw : s.tIsWrite with
  | false => exact .inl (lookup_phase_of_read s hw)
  | true =>
    cases hp : writable (s.readP s.tAddr.toNat) with
    | false => exact .inr (.inl (by rw [lookup_of_ignored s hw hp]))
    | true => exact .inr (.inr (by simp [lookup_of_allowed s hw hp]))

/-! ## A transaction's steps (R140, R153) -/

/-- Where a transaction is in flight, the pipeline's step moves it to another phase, or gates the captured write. -/
theorem pipeStep_progress (h : s.phase ≠ .idle) :
    (pipeStep s).phase ≠ s.phase ∨ (s.tGated = false ∧ (pipeStep s).tGated = true) := by
  cases hp : s.phase with
  | idle => exact absurd hp h
  | readResolved => simp [pipeStep_retire s (.inl hp)]
  | writeCommitted => simp [pipeStep_append s hp]
  | eventLogged => simp [pipeStep_retire s (.inr hp)]
  | addressCaptured =>
    cases hg : s.tGated with
    | true => simp [pipeStep_commit s hp hg]
    | false =>
      rw [pipeStep_lookup s hp hg]
      rcases lookup_cases s with hl | hl | ⟨-, hl⟩ <;> simp [hl]

/-- How many pipeline steps the transaction in flight has left at most. -/
def State.pipeStepsLeft (s : State) : Nat :=
  match s.phase with
  | .idle => 0
  | .addressCaptured => if s.tGated then 3 else 4
  | .readResolved => 1
  | .writeCommitted => 2
  | .eventLogged => 1

theorem State.pipeStepsLeft_le_four : s.pipeStepsLeft ≤ 4 := by
  unfold State.pipeStepsLeft
  cases s.phase <;> cases s.tGated <;> simp

/-- No step is left exactly when the slot is idle. -/
theorem State.pipeStepsLeft_eq_zero : s.pipeStepsLeft = 0 ↔ s.phase = .idle := by
  unfold State.pipeStepsLeft
  cases s.phase <;> cases s.tGated <;> simp

/-- Every pipeline step of a transaction leaves fewer. -/
theorem pipeStepsLeft_pipeStep_lt (h : s.phase ≠ .idle) : (pipeStep s).pipeStepsLeft < s.pipeStepsLeft := by
  cases hp : s.phase with
  | idle => exact absurd hp h
  | readResolved => simp [pipeStep_retire s (.inl hp), State.pipeStepsLeft, hp]
  | writeCommitted => simp [pipeStep_append s hp, State.pipeStepsLeft, hp]
  | eventLogged => simp [pipeStep_retire s (.inr hp), State.pipeStepsLeft, hp]
  | addressCaptured =>
    cases hg : s.tGated with
    | true => simp [pipeStep_commit s hp hg, State.pipeStepsLeft, hp, hg]
    | false =>
      rw [pipeStep_lookup s hp hg]
      rcases lookup_cases s with hl | hl | ⟨hl, hl'⟩
      · simp [State.pipeStepsLeft, hp, hg, hl]
      · simp [State.pipeStepsLeft, hp, hg, hl]
      · simp [State.pipeStepsLeft, hp, hg, hl, hl']

/-- As many pipeline steps as are left at most reach IDLE. -/
theorem pipeStep_reaches_idle (n : Nat) (h : s.pipeStepsLeft ≤ n) :
    ∃ k, k ≤ n ∧ ((pipeStep^[k]) s).phase = .idle := by
  induction n generalizing s with
  | zero => exact ⟨0, le_rfl, s.pipeStepsLeft_eq_zero.mp (Nat.le_zero.mp h)⟩
  | succ n ih =>
    by_cases hp : s.phase = .idle
    · exact ⟨0, Nat.zero_le _, hp⟩
    · have hlt := pipeStepsLeft_pipeStep_lt s hp
      obtain ⟨k, hk, hidle⟩ := ih (pipeStep s) (by omega)
      exact ⟨k + 1, by omega, hidle⟩

end Sys2Proof.Machine

/-! ## The obligations -/

namespace Sys2Proof.Proofs

open Sys2Proof.Machine

/-- Settles O20: every pipeline step leaves fewer of at most four. -/
theorem transactionsNeverBlock : Obligations.TransactionsNeverBlock :=
  ⟨pipeStep_progress, pipeStep_idle, fun s => pipeStep_reaches_idle s 4 s.pipeStepsLeft_le_four⟩

/-- Settles O17: the pipeline's step is COMMIT, which asks nothing of the permission. -/
theorem commitStoresLatchedByte : Obligations.CommitStoresLatchedByte := by
  intro s hp hg
  rw [pipeStep_commit s hp hg]
  refine ⟨?stored, ?others, readP_commit s, ?window, commit_frame s⟩
  case stored => simp [readV_commit]
  case others => intro b hb; simp [readV_commit, hb]
  case window => simp

/-- Settles O19: the pipeline's step is RETIRE in both phases. -/
theorem retireFreesTheSlot : Obligations.RetireFreesTheSlot := by
  intro s hp
  rw [pipeStep_retire s hp]
  exact ⟨rfl, xDriveEn_retire s, fun he hs => (canAccept_retire s).mpr ⟨he, hs⟩⟩

end Sys2Proof.Proofs
end

section
/-! PROOFS. The family of 43_eventlog.md: PEEKW reads the producer's cursor. -/

namespace Sys2Proof.Machine

variable (s : State)

/-- R233: PEEKW asks only that a command can be issued, and completes with the write cursor. -/
theorem exec_peekw_of_canIssue (h : s.canIssue) : exec .peekw s = .next (s.finish (.word s.wr)) := by
  obtain ⟨hfatal, hop⟩ := h
  calc exec .peekw s
    _ = fportCommand (fun s => .next (s.finish (.word s.wr))) s := rfl
    _ = .next (s.finish (.word s.wr)) := fportCommand_of_ready s hfatal hop

end Sys2Proof.Machine

namespace Sys2Proof.Proofs

open Sys2Proof.Machine

/-- Settles O42: the words are read and written as PEEKW, and its one step completes with the write cursor. -/
theorem peekReturnsWriteCursor : Obligations.PeekReturnsWriteCursor := by
  refine ⟨?decoded, ?encoded, ?executed⟩
  case decoded => decide
  case encoded => decide
  case executed =>
    intro s hs
    exact ⟨s.finish (.word s.wr), exec_peekw_of_canIssue s hs, by simp, rfl⟩

end Sys2Proof.Proofs
end

section
/-! PROOFS. The encodings: when the decoder rejects a command, and that a command's words are their five fields. -/

namespace Sys2Proof

/-! ## When a command is rejected (30_encoding.md R112; 45_reference_consumer.md R285) -/

/-- The decoder accepts exactly the reserved op numbers and the words whose must-be-zero fields are 0 and whose flag id,
if they carry one, is known. -/
theorem illegalField_eq_none_iff (w0 w1 w2 : Word) :
    illegalField w0 w1 w2 = none ↔
      14 ≤ (opField w0).toNat ∨
        (zeroField w0 = 0 ∧ (usesCode (opField w0).toNat = false → codeField w0 = 0) ∧
          (usesData (opField w0).toNat = false → dataField w0 = 0) ∧
          (usesAddr (opField w0).toNat = false → w1 = 0) ∧ (usesCount (opField w0).toNat = false → w2 = 0) ∧
          ((opField w0).toNat = 13 → (dataField w0).toNat < 2)) := by
  unfold illegalField
  simp only
  split_ifs with hop hzero hcode hdata haddr hcount hflag
  · exact iff_of_true rfl (.inl hop)
  · exact iff_of_false nofun (not_or.mpr ⟨hop, fun ⟨h, _⟩ => hzero h⟩)
  · exact iff_of_false nofun (not_or.mpr ⟨hop, fun ⟨_, h, _⟩ => hcode.2 (h hcode.1)⟩)
  · exact iff_of_false nofun (not_or.mpr ⟨hop, fun ⟨_, _, h, _⟩ => hdata.2 (h hdata.1)⟩)
  · exact iff_of_false nofun (not_or.mpr ⟨hop, fun ⟨_, _, _, h, _⟩ => haddr.2 (h haddr.1)⟩)
  · exact iff_of_false nofun (not_or.mpr ⟨hop, fun ⟨_, _, _, _, h, _⟩ => hcount.2 (h hcount.1)⟩)
  · exact iff_of_false nofun (not_or.mpr ⟨hop, fun ⟨_, _, _, _, _, h⟩ => Nat.not_lt.mpr hflag.2 (h hflag.1)⟩)
  · refine iff_of_true rfl (.inr ⟨?_, ?_, ?_, ?_, ?_, ?_⟩)
    · exact not_not.mp hzero
    · exact fun h => not_not.mp fun h' => hcode ⟨h, h'⟩
    · exact fun h => not_not.mp fun h' => hdata ⟨h, h'⟩
    · exact fun h => not_not.mp fun h' => haddr ⟨h, h'⟩
    · exact fun h => not_not.mp fun h' => hcount ⟨h, h'⟩
    · exact fun h => Nat.lt_of_not_le fun h' => hflag ⟨h, h'⟩

theorem decodeCmd_eq_ok_iff (w0 w1 w2 : Word) (i : Instr) :
    decodeCmd w0 w1 w2 = .ok i ↔ illegalField w0 w1 w2 = none ∧ operation w0 w1 w2 = i := by
  unfold decodeCmd
  cases illegalField w0 w1 w2 <;> simp

theorem decodeCmd_eq_error_iff (w0 w1 w2 : Word) :
    (∃ e, decodeCmd w0 w1 w2 = .error e) ↔ illegalField w0 w1 w2 ≠ none := by
  unfold decodeCmd
  cases illegalField w0 w1 w2 <;> simp

/-- Op number 14 decodes to its own operation, whatever stands beside it. -/
theorem decodeCmd_of_op_fourteen {w0 : Word} (h : (opField w0).toNat = 14) (w1 w2 : Word) :
    decodeCmd w0 w1 w2 = .ok (.reservedE (w0.extractLsb' 0 28) w1 w2) := by
  rw [decodeCmd_eq_ok_iff, illegalField_eq_none_iff]
  exact ⟨.inl (by omega), by simp [operation, h]⟩

/-- Op number 15 decodes to its own operation, whatever stands beside it. -/
theorem decodeCmd_of_op_fifteen {w0 : Word} (h : (opField w0).toNat = 15) (w1 w2 : Word) :
    decodeCmd w0 w1 w2 = .ok (.reservedF (w0.extractLsb' 0 28) w1 w2) := by
  rw [decodeCmd_eq_ok_iff, illegalField_eq_none_iff]
  exact ⟨.inl (by omega), by simp [operation, h]⟩

/-! ## A first word is its fields (R108) -/

/-- The word of an op number, with 0 in the must-be-zero bits, is put together from its own fields. -/
theorem eq_cmdWord_of_zeroField {w0 : Word} (h : zeroField w0 = 0) :
    w0 = cmdWord (opField w0) (codeField w0) (dataField w0) := by
  apply BitVec.eq_of_getLsbD_eq
  intro i hi
  have hzero : w0.getLsbD i = true → ¬ (10 ≤ i ∧ i < 28) := by
    intro hbit hrange
    have := congrArg (·.getLsbD (i - 10)) h
    simp [zeroField, show 10 + (i - 10) = i by omega, hbit, show i - 10 < 18 by omega] at this
  rw [cmdWord_bit, opField, codeField, dataField, BitVec.getLsbD_extractLsb', BitVec.getLsbD_extractLsb',
    BitVec.getLsbD_extractLsb']
  split_ifs with h8 h10 h28
  · simp [h8]
  · simp [show 8 + (i - 8) = i by omega, show i - 8 < 2 by omega]
  · simpa using fun hbit => hzero hbit ⟨by omega, h28⟩
  · simp [show 28 + (i - 28) = i by omega, show i - 28 < 4 by omega]

/-- The word of a reserved op number is its op number and the other 28 bits. -/
theorem eq_append_opField (w0 : Word) : w0 = opField w0 ++ w0.extractLsb' 0 28 := by
  apply BitVec.eq_of_getLsbD_eq
  intro i hi
  refine Eq.trans ?_ (BitVec.getLsbD_append (x := opField w0) (y := w0.extractLsb' 0 28)).symm
  rw [opField, BitVec.getLsbD_extractLsb', BitVec.getLsbD_extractLsb']
  split_ifs with h
  · simp [h]
  · simp [show 28 + (i - 28) = i by omega, show i - 28 < 4 by omega]

theorem extractLsb'_append_low (op : BitVec 4) (low : BitVec 28) :
    (op ++ low : Word).extractLsb' 0 28 = low := by
  apply BitVec.eq_of_getLsbD_eq
  intro i hi
  rw [BitVec.getLsbD_extractLsb']
  refine (congrArg (decide (i < 28) && ·) (BitVec.getLsbD_append (x := op) (y := low))).trans ?_
  simp [hi]

/-- A request word read and written again is itself, with the bits the port does not carry cleared (R101). -/
theorem encode_decodeReq (w : Word) : encode (decodeReq w) = .req (w &&& 0x01FFFFFF) := by
  have hword : reqWord (w.getLsbD 24) (w.extractLsb' 0 16) (w.extractLsb' 16 8) = w &&& 0x01FFFFFF := by
    apply BitVec.eq_of_getLsbD_eq
    intro i hi
    have hmask : (0x01FFFFFF : Word).getLsbD i = decide (i < 25) := by
      rw [show (0x01FFFFFF : Word) = BitVec.ofNat 32 (2 ^ 25 - 1) from rfl, BitVec.getLsbD_ofNat,
        Nat.testBit_two_pow_sub_one]
      simp [hi]
    rw [reqWord_bit, BitVec.getLsbD_and, hmask, BitVec.getLsbD_extractLsb', BitVec.getLsbD_extractLsb']
    split_ifs with h16 h24 heq
    · simp [h16, show i < 25 by omega]
    · simp [show 16 + (i - 16) = i by omega, show i - 16 < 8 by omega, show i < 25 by omega]
    · simp [heq]
    · simp [show ¬ i < 25 by omega]
  rw [← hword]
  unfold decodeReq
  cases w.getLsbD 24
  · rfl
  · rfl

/-! ## Writing what was read -/

/-- What the decoder accepts is well formed, and is written as the words it was read from. -/
theorem encode_operation {w0 w1 w2 : Word} (h : illegalField w0 w1 w2 = none) :
    (operation w0 w1 w2).wellFormed = true ∧ encode (operation w0 w1 w2) = .cmd w0 w1 w2 := by
  have hlt : (opField w0).toNat < 16 := (opField w0).isLt
  have hop : opField w0 = BitVec.ofNat 4 (opField w0).toNat := by simp
  by_cases hreserved : 14 ≤ (opField w0).toNat
  case pos =>
    have hw := eq_append_opField w0
    rw [hop] at hw
    unfold operation
    generalize (opField w0).toNat = n at *
    interval_cases n
    · exact ⟨rfl, congrArg (PortWords.cmd · w1 w2) hw.symm⟩
    · exact ⟨rfl, congrArg (PortWords.cmd · w1 w2) hw.symm⟩
  case neg =>
    obtain ⟨hzero, hcode, hdata, haddr, hcount, hflag⟩ :=
      ((illegalField_eq_none_iff w0 w1 w2).mp h).resolve_left hreserved
    have hw := eq_cmdWord_of_zeroField hzero
    rw [hop] at hw
    unfold operation
    generalize (opField w0).toNat = n at *
    rw [Nat.not_le] at hreserved
    generalize codeField w0 = code at *
    generalize dataField w0 = data at *
    subst hw
    interval_cases n
    all_goals
      simp [usesCode, usesData, usesAddr, usesCount] at hcode hdata haddr hcount hflag
      simp [encode, Instr.wellFormed, hcode, hdata, haddr, hcount, hflag]

end Sys2Proof

namespace Sys2Proof.Proofs

/-- Settles O1: each operation's words carry 0 in every field that its op number does not use, which the decoder asks. -/
theorem decodeEncodeAgree : Obligations.DecodeEncodeAgree := by
  intro i hwf
  cases i with
  | brd addr wdata => exact congrArg Except.ok (decodeReq_reqWord false addr wdata)
  | bwr addr wdata => exact congrArg Except.ok (decodeReq_reqWord true addr wdata)
  | reservedE low w1 w2 =>
    exact (decodeCmd_of_op_fourteen (congrArg BitVec.toNat (Laws.OpNumber.opField_reserved 14 low)) w1 w2).trans
      (congrArg (fun low => Except.ok (Instr.reservedE low w1 w2)) (extractLsb'_append_low 14 low))
  | reservedF low w1 w2 =>
    exact (decodeCmd_of_op_fifteen (congrArg BitVec.toNat (Laws.OpNumber.opField_reserved 15 low)) w1 w2).trans
      (congrArg (fun low => Except.ok (Instr.reservedF low w1 w2)) (extractLsb'_append_low 15 low))
  | pollclr flag =>
    have hflag : flag.toNat < 2 := by simpa [Instr.wellFormed] using hwf
    simp [decode, encode, decodeCmd_eq_ok_iff, illegalField_eq_none_iff, operation, usesCode, usesData, hflag]
  | _ =>
    simp [decode, encode, decodeCmd_eq_ok_iff, illegalField_eq_none_iff, operation, usesCode, usesData, usesAddr,
      usesCount]

/-- Settles O2. -/
theorem encodeDecodeAgree : Obligations.EncodeDecodeAgree := by
  refine ⟨fun w0 w1 w2 i h => ?command, fun w => ⟨rfl, encode_decodeReq w⟩⟩
  case command =>
    obtain ⟨hlegal, rfl⟩ := (decodeCmd_eq_ok_iff w0 w1 w2 i).mp h
    exact encode_operation hlegal

/-- Settles O3: the decoder's fields are the divisions of the statement, and a rejection is the failure of one of the
conditions under which the decoder accepts. -/
theorem mustBeZeroFieldsEnforced : Obligations.MustBeZeroFieldsEnforced := by
  intro w0 w1 w2 op mustBeZero code data
  have hop : (opField w0).toNat = op := by
    have := w0.isLt
    simp [opField, Nat.shiftRight_eq_div_pow, op]
    omega
  have hzero : zeroField w0 = 0 ↔ mustBeZero = 0 := by
    simp [← BitVec.toNat_inj, zeroField, Nat.shiftRight_eq_div_pow, mustBeZero]
  have hcode : codeField w0 = 0 ↔ code = 0 := by
    simp [← BitVec.toNat_inj, codeField, Nat.shiftRight_eq_div_pow, code]
  have hdata : (dataField w0).toNat = data := by simp [dataField, data]
  have hdata0 : dataField w0 = 0 ↔ data = 0 := by rw [← BitVec.toNat_inj, hdata]; rfl
  have hw (w : Word) : w = 0 ↔ w.toNat = 0 := by rw [← BitVec.toNat_inj]; rfl
  have hlow : (w0.extractLsb' 0 28).toNat = w0.toNat % 2 ^ 28 := by simp
  refine ⟨?rejected, fun h14 => ⟨_, hlow, decodeCmd_of_op_fourteen (hop.trans h14) w1 w2⟩,
    fun h15 => ⟨_, hlow, decodeCmd_of_op_fifteen (hop.trans h15) w1 w2⟩⟩
  case rejected =>
    refine (decodeCmd_eq_error_iff w0 w1 w2).trans ((not_congr (illegalField_eq_none_iff w0 w1 w2)).trans ?_)
    rw [hop, hzero, hcode, hdata0, hdata, hw w1, hw w2]
    simp only [usesCode, usesData, usesAddr, usesCount, Bool.or_eq_false_iff, beq_eq_false_iff_ne, decide_eq_false_iff_not]
    omega

/-- Settles O4: eleven fixed words, evaluated. -/
theorem wordsOfTheTestVectors : Obligations.WordsOfTheTestVectors := by
  unfold Obligations.WordsOfTheTestVectors
  decide

end Sys2Proof.Proofs

end

section
/-! PROOFS. What one step can do, said once for each layer of the machine: an element of a store command, an operation,
a request, the reference handler, a move. The statements about every step are read off these. -/

namespace Sys2Proof.Machine

variable (s : State)

/-! ## Store commands -/

/-- What one element of a store command does before its context's port is written. `ok` says that the operands are inside
the store. -/
inductive Touched (ok : Prop) (s : State) : State → Prop
  | nothing : Touched ok s s
  | read (a : Nat) : Touched ok s (s.afterPortBRead a)
  | value (a : Nat) (b : Byte) (ha : ok → a < Config.space) : Touched ok s (s.writeV a b)
  | code (a : Nat) (c : Perm) (ha : ok → a < Config.space) : Touched ok s (s.writeP a c)

/-- What one step of a store command does: an element and its context's port, or the abort. -/
inductive StoreEffect (ok : Prop) (s : State) : State → Prop
  | port {u : State} (hu : Touched ok s u) (f : Port → Port)
      (hf : ok → ∀ p, (f s.port).op = some p → p.inStore) : StoreEffect ok s (u.modifyPort f)
  | abort (c : FatalCause) : StoreEffect ok s (s.raiseFatal c)

variable {s} {t : State} {ok : Prop}

/-- Completing a command is a change at its context's port. -/
theorem StoreEffect.finish {u : State} (hu : Touched ok s u) (r : Result) : StoreEffect ok s (u.finish r) :=
  .port hu _ fun _ _ h => by simp at h

/-- So is going on with it. -/
theorem StoreEffect.suspend {u : State} (hu : Touched ok s u) {p : Pending} (hp : ok → p.inStore) :
    StoreEffect ok s (u.suspend p) :=
  .port hu _ fun h q hq => by
    simp only [Option.some.injEq] at hq
    exact hq ▸ hp h

/-- After an element the command completes, or goes on with what is left of it. -/
theorem StoreEffect.proceed {u : State} (hu : Touched ok s u) {k : Nat} {p : Pending} (r : Result)
    (hp : ok → 0 < k → p.inStore) : StoreEffect ok s (u.proceed k p r) := by
  unfold State.proceed
  split_ifs with hk
  · exact .finish hu r
  · exact .suspend hu fun h => hp h (Nat.pos_of_ne_zero hk)

theorem readWideElement_effect (next left : Nat) (got : List Byte) :
    StoreEffect (next + left ≤ Config.space ∧ got.length + left = 4) s (readWideElement next left got s) := by
  cases left with
  | zero => exact .finish .nothing _
  | succ k => exact .proceed (.read next) _ fun h hk => ⟨hk, by omega, by simp; omega⟩

theorem fillElement_effect (next left : Nat) (value : Byte) :
    StoreEffect (next + left ≤ Config.space) s (fillElement next left value s) := by
  cases left with
  | zero => exact .finish .nothing _
  | succ k => exact .proceed (.value next value fun h => by omega) _ fun h hk => ⟨hk, by omega⟩

theorem copyInElement_effect (next left : Nat) :
    StoreEffect (next + left ≤ Config.space) s (copyInElement next left s) := by
  cases left with
  | zero => exact .finish .nothing _
  | succ k =>
    unfold copyInElement
    cases s.port.sin with
    | nil => exact .suspend .nothing fun h => ⟨Nat.succ_pos k, h⟩
    | cons b rest =>
      simp only [State.proceed]
      split_ifs with hk
      · rw [State.finish, State.modifyPort_modifyPort]
        exact .port (.value next b fun h => by omega) _ fun _ _ h => by simp at h
      · rw [State.suspend, State.modifyPort_modifyPort]
        refine .port (.value next b fun h => by omega) _ fun h q hq => ?_
        simp only [Function.comp, Option.some.injEq] at hq
        exact hq ▸ ⟨Nat.pos_of_ne_zero hk, by omega⟩

theorem copyOutElement_effect (next left : Nat) (got : List Byte) :
    StoreEffect (next + left ≤ Config.space) s (copyOutElement next left got s) := by
  cases left with
  | zero => exact .finish .nothing _
  | succ k => exact .proceed (.read next) _ fun h hk => ⟨hk, by omega⟩

theorem setPermElement_effect (next left : Nat) (code : Perm) :
    StoreEffect (next + left ≤ Config.space) s (setPermElement next left code s) := by
  cases left with
  | zero => exact .finish .nothing _
  | succ k => exact .proceed (.code next code fun h => by omega) _ fun h hk => ⟨hk, by omega⟩

/-- Less is said where less is known of the operands. -/
theorem StoreEffect.imp {ok' : Prop} (h : StoreEffect ok s t) (hok : ok' → ok) : StoreEffect ok' s t := by
  cases h with
  | abort c => exact .abort c
  | port hu f hf =>
    refine .port ?_ f fun h => hf (hok h)
    cases hu with
    | nothing => exact .nothing
    | read a => exact .read a
    | value a b ha => exact .value a b fun h => ha (hok h)
    | code a c ha => exact .code a c fun h => ha (hok h)

/-- A range-checked command has the effect of its body inside the store, and aborts outside it. -/
theorem rangeChecked_effect {cause : FatalCause} {addr : Word} {n : Nat} {body : State → State}
    (hbody : addr.toNat + n ≤ 65536 → StoreEffect True s (body s)) (h : rangeChecked cause addr n body s = .next t) :
    StoreEffect True s t := by
  obtain ⟨-, -, ⟨hr, rfl⟩ | ⟨-, rfl⟩⟩ := rangeChecked_eq_next s h
  · exact hbody hr
  · exact .abort cause

/-! ## Operations -/

/-- What a request at the X-port does. -/
inductive RequestEffect (s : State) : State → Prop
  | accepted (addr : Address) (isWrite : Bool) (wdata : Byte) (h : s.canAccept) : RequestEffect s (accept addr isWrite wdata s)
  | undriven : RequestEffect s s.undrivenRead
  | lost : RequestEffect s s

/-- What an operation does. -/
inductive ExecEffect (s : State) : Instr → State → Prop
  | request {i : Instr} {t : State} (h : RequestEffect s t) : ExecEffect s i t
  | command {i : Instr} {t : State} (h : StoreEffect True s t) : ExecEffect s i t
  | started (hh : s.handler = .off) (he : s.enabled = false) :
      ExecEffect s .init ((initConsumer (initBlock s)).finish .none)
  | stopping {i : Instr} (he : s.enabled = true) : ExecEffect s i (({ s with stopping := true }).suspend .shutdown)
  | advanced (hh : s.handler ≠ .off) (hne : s.rd ≠ s.wr) :
      ExecEffect s .advr (({ s with rd := s.rd + 1, consumerRd := s.consumerRd + 1 }).finish .none)
  | polled (flag : Byte) (hh : s.handler = .off) :
      ExecEffect s (.pollclr flag) (({ s.clearFlag flag with irqMasked := false }).finish (.bit (s.flag flag)))

theorem busRequest_effect {addr : Address} {isWrite : Bool} {wdata : Byte} {lost : State → State}
    (hlost : RequestEffect s (lost s)) (h : busRequest addr isWrite wdata lost s = .next t) : RequestEffect s t := by
  unfold busRequest at h
  split_ifs at h with hphase hlive
  · cases h
    obtain ⟨he, hs⟩ : s.enabled = true ∧ s.stopping = false := by simpa using hlive
    exact .accepted _ _ _ ⟨he, hs, not_not.mp hphase⟩
  · cases h
    exact hlost

theorem exec_decodeReq_effect {w : Word} (h : exec (decodeReq w) s = .next t) : RequestEffect s t := by
  unfold decodeReq at h
  simp only at h
  split_ifs at h
  · exact busRequest_effect .lost h
  · exact busRequest_effect .undriven h

theorem execRdv_effect {addr : Word} (h : execRdv addr s = .next t) : StoreEffect True s t :=
  rangeChecked_effect (fun _ => .finish (.read _) _) h

theorem execWrv_effect {addr : Word} {value : Byte} (h : execWrv addr value s = .next t) : StoreEffect True s t :=
  rangeChecked_effect (fun _ => .finish (.value _ _ fun _ => (storeAddress addr).isLt) _) h

theorem execSetp_effect {addr : Word} {code : Perm} (h : execSetp addr code s = .next t) : StoreEffect True s t :=
  rangeChecked_effect (fun _ => .finish (.code _ _ fun _ => (storeAddress addr).isLt) _) h

/-- PEEKW answers its result and nothing else. -/
theorem execPeekw_eq_next (h : execPeekw s = .next t) : t = s.finish (.word s.wr) := by
  obtain ⟨-, -, h⟩ := fportCommand_eq_next s h
  cases h; rfl

/-- RDSLOT answers its result and nothing else. -/
theorem execRdslot_eq_next {index : Word} (h : execRdslot index s = .next t) :
    t = s.finish (.address (s.slotAt index)) := by
  obtain ⟨-, -, h⟩ := fportCommand_eq_next s h
  cases h; rfl

/-- INIT starts the pipeline, or aborts for want of resources. -/
theorem execInit_eq_next (h : execInit s = .next t) :
    s.handler = .off ∧ s.enabled = false ∧
      (t = (initConsumer (initBlock s)).finish .none ∨ t = s.raiseFatal .initResources) := by
  obtain ⟨-, -, h⟩ := fportCommand_eq_next s h
  split_ifs at h with hc he hr
  · exact ⟨s.context_eq_fg.mp (not_not.mp hc), by simpa using he, .inl (by cases h; rfl)⟩
  · exact ⟨s.context_eq_fg.mp (not_not.mp hc), by simpa using he, .inr (by cases h; rfl)⟩

theorem execInit_effect (h : execInit s = .next t) : ExecEffect s .init t := by
  obtain ⟨hh, he, rfl | rfl⟩ := execInit_eq_next h
  · exact .started hh he
  · exact .command (.abort _)

theorem execShutdown_effect (h : execShutdown s = .next t) : ExecEffect s .shutdown t := by
  obtain ⟨-, -, h⟩ := fportCommand_eq_next s h
  split_ifs at h with he
  · cases h; exact .stopping he
  · cases h; exact .command (.finish .nothing _)

/-- ADVR moves the read cursor of a ring that is not empty, from a handler. -/
theorem execAdvr_eq_next (h : execAdvr s = .next t) :
    s.handler ≠ .off ∧ s.rd ≠ s.wr ∧
      t = ({ s with rd := s.rd + 1, consumerRd := s.consumerRd + 1 }).finish .none := by
  obtain ⟨-, -, h⟩ := fportCommand_eq_next s h
  split_ifs at h with hc hne
  refine ⟨fun hh => ?_, hne, by cases h; rfl⟩
  rw [s.context_eq_fg.mpr hh] at hc
  exact hc nofun

theorem execAdvr_effect (h : execAdvr s = .next t) : ExecEffect s .advr t := by
  obtain ⟨hh, hne, rfl⟩ := execAdvr_eq_next h
  exact .advanced hh hne

theorem execPollclr_effect {flag : Byte} (h : execPollclr flag s = .next t) : ExecEffect s (.pollclr flag) t := by
  obtain ⟨-, -, h⟩ := fportCommand_eq_next s h
  split_ifs at h with hf hc
  · cases h; exact .command (.abort _)
  · cases h; exact .polled flag (s.context_eq_fg.mp (not_not.mp hc))

theorem illegalCommand_effect (h : illegalCommand s = .next t) : StoreEffect True s t := by
  obtain ⟨-, -, h⟩ := fportCommand_eq_next s h
  cases h; exact .abort _

/-- Everything an operation can answer next. -/
theorem exec_effect {i : Instr} (h : exec i s = .next t) : ExecEffect s i t := by
  cases i with
  | brd addr wdata => exact .request (busRequest_effect .undriven h)
  | bwr addr wdata => exact .request (busRequest_effect .lost h)
  | rdv addr => exact .command (execRdv_effect h)
  | wrv addr value => exact .command (execWrv_effect h)
  | rdw32 addr => exact .command (rangeChecked_effect (fun hr => (readWideElement_effect _ _ _).imp fun _ => ⟨hr, rfl⟩) h)
  | fill addr value count => exact .command (rangeChecked_effect (fun hr => (fillElement_effect _ _ _).imp fun _ => hr) h)
  | cpin addr count => exact .command (rangeChecked_effect (fun hr => (copyInElement_effect _ _).imp fun _ => hr) h)
  | cpout addr count => exact .command (rangeChecked_effect (fun hr => (copyOutElement_effect _ _ _).imp fun _ => hr) h)
  | setp addr code => exact .command (execSetp_effect h)
  | setpr start code count => exact .command (rangeChecked_effect (fun hr => (setPermElement_effect _ _ _).imp fun _ => hr) h)
  | init => exact execInit_effect h
  | shutdown => exact execShutdown_effect h
  | peekw => exact execPeekw_eq_next h ▸ .command (.finish .nothing _)
  | rdslot index => exact execRdslot_eq_next h ▸ .command (.finish .nothing _)
  | advr => exact execAdvr_effect h
  | pollclr flag => exact execPollclr_effect h
  | reservedE low w1 w2 => exact .command (illegalCommand_effect h)
  | reservedF low w1 w2 => exact .command (illegalCommand_effect h)

/-! ## A command in progress -/

/-- What one more step of a command in progress does. -/
inductive ContinueEffect (s : State) (p : Pending) : State → Prop
  | element {t : State} (h : StoreEffect p.inStore s t) : ContinueEffect s p t
  | stopped (h : s.stopping = true ∧ s.phase = .idle ∨ s.enabled = false) :
      ContinueEffect s p (({ s with enabled := false, stopping := false }).finish .none)
  | waits : ContinueEffect s p s

theorem shutdownComplete_effect (p : Pending) : ContinueEffect s p (shutdownComplete s) := by
  unfold shutdownComplete
  split_ifs with h
  · refine .stopped ?_
    simpa using h
  · exact .waits

theorem continueCommand_effect (p : Pending) : ContinueEffect s p (continueCommand p s) := by
  cases p with
  | readWide next left got => exact .element ((readWideElement_effect next left got).imp And.right)
  | fill next left value => exact .element ((fillElement_effect next left value).imp And.right)
  | copyIn next left => exact .element ((copyInElement_effect next left).imp And.right)
  | copyOut next left got => exact .element ((copyOutElement_effect next left got).imp And.right)
  | setPerm next left code => exact .element ((setPermElement_effect next left code).imp And.right)
  | shutdown => exact shutdownComplete_effect _

/-! ## The reference handler -/

/-- What a step of the reference handler does, by the point it stands at. -/
inductive HandlerEffect (s : State) : DrainPoint → State → Prop
  | command {pt : DrainPoint} {u : State} (i : Instr) (hinit : i ≠ .init) (hpoll : ∀ f, i ≠ .pollclr f)
      (hu : ExecEffect s i u) (pt' : DrainPoint) : HandlerEffect s pt (u.goto pt')
  | returned {pt : DrainPoint} : HandlerEffect s pt ((s.finish (.word s.wr)).leaveHandler)
  | tested {pt : DrainPoint} {u : State} (hu : u = s ∨ StoreEffect True s u) (a : Address) :
      HandlerEffect s pt ((u.markWatched Config.watch a).goto .advance)
  | latched {pt : DrainPoint} : HandlerEffect s pt (({ s with hsLatched := true }).goto .shutdown)
  | persisted {pt : DrainPoint} : HandlerEffect s pt (({ s with marker := .magic }).goto .reboot)
  | rebooted : HandlerEffect s .reboot s.reboot

/-- A command of the handler, after which it goes to another point. -/
theorem HandlerEffect.of_andThen {pt : DrainPoint} (i : Instr) (hinit : i ≠ .init) (hpoll : ∀ f, i ≠ .pollclr f)
    (next : State → DrainPoint) (h : andThen (exec i s) (fun u => u.goto (next u)) = .next t) :
    HandlerEffect s pt t := by
  obtain ⟨u, hu, rfl⟩ := andThen_eq_next h
  exact .command i hinit hpoll (exec_effect hu) _

theorem drainDecide_effect (pt : DrainPoint) : HandlerEffect s pt (drainDecide (s.finish (.word s.wr))) := by
  have hpeek : ExecEffect s .peekw (s.finish (.word s.wr)) := .command (.finish .nothing _)
  unfold drainDecide
  simp only
  split_ifs
  · exact .returned
  · exact .command .peekw nofun nofun hpeek _
  · exact .command .peekw nofun nofun hpeek _

theorem notifyDecide_effect {u : State} (pt : DrainPoint) (a : Address) (hu : StoreEffect True s u) :
    HandlerEffect s pt (notifyDecide a u) := by
  unfold notifyDecide
  split_ifs
  · exact .command .peekw nofun nofun (.command hu) _
  · exact .tested (.inr hu) a

theorem handlerStep_effect {pt : DrainPoint} (h : handlerStep pt s = .next t) : HandlerEffect s pt t := by
  cases pt with
  | peek =>
    obtain ⟨u, hu, rfl⟩ := andThen_eq_next h
    exact execPeekw_eq_next hu ▸ drainDecide_effect _
  | skip left => exact .of_andThen .advr nofun nofun _ h
  | fetch => exact .of_andThen (.rdslot s.consumerRd) nofun nofun _ h
  | notify a =>
    unfold handlerStep at h
    simp only at h
    split_ifs at h
    · obtain ⟨u, hu, rfl⟩ := andThen_eq_next h
      exact notifyDecide_effect _ a (execRdv_effect hu)
    · cases h
      exact .tested (.inl rfl) a
  | advance => exact .of_andThen .advr nofun nofun (fun _ => .peek) h
  | latchHighSpeed => cases h; exact .latched
  | shutdown => exact .of_andThen .shutdown nofun nofun (fun _ => .persistMarker) h
  | persistMarker => cases h; exact .persisted
  | reboot => cases h; exact .rebooted

/-! ## Moves -/

/-- What a move does in a state without an abort. -/
inductive MoveEffect (s : State) : Move → State → Prop
  | idle {m : Move} (hm : m ≠ .pipe) : MoveEffect s m s
  | request {w : Word} {ws : List Word} {t : State} (hbus : s.bus = w :: ws) (h : RequestEffect { s with bus := ws } t) :
      MoveEffect s .auto t
  | pipe : MoveEffect s .pipe (pipeStep s)
  | goesOn {p : Pending} {t : State} (hp : s.port.op = some p) (h : ContinueEffect s p t) : MoveEffect s s.ownMove t
  | issued {c : Command} {cs : List Command} {i : Instr} {t : State} (hp : s.port.op = none) (hc : s.port.cmds = c :: cs)
      (h : ExecEffect (s.modifyPort fun q => { q with cmds := cs }) i t) : MoveEffect s s.ownMove t
  | drain {pt : DrainPoint} {t : State} (hh : s.handler = .drain pt) (ho : s.irq.op = none) (h : HandlerEffect s pt t) :
      MoveEffect s .irq t
  | starts {m : Move} {h : Handler} (hm : m ≠ .pipe ∧ m ≠ .fg ∧ m ≠ .irq) (hmask : s.irqMasked = false) (hh : s.handler = .off) :
      MoveEffect s m { s with handler := h }
  | returns (ho : s.irq.op = none) : MoveEffect s .leave s.leaveHandler
  | masks (on : Bool) (hh : s.handler = .off) : MoveEffect s (.mask on) { s with irqMasked := on }
  | answers (ok : Bool) : MoveEffect s (.resources ok) { s with resourcesOk := ok }
  | reset : MoveEffect s .reset s.reboot

/-- While a handler runs the interrupt context is the one that moves. -/
theorem State.ownMove_of_handler (hh : s.handler ≠ .off) : s.ownMove = .irq := by
  unfold State.ownMove State.context
  cases h : s.handler <;> simp_all

theorem State.port_of_handler (hh : s.handler ≠ .off) : s.port = s.irq := by
  unfold State.port State.context
  cases h : s.handler <;> simp_all

theorem State.ownMove_ne_pipe : s.ownMove ≠ .pipe := by
  unfold State.ownMove
  cases s.context <;> simp

theorem contextStep_effect (h : contextStep s = .next t) : MoveEffect s s.ownMove t := by
  unfold contextStep at h
  split at h
  next p hp => cases h; exact .goesOn hp (continueCommand_effect p)
  next hp =>
    split at h
    next => cases h; exact .idle State.ownMove_ne_pipe
    next c cs hc =>
      unfold issue at h
      split at h
      next i _ => exact .issued hp hc (exec_effect h)
      next => exact .issued hp hc (i := .peekw) (.command (illegalCommand_effect h))

theorem fgStep_effect (h : fgStep s = .next t) : MoveEffect s .fg t := by
  unfold fgStep at h
  split at h
  next hh =>
    have hown : s.ownMove = .fg := by simp [State.ownMove, s.context_eq_fg.mpr hh]
    exact hown ▸ contextStep_effect h
  next => cases h; exact .idle nofun
  next => cases h; exact .idle nofun

theorem irqStep_effect (h : irqStep s = .next t) : MoveEffect s .irq t := by
  unfold irqStep at h
  split at h
  next => cases h; exact .idle nofun
  next hh =>
    have hown : s.ownMove = .irq := State.ownMove_of_handler (by simp [hh])
    exact hown ▸ contextStep_effect h
  next pt hh =>
    split at h
    next p hp =>
      cases h
      have hh' : s.handler ≠ .off := by simp [hh]
      exact State.ownMove_of_handler hh' ▸ .goesOn (State.port_of_handler hh' ▸ hp) (continueCommand_effect p)
    next hp => exact .drain hh hp (handlerStep_effect h)

theorem enterHandler_effect {m : Move} (hm : m ≠ .pipe ∧ m ≠ .fg ∧ m ≠ .irq) (h : Handler) :
    MoveEffect s m (s.enterHandler h) := by
  unfold State.enterHandler
  split_ifs with hc
  · simp only [State.canEnter, Bool.and_eq_true, Bool.not_eq_true', beq_iff_eq] at hc
    obtain ⟨⟨⟨-, hmask⟩, -⟩, hh⟩ := hc
    exact .starts hm hmask hh
  · exact .idle hm.1

theorem runHandler_effect {m : Move} (hm : m ≠ .pipe ∧ m ≠ .fg ∧ m ≠ .irq) (h : Handler) :
    MoveEffect s m (s.runHandler h) := by
  unfold State.runHandler
  split_ifs with hc
  · simp only [State.canRun, Bool.and_eq_true, Bool.not_eq_true', beq_iff_eq] at hc
    obtain ⟨⟨hmask, -⟩, hh⟩ := hc
    exact .starts hm hmask hh
  · exact .idle hm.1

/-- Everything a move can answer next where no abort stands. -/
theorem performAlive_effect {m : Move} (h : performAlive m s = .next t) : MoveEffect s m t := by
  cases m with
  | auto =>
    change autoStep s = .next t at h
    unfold autoStep at h
    split at h
    next hbus => exact .request hbus (exec_decodeReq_effect h)
    next => cases h; exact .idle nofun
  | pipe => cases h; exact .pipe
  | fg => exact fgStep_effect h
  | irq => exact irqStep_effect h
  | enterReference => cases h; exact enterHandler_effect (by simp) _
  | enterScript => cases h; exact enterHandler_effect (by simp) _
  | runReference => cases h; exact runHandler_effect (by simp) _
  | runScript => cases h; exact runHandler_effect (by simp) _
  | leave =>
    cases h
    split_ifs with hc
    · exact .returns hc.2
    · exact .idle nofun
  | mask on =>
    cases h
    split_ifs with hc
    · exact .masks on hc.1
    · exact .idle nofun
  | resources ok => cases h; exact .answers ok
  | reset => cases h; exact .reset

/-! ## Steps -/

/-- A step is its next move, taken in the state without that move; where there is none the state stays. -/
theorem step_eq_next (h : step s = .next t) :
    s.nextMove = none ∧ t = s ∨
      ∃ m, s.nextMove = some m ∧ MoveEffect { s with schedule := s.schedule.tail } m t := by
  have hmove : ∀ {m u}, performMove m u = .next t → MoveEffect u m t := by
    intro m u h
    unfold performMove at h
    split_ifs at h
    exact performAlive_effect h
  cases hs : s.schedule with
  | cons m ms =>
    rw [step_scheduled s hs] at h
    exact .inr ⟨m, by simp [State.nextMove, hs], hmove h⟩
  | nil =>
    have hsame : { s with schedule := [] } = s := by rw [← hs]
    rw [step_unscheduled s hs] at h
    unfold performDefault at h
    split at h
    next m hm => exact .inr ⟨m, by simp [State.nextMove, hs, hm], by simpa [hsame] using hmove h⟩
    next hm =>
      split_ifs at h
      cases h
      exact .inl ⟨by simp [State.nextMove, hs, hm], rfl⟩

end Sys2Proof.Machine
end

section
/-! PROOFS. The invariant of 10_state.md: it holds of a fresh machine, and every layer of a step keeps it. -/

namespace Sys2Proof.Machine

variable {s t : State} {ok : Prop}

/-! ## What a store command leaves alone -/

theorem Touched.frame {u : State} (h : Touched ok s u) :
    u = { s with v := u.v, p := u.p, draws := u.draws } := by
  cases h with
  | read a => unfold State.afterPortBRead; split_ifs <;> rfl
  | _ => rfl

theorem State.modifyPort_frame (s : State) (f : Port → Port) :
    s.modifyPort f = { s with fg := (s.modifyPort f).fg, irq := (s.modifyPort f).irq } := by
  unfold State.modifyPort
  cases s.context <;> rfl

/-- A store command leaves everything alone but the planes, the abort, the ports and the count of draws. -/
theorem StoreEffect.frame (h : StoreEffect ok s t) :
    t = { s with v := t.v, p := t.p, fatal := t.fatal, fatalCode := t.fatalCode, fg := t.fg, irq := t.irq,
                 draws := t.draws } := by
  cases h with
  | abort c => rfl
  | @port u hu f hf => rw [u.modifyPort_frame f, hu.frame]

theorem StoreEffect.handler_eq (h : StoreEffect ok s t) : t.handler = s.handler := by rw [h.frame]

theorem Touched.port_eq {u : State} (h : Touched ok s u) : u.port = s.port := by
  cases h with
  | read a => exact s.port_afterPortBRead a
  | _ => rfl

theorem RequestEffect.handler_eq (h : RequestEffect s t) : t.handler = s.handler := by cases h <;> rfl

theorem ExecEffect.handler_eq {i : Instr} (h : ExecEffect s i t) : t.handler = s.handler := by
  cases h with
  | request h => exact h.handler_eq
  | command h => exact h.handler_eq
  | _ => simp

/-! ## A fresh machine -/

/-- A machine that has nothing stored, nothing in flight, and nothing running but FG meets the invariant. -/
theorem State.inv_of_fresh (hv : s.v = []) (hp : s.p = []) (hphase : s.phase = .idle) (henabled : s.enabled = false)
    (hstopping : s.stopping = false) (hgated : s.tGated = false) (hfatal : s.fatal = false) (hhandler : s.handler = .off)
    (hfg : s.fg.op = none) (hirq : s.irq.op = none) (hslots : s.slotCountOk) : s.Inv where
  v_wf := hv ▸ Memory.wf_nil
  p_wf := hp ▸ Memory.wf_nil
  disabled_idle _ := ⟨hphase, hstopping⟩
  gated_captured h := by simp [hgated] at h
  forwarded_writable h := by simp [State.writeForwarded, hgated, hphase] at h
  resolved_read h := by simp [hphase] at h
  fatal_code h := by simp [hfatal] at h
  slot_count := hslots
  copy_exact h := by simp [henabled] at h
  masked_off _ := hhandler
  off_no_command _ := hirq
  fg_in_store p h := by simp [hfg] at h
  irq_in_store p h := by simp [hirq] at h

theorem State.inv_powerUp {k : Nat} (hk : k ≤ 32) : (State.powerUp (2 ^ k)).Inv :=
  State.inv_of_fresh rfl rfl rfl rfl rfl rfl rfl rfl rfl rfl ⟨k, hk, by simp [State.powerUp]⟩

/-! ## Changes that the invariant does not see, and changes of one of its parts -/

/-- The invariant says nothing of these fields. -/
theorem State.Inv.of_agree (h : s.Inv)
    (ht : t = { s with tAddr := t.tAddr, tWdata := t.tWdata, tOld := t.tOld, flagVideo := t.flagVideo,
                       flagSound := t.flagSound, hsLatched := t.hsLatched, marker := t.marker, bus := t.bus,
                       extData := t.extData, resourcesOk := t.resourcesOk, schedule := t.schedule, draws := t.draws,
                       boots := t.boots }) : t.Inv := by
  rw [ht]
  exact { h with }

theorem State.Inv.reboot (h : s.Inv) : s.reboot.Inv :=
  State.inv_of_fresh rfl rfl rfl rfl rfl rfl rfl rfl rfl rfl ((State.slotCountOk_congr s.slotCount_reboot).mpr h.slot_count)

theorem State.Inv.port_in_store (h : s.Inv) {p : Pending} (hp : s.port.op = some p) : p.inStore := by
  unfold State.port at hp
  split at hp
  · exact h.fg_in_store p hp
  · exact h.irq_in_store p hp

/-- What the running context's port holds afterwards must be inside the store. -/
theorem State.Inv.modifyPort (h : s.Inv) (f : Port → Port) (hf : ∀ p, (f s.port).op = some p → p.inStore) :
    (s.modifyPort f).Inv := by
  unfold State.port at hf
  unfold State.modifyPort
  cases hc : s.context with
  | fg => exact { h with fg_in_store := by simpa [hc] using hf }
  | irq =>
    have hh : s.handler ≠ .off := fun hh => by simp [s.context_eq_fg.mpr hh] at hc
    exact { h with off_no_command := fun hh' => absurd hh' hh, irq_in_store := by simpa [hc] using hf }

theorem State.Inv.finish (h : s.Inv) (r : Result) : (s.finish r).Inv := h.modifyPort _ fun _ hp => by simp at hp

theorem State.Inv.suspend (h : s.Inv) {p : Pending} (hp : p.inStore) : (s.suspend p).Inv :=
  h.modifyPort _ fun q hq => by
    simp only [Option.some.injEq] at hq
    exact hq ▸ hp

/-- R302: the four codes. -/
theorem FatalCause.code_legal (c : FatalCause) : 1 ≤ c.code.toNat ∧ c.code.toNat ≤ 4 := by cases c <;> decide

theorem State.Inv.raiseFatal (h : s.Inv) (c : FatalCause) : (s.raiseFatal c).Inv :=
  { h with fatal_code := fun _ => c.code_legal }

theorem Touched.inv {u : State} (hu : Touched ok s u) (h : s.Inv) (hok : ok) : u.Inv := by
  cases hu with
  | nothing => exact h
  | read a => exact h.of_agree (by unfold State.afterPortBRead; split_ifs <;> rfl)
  | value a b ha => exact { h with v_wf := Memory.wf_set h.v_wf (ha hok) b }
  | code a c ha => exact { h with p_wf := Memory.wf_set h.p_wf (ha hok) c }

theorem StoreEffect.inv (he : StoreEffect ok s t) (h : s.Inv) (hok : ok) : t.Inv := by
  cases he with
  | abort c => exact h.raiseFatal c
  | port hu f hf => exact (hu.inv h hok).modifyPort f (hu.port_eq ▸ hf hok)

theorem RequestEffect.inv (he : RequestEffect s t) (h : s.Inv) : t.Inv := by
  cases he with
  | undriven => exact h.of_agree rfl
  | lost => exact h
  | accepted addr isWrite wdata hacc =>
    obtain ⟨henabled, -, -⟩ := hacc
    exact { h with
      disabled_idle := fun hd => by simp [henabled] at hd
      gated_captured := nofun
      forwarded_writable := fun hf => by simp [State.writeForwarded] at hf
      resolved_read := nofun }

/-! ## INIT, SHUTDOWN, ADVR, POLLCLR -/

theorem State.Inv.initBlock (h : s.Inv) : (initConsumer (initBlock s)).Inv :=
  { h with
    disabled_idle := nofun
    gated_captured := nofun
    forwarded_writable := fun hf => by simp [State.writeForwarded] at hf
    resolved_read := nofun
    copy_exact := fun _ => rfl
    masked_off := nofun }

theorem State.Inv.stop (h : s.Inv) (henabled : s.enabled = true) : ({ s with stopping := true } : State).Inv :=
  { h with disabled_idle := fun hd => absurd (henabled.symm.trans hd) nofun }

theorem State.Inv.disable (h : s.Inv) (hidle : s.phase = .idle) :
    ({ s with enabled := false, stopping := false } : State).Inv :=
  { h with disabled_idle := fun _ => ⟨hidle, rfl⟩, copy_exact := nofun }

theorem State.Inv.advance (h : s.Inv) : ({ s with rd := s.rd + 1, consumerRd := s.consumerRd + 1 } : State).Inv :=
  { h with copy_exact := fun henabled => congrArg (· + 1) (h.copy_exact henabled) }

theorem State.Inv.mask (h : s.Inv) {on : Bool} (hon : on = true → s.handler = .off) :
    ({ s with irqMasked := on } : State).Inv :=
  { h with masked_off := hon }

theorem State.Inv.clearFlag (h : s.Inv) (id : Byte) : (s.clearFlag id).Inv :=
  h.of_agree (by unfold State.clearFlag; split_ifs <;> rfl)

theorem ExecEffect.inv {i : Instr} (he : ExecEffect s i t) (h : s.Inv) : t.Inv := by
  cases he with
  | request he => exact he.inv h
  | command he => exact he.inv h trivial
  | started => exact h.initBlock.finish _
  | stopping henabled => exact (h.stop henabled).suspend trivial
  | advanced => exact h.advance.finish _
  | polled flag => exact ((h.clearFlag flag).mask (on := false) nofun).finish _

theorem ContinueEffect.inv {p : Pending} (he : ContinueEffect s p t) (h : s.Inv) (hp : p.inStore) : t.Inv := by
  cases he with
  | element he => exact he.inv h hp
  | waits => exact h
  | stopped hs =>
    have hidle : s.phase = .idle := hs.elim And.right fun hd => (h.disabled_idle hd).1
    exact (h.disable hidle).finish _

/-! ## PIPE -/

/-- A read's lookup answers it; the external processor gets the stored byte where the gate lets it be driven, else a free
one. -/
theorem lookup_of_read (s : State) (hr : s.tIsWrite = false) :
    lookup s =
      let a := s.tAddr.toNat
      { s with
        tEntry := s.entryAt a, phase := .readResolved,
        extData := if readable (s.readP a) then s.readV a else Config.freeByte s.draws,
        draws := if readable (s.readP a) then s.draws else s.draws + 1 } := by
  cases hc : readable (s.readP s.tAddr.toNat) with
  | true => simp [lookup, hr, hc, State.entryAt]
  | false => simp [lookup, hr, hc, State.undrivenRead]

/-- The phases in which a transaction is past its ACCEPT keep the pipeline enabled. -/
theorem State.Inv.enabled_of_phase (h : s.Inv) (hp : s.phase ≠ .idle) : s.enabled ≠ false :=
  fun hd => hp (h.disabled_idle hd).1

theorem State.Inv.lookup (h : s.Inv) (hp : s.phase = .addressCaptured) (hg : s.tGated = false) : (lookup s).Inv := by
  have hlive : s.enabled ≠ false := h.enabled_of_phase (by simp [hp])
  cases hw : s.tIsWrite with
  | false =>
    rw [lookup_of_read s hw]
    exact { h with
      disabled_idle := fun hd => absurd hd hlive
      gated_captured := fun hg' => absurd (hg.symm.trans hg') nofun
      forwarded_writable := fun hf => by simp [State.writeForwarded, hg] at hf
      resolved_read := fun _ => hw }
  | true =>
    cases hcode : writable (s.readP s.tAddr.toNat) with
    | true =>
      rw [lookup_of_allowed s hw hcode]
      exact { h with
        gated_captured := fun _ => hp
        forwarded_writable := fun _ => ⟨hw, by simpa using hcode⟩ }
    | false =>
      rw [lookup_of_ignored s hw hcode]
      exact { h with
        disabled_idle := fun hd => absurd hd hlive
        gated_captured := fun hg' => absurd (hg.symm.trans hg') nofun
        forwarded_writable := fun hf => by simp [State.writeForwarded, hg] at hf
        resolved_read := nofun }

theorem State.Inv.commit (h : s.Inv) (hp : s.phase = .addressCaptured) (hg : s.tGated = true) : (commit s).Inv :=
  { h with
    v_wf := Memory.wf_set h.v_wf s.tAddr.isLt s.tWdata
    disabled_idle := fun hd => absurd hd (h.enabled_of_phase (by simp [hp]))
    gated_captured := nofun
    forwarded_writable := fun _ => h.forwarded_writable (.inl hg)
    resolved_read := nofun }

theorem State.Inv.append (h : s.Inv) (hp : s.phase = .writeCommitted) : (append s).Inv :=
  { h with
    disabled_idle := fun hd => absurd hd (h.enabled_of_phase (by simp [hp]))
    gated_captured := fun hg => absurd (hp.symm.trans (h.gated_captured hg)) nofun
    forwarded_writable := fun _ => h.forwarded_writable (.inr (.inl hp))
    resolved_read := nofun
    slot_count := (State.slotCountOk_congr (append_slotCount s)).mpr h.slot_count }

theorem State.Inv.retire (h : s.Inv) (hp : s.phase = .readResolved ∨ s.phase = .eventLogged) : (retire s).Inv := by
  have hne : s.phase ≠ .idle ∧ s.phase ≠ .addressCaptured := by rcases hp with hp | hp <;> simp [hp]
  have hgated : ¬ s.tGated = true := fun hg => hne.2 (h.gated_captured hg)
  exact { h with
    disabled_idle := fun hd => absurd hd (h.enabled_of_phase hne.1)
    gated_captured := fun hg => absurd hg hgated
    forwarded_writable := fun hf => by simp [State.writeForwarded, hgated] at hf
    resolved_read := nofun }

theorem State.Inv.pipeStep (h : s.Inv) : (pipeStep s).Inv := by
  cases hp : s.phase with
  | idle => exact (pipeStep_idle s hp).symm ▸ h
  | readResolved => exact pipeStep_retire s (.inl hp) ▸ h.retire (.inl hp)
  | writeCommitted => exact pipeStep_append s hp ▸ h.append hp
  | eventLogged => exact pipeStep_retire s (.inr hp) ▸ h.retire (.inr hp)
  | addressCaptured =>
    cases hg : s.tGated with
    | false => exact pipeStep_lookup s hp hg ▸ h.lookup hp hg
    | true => exact pipeStep_commit s hp hg ▸ h.commit hp hg

/-! ## The handler and the moves -/

theorem State.Inv.unmasked (h : s.Inv) (hh : s.handler ≠ .off) : ¬ s.irqMasked = true := fun hm => hh (h.masked_off hm)

theorem State.Inv.goto (h : s.Inv) (hh : s.handler ≠ .off) (pt : DrainPoint) : (s.goto pt).Inv :=
  { h with masked_off := fun hm => absurd hm (h.unmasked hh), off_no_command := nofun }

theorem State.Inv.leaveHandler (h : s.Inv) (ho : s.irq.op = none) : s.leaveHandler.Inv :=
  { h with masked_off := fun _ => rfl, off_no_command := fun _ => ho }

theorem State.Inv.markWatched (h : s.Inv) (r : Config.WatchRanges) (a : Address) : (s.markWatched r a).Inv :=
  h.of_agree (by unfold State.markWatched; split_ifs <;> rfl)

theorem HandlerEffect.inv {pt : DrainPoint} (he : HandlerEffect s pt t) (h : s.Inv) (hh : s.handler ≠ .off) : t.Inv := by
  cases he with
  | command i _ _ hu pt' => exact (hu.inv h).goto (hu.handler_eq ▸ hh) pt'
  | returned =>
    have hirq : (s.finish (.word s.wr)).irq.op = none := by
      rw [← State.port_of_handler (s.finish_handler _ ▸ hh), State.port_finish]
    exact (h.finish _).leaveHandler hirq
  | tested hu a =>
    rcases hu with rfl | hu
    · exact (h.markWatched _ a).goto (by simpa using hh) _
    · exact ((hu.inv h trivial).markWatched _ a).goto (by simpa [hu.handler_eq] using hh) _
  | latched => exact (h.of_agree rfl : ({ s with hsLatched := true } : State).Inv).goto hh _
  | persisted => exact (h.of_agree rfl : ({ s with marker := .magic } : State).Inv).goto hh _
  | rebooted => exact h.reboot

theorem MoveEffect.inv {m : Move} (he : MoveEffect s m t) (h : s.Inv) : t.Inv := by
  cases he with
  | idle => exact h
  | request _ he => exact he.inv (h.of_agree rfl)
  | pipe => exact h.pipeStep
  | goesOn hp he => exact he.inv h (h.port_in_store hp)
  | issued hp _ he => exact he.inv (h.modifyPort _ fun p hp' => absurd (hp.symm.trans hp') nofun)
  | drain hh _ he => exact he.inv h (by simp [hh])
  | starts _ hmask hh =>
    exact { h with
      masked_off := fun hm => absurd (hmask.symm.trans hm) nofun
      off_no_command := fun _ => h.off_no_command hh }
  | returns ho => exact h.leaveHandler ho
  | masks on hh => exact h.mask fun _ => hh
  | answers ok => exact h.of_agree rfl
  | reset => exact h.reboot

end Sys2Proof.Machine

namespace Sys2Proof.Proofs

open Sys2Proof.Machine

/-- Settles O12: a machine after power-up is fresh. -/
theorem resetSatisfiesInvariant : Obligations.ResetSatisfiesInvariant :=
  ⟨State.inv_powerUp (k := 3) (by decide), fun _ hk => State.inv_powerUp hk⟩

/-- Settles O13: every move keeps the invariant, and a step is a move. -/
theorem stepKeepsInvariant : Obligations.StepKeepsInvariant := by
  intro s t h hstep
  obtain ⟨-, rfl⟩ | ⟨m, -, hm⟩ := step_eq_next hstep
  · exact h
  · exact hm.inv (h.of_agree rfl)

end Sys2Proof.Proofs
end

section
/-! PROOFS. The store primitives RDV, WRV and SETP, and the range check of every store and permission command. -/

namespace Sys2Proof.Machine

variable {s : State}

/-! ## Each command is its range check and its first element -/

theorem exec_rdv (addr : Word) (s : State) :
    exec (.rdv addr) s =
      rangeChecked .storeRange addr 1
        (fun s => (s.afterPortBRead (storeAddress addr).toNat).finish (.byte (s.portBRead (storeAddress addr).toNat))) s :=
  rfl

theorem exec_wrv (addr : Word) (value : Byte) (s : State) :
    exec (.wrv addr value) s =
      rangeChecked .storeRange addr 1 (fun s => (s.writeV (storeAddress addr).toNat value).finish .none) s := rfl

theorem exec_setp (addr : Word) (code : Perm) (s : State) :
    exec (.setp addr code) s =
      rangeChecked .permRange addr 1 (fun s => (s.writeP (storeAddress addr).toNat code).finish .none) s := rfl

theorem exec_rdw32 (addr : Word) (s : State) :
    exec (.rdw32 addr) s = rangeChecked .storeRange addr 4 (readWideElement addr.toNat 4 []) s := rfl

theorem exec_fill (addr : Word) (value : Byte) (count : Word) (s : State) :
    exec (.fill addr value count) s =
      rangeChecked .storeRange addr count.toNat (fillElement addr.toNat count.toNat value) s := rfl

theorem exec_cpin (addr count : Word) (s : State) :
    exec (.cpin addr count) s = rangeChecked .storeRange addr count.toNat (copyInElement addr.toNat count.toNat) s := rfl

theorem exec_cpout (addr count : Word) (s : State) :
    exec (.cpout addr count) s =
      rangeChecked .storeRange addr count.toNat (copyOutElement addr.toNat count.toNat []) s := rfl

theorem exec_setpr (start : Word) (code : Perm) (count : Word) (s : State) :
    exec (.setpr start code count) s =
      rangeChecked .permRange start count.toNat (setPermElement start.toNat count.toNat code) s := rfl

theorem rangeChecked_of_canIssue (h : s.canIssue) {cause : FatalCause} {addr : Word} {n : Nat} {body : State → State}
    (hr : addr.toNat + n ≤ 65536) : rangeChecked cause addr n body s = .next (body s) :=
  rangeChecked_of_inRange s h.1 h.2 hr

theorem rangeChecked_aborts (h : s.canIssue) {cause : FatalCause} {addr : Word} {n : Nat} {body : State → State}
    (hr : 65536 < addr.toNat + n) :
    rangeChecked cause addr n body s = .next { s with fatal := true, fatalCode := cause.code } :=
  rangeChecked_of_outOfRange s h.1 h.2 hr

/-- After the range check the address of RDV is its operand. -/
theorem exec_rdv_of_canIssue (h : s.canIssue) {addr : Word} (ha : addr.toNat < 65536) :
    exec (.rdv addr) s = .next ((s.afterPortBRead addr.toNat).finish (.byte (s.portBRead addr.toNat))) := by
  rw [exec_rdv, rangeChecked_of_canIssue h (by omega), storeAddress_toNat ha]

theorem exec_wrv_of_canIssue (h : s.canIssue) {addr : Word} (ha : addr.toNat < 65536) (value : Byte) :
    exec (.wrv addr value) s = .next ((s.writeV addr.toNat value).finish .none) := by
  rw [exec_wrv, rangeChecked_of_canIssue h (by omega), storeAddress_toNat ha]

theorem exec_setp_of_canIssue (h : s.canIssue) {addr : Word} (ha : addr.toNat < 65536) (code : Perm) :
    exec (.setp addr code) s = .next ((s.writeP addr.toNat code).finish .none) := by
  rw [exec_setp, rangeChecked_of_canIssue h (by omega), storeAddress_toNat ha]

/-! ## Read through Port B -/

/-- The tear window for an address is the commit of a write to it, before its APPEND (R66). -/
theorem State.inTearWindow_iff (s : State) (a : Nat) :
    s.inTearWindow a = true ↔ s.phase = .writeCommitted ∧ s.tAddr.toNat = a := by
  simp [State.inTearWindow]

theorem State.inTearWindow_eq_false (s : State) (a : Nat) :
    s.inTearWindow a = false ↔ ¬ (s.phase = .writeCommitted ∧ s.tAddr.toNat = a) := by
  rw [← s.inTearWindow_iff, Bool.not_eq_true]

/-- In the tear window a read takes one free byte. -/
theorem State.afterPortBRead_inside {a : Nat} (h : s.inTearWindow a = true) :
    s.afterPortBRead a = { s with draws := s.draws + 1 } := by
  simp [State.afterPortBRead, h]

/-! ## Written planes -/

/-- The fields beside the value plane that a value write leaves to its command. -/
theorem State.writeV_finish_frame (s : State) (a : Nat) (b : Byte) (r : Result) :
    (s.writeV a b).finish r = ({ s with v := ((s.writeV a b).finish r).v }).finish r := by simp [State.writeV]

theorem State.writeP_finish_frame (s : State) (a : Nat) (c : Perm) (r : Result) :
    (s.writeP a c).finish r = ({ s with p := ((s.writeP a c).finish r).p }).finish r := by simp [State.writeP]

/-- The interrupt request looks at the enable and the cursors alone. -/
theorem State.evtIrq_congr {s t : State} (he : t.enabled = s.enabled) (hw : t.wr = s.wr) (hr : t.rd = s.rd) :
    t.evtIrq = s.evtIrq := by
  unfold State.evtIrq; rw [he, hw, hr]

end Sys2Proof.Machine

namespace Sys2Proof.Proofs

open Sys2Proof.Machine

/-- Settles O28: one Port B read, in the tear window or not. -/
theorem readByteOrTornByte : Obligations.ReadByteOrTornByte := by
  intro s addr hs ha
  refine ⟨_, s.portBRead addr.toNat, exec_rdv_of_canIssue hs ha, by simp, fun hout => ?outside, fun hin => ?inside⟩
  case outside =>
    have hwindow := (s.inTearWindow_eq_false addr.toNat).mpr hout
    rw [State.portBRead_outside s hwindow, State.afterPortBRead_outside s hwindow]
    exact ⟨rfl, rfl⟩
  case inside =>
    rw [State.afterPortBRead_inside ((s.inTearWindow_iff addr.toNat).mpr hin)]
    exact ⟨s.portBRead_bit addr.toNat, rfl⟩

/-- Settles O29. -/
theorem writeByte : Obligations.WriteByte := by
  intro s addr value hs
  refine ⟨fun ha => ⟨_, exec_wrv_of_canIssue hs (by omega) value, ?_⟩,
    fun ha => by rw [exec_wrv, rangeChecked_aborts hs (by omega)]; rfl⟩
  refine ⟨?stored, ?others, ?perms, ?irq, ?entry, s.writeV_finish_frame addr.toNat value .none⟩
  case stored => simp [State.readV_writeV]
  case others => intro a ha; simp [State.readV_writeV, ha]
  case perms => simp
  case irq => exact State.evtIrq_congr (by simp) (by simp) (by simp)
  case entry => simp [State.entryAt, State.readV_writeV]

/-- Settles O30. -/
theorem setPermission : Obligations.SetPermission := by
  intro s addr code hs
  refine ⟨fun ha => ⟨_, exec_setp_of_canIssue hs (by omega) code, ?_⟩,
    fun ha => by rw [exec_setp, rangeChecked_aborts hs (by omega)]; rfl⟩
  refine ⟨?set, ?others, by simp, s.writeP_finish_frame addr.toNat code .none⟩
  case set => simp [State.readP_writeP]
  case others => intro a ha; simp [State.readP_writeP, ha]

/-- Settles O31: WRV leaves the tear window closed, and RDV outside it reads what WRV stored. -/
theorem writeThenReadRoundTrip : Obligations.WriteThenReadRoundTrip := by
  intro s addr value hs ha hout
  set t := (s.writeV addr.toNat value).finish .none with ht
  have hissue : t.canIssue := ⟨by simpa [ht] using hs.1, by simp [ht]⟩
  have hwindow : t.inTearWindow addr.toNat = false :=
    (t.inTearWindow_eq_false addr.toNat).mpr (by simpa [ht] using hout)
  have hread : t.portBRead addr.toNat = value := by
    rw [State.portBRead_outside t hwindow]
    simp [ht, State.readV_writeV]
  exact ⟨t, _, exec_wrv_of_canIssue hs ha value, exec_rdv_of_canIssue hissue ha, by simp [hread]⟩

/-- Settles O32: every one of these commands is range-checked, with its cause. -/
theorem rangeViolationsAbort : Obligations.RangeViolationsAbort := by
  intro s addr count value code hs
  refine ⟨fun h => ⟨?_, ?_, ?_⟩, fun h => ?_, fun h => ⟨?_, ?_, ?_, ?_⟩⟩
  · rw [exec_rdv, rangeChecked_aborts hs h]; rfl
  · rw [exec_wrv, rangeChecked_aborts hs h]; rfl
  · rw [exec_setp, rangeChecked_aborts hs h]; rfl
  · rw [exec_rdw32, rangeChecked_aborts hs h]; rfl
  · rw [exec_fill, rangeChecked_aborts hs h]; rfl
  · rw [exec_cpin, rangeChecked_aborts hs h]; rfl
  · rw [exec_cpout, rangeChecked_aborts hs h]; rfl
  · rw [exec_setpr, rangeChecked_aborts hs h]; rfl

end Sys2Proof.Proofs
end

section
/-! PROOFS. What a step of the pipeline leaves alone. -/

namespace Sys2Proof.Machine

variable (s : State)

/-- A lookup writes the fetched entry, the gate's decision, the phase, and what the external processor gets. -/
theorem lookup_frame :
    lookup s = { s with
      tEntry := s.entryAt s.tAddr.toNat, tGated := (lookup s).tGated, phase := (lookup s).phase,
      extData := (lookup s).extData, draws := (lookup s).draws } := by
  unfold lookup
  simp only
  split_ifs <;> rfl

theorem pipeStep_frame :
    pipeStep s = { s with
      v := (pipeStep s).v, slots := (pipeStep s).slots, wr := (pipeStep s).wr, phase := (pipeStep s).phase,
      tEntry := (pipeStep s).tEntry, tGated := (pipeStep s).tGated, tOld := (pipeStep s).tOld,
      extData := (pipeStep s).extData, draws := (pipeStep s).draws } := by
  cases hp : s.phase with
  | idle => rw [pipeStep_idle s hp]
  | readResolved => rw [pipeStep_retire s (.inl hp)]; rfl
  | writeCommitted => rw [pipeStep_append s hp]; rfl
  | eventLogged => rw [pipeStep_retire s (.inr hp)]; rfl
  | addressCaptured =>
    cases hg : s.tGated with
    | true => rw [pipeStep_commit s hp hg]; rfl
    | false => rw [pipeStep_lookup s hp hg, lookup_frame]

/-- The value plane changes at a COMMIT alone. -/
theorem pipeStep_v_of_not_gated (hg : s.tGated = false) : (pipeStep s).v = s.v := by
  cases hp : s.phase with
  | idle => rw [pipeStep_idle s hp]
  | readResolved => rw [pipeStep_retire s (.inl hp), retire_v]
  | writeCommitted => rw [pipeStep_append s hp, append_v]
  | eventLogged => rw [pipeStep_retire s (.inr hp), retire_v]
  | addressCaptured => rw [pipeStep_lookup s hp hg, lookup_v]

/-- No pipeline step changes a stored byte but that of the forwarded write. -/
theorem readV_pipeStep (a : Nat) (h : a ≠ s.tAddr.toNat ∨ s.tGated = false) : (pipeStep s).readV a = s.readV a := by
  have hboots : (pipeStep s).boots = s.boots := by rw [pipeStep_frame]
  cases hg : s.tGated with
  | false => exact State.readV_congr (pipeStep_v_of_not_gated s hg) hboots a
  | true =>
    have ha : a ≠ s.tAddr.toNat := h.resolve_right (by simp [hg])
    cases hp : s.phase with
    | idle => rw [pipeStep_idle s hp]
    | readResolved => rw [pipeStep_retire s (.inl hp)]; rfl
    | writeCommitted => rw [pipeStep_append s hp]; rfl
    | eventLogged => rw [pipeStep_retire s (.inr hp)]; rfl
    | addressCaptured => rw [pipeStep_commit s hp hg, readV_commit, if_neg ha]

/-- The write cursor and the slots change at an APPEND alone. -/
theorem pipeStep_ring (hp : s.phase ≠ .writeCommitted) : (pipeStep s).wr = s.wr ∧ (pipeStep s).slots = s.slots := by
  cases hp' : s.phase with
  | idle => rw [pipeStep_idle s hp']; exact ⟨rfl, rfl⟩
  | readResolved => rw [pipeStep_retire s (.inl hp')]; exact ⟨rfl, rfl⟩
  | writeCommitted => exact absurd hp' hp
  | eventLogged => rw [pipeStep_retire s (.inr hp')]; exact ⟨rfl, rfl⟩
  | addressCaptured =>
    cases hg : s.tGated with
    | true => rw [pipeStep_commit s hp' hg]; exact ⟨rfl, rfl⟩
    | false => rw [pipeStep_lookup s hp' hg]; exact ⟨lookup_wr s, lookup_slots s⟩

/-- R231: an APPEND leaves the other slots alone. -/
theorem append_slotAt_other {j : Word} (hj : s.slotIndex j ≠ s.slotIndex s.wr) : (append s).slotAt j = s.slotAt j := by
  unfold State.slotAt
  rw [append_slotIndex, append_slots, List.getD_eq_getElem?_getD, List.getElem?_set_ne (Ne.symm hj),
    List.getD_eq_getElem?_getD]

end Sys2Proof.Machine
end

section
/-! PROOFS. What an operation leaves alone: the slots always, each cursor and each sticky flag but for the operations
that own it, and the port of the context that does not run. -/

namespace Sys2Proof.Machine

variable {s t : State} {ok : Prop} {i : Instr}

/-- A request writes the latches, the phase, and what the external processor gets. -/
theorem RequestEffect.frame (h : RequestEffect s t) :
    t = { s with
      tAddr := t.tAddr, tIsWrite := t.tIsWrite, tWdata := t.tWdata, tGated := t.tGated, phase := t.phase,
      extData := t.extData, draws := t.draws } := by
  cases h <;> rfl

/-! ## The ring -/

theorem ExecEffect.slots_eq (h : ExecEffect s i t) : t.slots = s.slots := by
  cases h with
  | request h => rw [h.frame]
  | command h => rw [h.frame]
  | _ => simp

theorem ExecEffect.boots_eq (h : ExecEffect s i t) : t.boots = s.boots := by
  cases h with
  | request h => rw [h.frame]
  | command h => rw [h.frame]
  | _ => simp

/-- The write cursor is PIPE's; of the operations only INIT writes it. -/
theorem ExecEffect.wr_eq (h : ExecEffect s i t) (hi : i ≠ .init) : t.wr = s.wr := by
  cases h with
  | request h => rw [h.frame]
  | command h => rw [h.frame]
  | started => exact absurd rfl hi
  | _ => simp

/-- The read cursor is the consumer's: ADVR moves it, INIT zeroes it. -/
theorem ExecEffect.rd_eq (h : ExecEffect s i t) (hi : i ≠ .init) (ha : i ≠ .advr) : t.rd = s.rd := by
  cases h with
  | request h => rw [h.frame]
  | command h => rw [h.frame]
  | started => exact absurd rfl hi
  | advanced => exact absurd rfl ha
  | _ => simp

/-! ## The sticky flags -/

theorem State.clearFlag_flagVideo (s : State) {id : Byte} (h : id ≠ 0) : (s.clearFlag id).flagVideo = s.flagVideo := by
  unfold State.clearFlag
  rw [if_neg h]

theorem State.clearFlag_zero_flagSound (s : State) : (s.clearFlag 0).flagSound = s.flagSound := rfl

theorem ExecEffect.flagVideo_eq (h : ExecEffect s i t) (hi : i ≠ .init) (hp : i ≠ .pollclr 0) :
    t.flagVideo = s.flagVideo := by
  cases h with
  | request h => rw [h.frame]
  | command h => rw [h.frame]
  | started => exact absurd rfl hi
  | polled flag => simpa using s.clearFlag_flagVideo fun h => hp (h ▸ rfl)
  | _ => simp

theorem ExecEffect.flagSound_eq (h : ExecEffect s i t) (hi : i ≠ .init) (hp : ∀ f : Byte, f ≠ 0 → i ≠ .pollclr f) :
    t.flagSound = s.flagSound := by
  cases h with
  | request h => rw [h.frame]
  | command h => rw [h.frame]
  | started => exact absurd rfl hi
  | polled flag =>
    obtain rfl : flag = 0 := not_not.mp fun h => hp flag h rfl
    simpa using s.clearFlag_zero_flagSound
  | _ => simp

/-- The range tests set flags and clear none. -/
theorem State.markWatched_keeps_flagVideo (r : Config.WatchRanges) (a : Address) (h : s.flagVideo = true) :
    (s.markWatched r a).flagVideo = true := by
  unfold State.markWatched
  split_ifs
  · rfl
  · exact h
  · exact h

theorem State.markWatched_keeps_flagSound (r : Config.WatchRanges) (a : Address) (h : s.flagSound = true) :
    (s.markWatched r a).flagSound = true := by
  unfold State.markWatched
  split_ifs
  · exact h
  · rfl
  · exact h

theorem HandlerEffect.keeps_flagVideo {pt : DrainPoint} (he : HandlerEffect s pt t) (hpt : pt ≠ .reboot)
    (h : s.flagVideo = true) : t.flagVideo = true := by
  cases he with
  | command i hinit hpoll hu pt' => exact (hu.flagVideo_eq hinit (hpoll 0)).trans h
  | returned => simpa using h
  | tested hu a =>
    refine State.markWatched_keeps_flagVideo _ a ?_
    rcases hu with rfl | hu
    · exact h
    · rw [hu.frame]; exact h
  | latched => exact h
  | persisted => exact h
  | rebooted => exact absurd rfl hpt

theorem HandlerEffect.keeps_flagSound {pt : DrainPoint} (he : HandlerEffect s pt t) (hpt : pt ≠ .reboot)
    (h : s.flagSound = true) : t.flagSound = true := by
  cases he with
  | command i hinit hpoll hu pt' => exact (hu.flagSound_eq hinit fun f _ => hpoll f).trans h
  | returned => simpa using h
  | tested hu a =>
    refine State.markWatched_keeps_flagSound _ a ?_
    rcases hu with rfl | hu
    · exact h
    · rw [hu.frame]; exact h
  | latched => exact h
  | persisted => exact h
  | rebooted => exact absurd rfl hpt

/-! ## The foreground's port while a handler runs -/

theorem Touched.fg_eq {u : State} (h : Touched ok s u) : u.fg = s.fg := by rw [h.frame]

theorem StoreEffect.fg_eq (h : StoreEffect ok s t) (hh : s.handler ≠ .off) : t.fg = s.fg := by
  cases h with
  | abort c => rfl
  | @port u hu f hf =>
    have hu' : u.handler ≠ .off := by rw [hu.frame]; exact hh
    rw [u.modifyPort_fg hu' f, hu.fg_eq]

theorem ExecEffect.fg_eq (h : ExecEffect s i t) (hh : s.handler ≠ .off) : t.fg = s.fg := by
  cases h with
  | request h => rw [h.frame]
  | command h => exact h.fg_eq hh
  | started hh' => exact absurd hh' hh
  | stopping => exact State.modifyPort_fg _ (by exact hh) _
  | advanced => exact State.modifyPort_fg _ (by exact hh) _
  | polled _ hh' => exact absurd hh' hh

theorem ContinueEffect.fg_eq {p : Pending} (h : ContinueEffect s p t) (hh : s.handler ≠ .off) : t.fg = s.fg := by
  cases h with
  | element h => exact h.fg_eq hh
  | stopped => exact State.modifyPort_fg _ (by exact hh) _
  | waits => rfl

/-- No step of the handler but the reboot touches the foreground's port. -/
theorem HandlerEffect.fg_eq {pt : DrainPoint} (he : HandlerEffect s pt t) (hh : s.handler ≠ .off) :
    t.fg = s.fg ∨ t.boots = s.boots + 1 := by
  cases he with
  | command i _ _ hu pt' => exact .inl (hu.fg_eq hh)
  | returned => exact .inl (State.modifyPort_fg _ (by exact hh) _)
  | tested hu a =>
    rw [State.goto_fg, State.markWatched_fg]
    exact .inl (hu.elim (congrArg State.fg) fun hu => hu.fg_eq hh)
  | latched => exact .inl rfl
  | persisted => exact .inl rfl
  | rebooted => exact .inr rfl

/-- A move of another agent than FG leaves the foreground's port alone, or is a reset. -/
theorem MoveEffect.fg_eq {m : Move} (he : MoveEffect s m t) (hm : m ≠ .fg) : t.fg = s.fg ∨ t.boots = s.boots + 1 := by
  have hown : s.ownMove ≠ .fg → s.handler ≠ .off := fun h hh => h (by simp [State.ownMove, s.context_eq_fg.mpr hh])
  cases he with
  | idle => exact .inl rfl
  | request _ he => exact .inl (by rw [he.frame])
  | pipe => exact .inl (by rw [pipeStep_frame])
  | goesOn _ he => exact .inl (he.fg_eq (hown hm))
  | issued _ _ he =>
    exact .inl ((he.fg_eq (by simpa using hown hm)).trans (s.modifyPort_fg (hown hm) _))
  | drain hh _ he => exact he.fg_eq (by simp [hh])
  | reset => exact .inr rfl
  | _ => exact .inl rfl

end Sys2Proof.Machine

namespace Sys2Proof.Proofs

open Sys2Proof.Machine

/-- Settles O58: of the operations each flag is written by INIT and its own POLLCLR alone, and the handler's tests set. -/
theorem stickyFlagsStaySet : Obligations.StickyFlagsStaySet :=
  ⟨fun _ _ _ h hinit =>
      ⟨(exec_effect h).flagVideo_eq hinit, (exec_effect h).flagSound_eq hinit⟩,
    fun _ _ _ h hpt =>
      ⟨(handlerStep_effect h).keeps_flagVideo hpt, (handlerStep_effect h).keeps_flagSound hpt⟩⟩

end Sys2Proof.Proofs
end

section
/-! PROOFS. The bus transactions from their ACCEPT to their last step. -/

namespace Sys2Proof.Machine

variable (s : State)

/-! ## LOOKUP (R144) -/

@[simp] theorem entryValue_entryAt (a : Nat) : entryValue (s.entryAt a) = s.readV a := entryValue_fuse _ _

theorem xRspValue_lookup : (lookup s).xRspValue = s.readV s.tAddr.toNat := by simp [State.xRspValue]

theorem xRspPerm_lookup : (lookup s).xRspPerm = s.readP s.tAddr.toNat := by simp [State.xRspPerm]

/-! ## ACCEPT and the moves of PIPE -/

variable {s}

/-- A scheduled move of PIPE is its step, taken without the move. -/
theorem step_pipe {rest : List Move} (hs : s.schedule = .pipe :: rest) (hf : s.fatal = false) :
    step s = .next (pipeStep { s with schedule := rest }) := by
  rw [step_scheduled s hs, performMove_alive { s with schedule := rest } hf]
  rfl

/-- With nothing scheduled PIPE moves first. -/
theorem step_default_pipe (hs : s.schedule = []) (hf : s.fatal = false) (hp : s.phase ≠ .idle) :
    step s = .next (pipeStep s) := by
  have hmove : defaultMove s = some .pipe := by simp [defaultMove, hp]
  rw [step_unscheduled s hs, performDefault, hmove]
  exact performMove_alive s hf

theorem busRequest_of_canAccept (h : s.canAccept) (addr : Address) (isWrite : Bool) (wdata : Byte)
    (lost : State → State) : busRequest addr isWrite wdata lost s = .next (accept addr isWrite wdata s) := by
  obtain ⟨he, hs, hp⟩ := h
  simp [busRequest, he, hs, hp]

theorem exec_brd_of_canAccept (h : s.canAccept) (addr : Address) (wdata : Byte) :
    exec (.brd addr wdata) s = .next (accept addr false wdata s) := busRequest_of_canAccept h ..

theorem exec_bwr_of_canAccept (h : s.canAccept) (addr : Address) (wdata : Byte) :
    exec (.bwr addr wdata) s = .next (accept addr true wdata s) := busRequest_of_canAccept h ..

/-- R155: a cycle that finds no ACCEPT enabled is lost. -/
theorem busRequest_of_not_live (hp : s.phase = .idle) (h : s.enabled = false ∨ s.stopping = true) (addr : Address)
    (isWrite : Bool) (wdata : Byte) (lost : State → State) :
    busRequest addr isWrite wdata lost s = .next (lost s) := by
  rcases h with h | h <;> simp [busRequest, hp, h]

/-- R352 (a): no request while a transaction is in flight. -/
theorem busRequest_in_flight (hp : s.phase ≠ .idle) (addr : Address) (isWrite : Bool) (wdata : Byte)
    (lost : State → State) : busRequest addr isWrite wdata lost s = .refused .requestInFlight := by
  simp [busRequest, hp]

/-- With nothing scheduled the pipeline's steps are the machine's, until the slot is idle. -/
theorem steps_default_reach_idle (n : Nat) (hs : s.schedule = []) (hf : s.fatal = false) (h : s.pipeStepsLeft ≤ n) :
    ∃ k t, k ≤ n ∧ steps k s = .next t ∧ t.phase = .idle := by
  induction n generalizing s with
  | zero => exact ⟨0, s, le_rfl, steps_zero s, s.pipeStepsLeft_eq_zero.mp (Nat.le_zero.mp h)⟩
  | succ n ih =>
    by_cases hp : s.phase = .idle
    · exact ⟨0, s, Nat.zero_le _, steps_zero s, hp⟩
    · have hlt := pipeStepsLeft_pipeStep_lt s hp
      have hs' : (pipeStep s).schedule = [] := by rw [pipeStep_frame]; exact hs
      have hf' : (pipeStep s).fatal = false := by rw [pipeStep_frame]; exact hf
      obtain ⟨k, t, hk, hrun, hidle⟩ := ih hs' hf' (by omega)
      exact ⟨k + 1, t, by omega, (steps_succ s k (step_default_pipe hs hf hp)).trans hrun, hidle⟩

end Sys2Proof.Machine

namespace Sys2Proof.Proofs

open Sys2Proof.Machine

/-- Settles O21: the frame of the pipeline, and the one byte of a COMMIT. -/
theorem pipelineWritesOnlyItsOwn : Obligations.PipelineWritesOnlyItsOwn :=
  fun s => ⟨pipeStep_frame s, readV_pipeStep s⟩

/-- Settles O8: as long as a transaction is in flight, the default move is PIPE's. -/
theorem pipeMovesAndFinishes : Obligations.PipeMovesAndFinishes :=
  ⟨fun _ _ hs hf => step_pipe hs hf, fun s hs hf => steps_default_reach_idle 4 hs hf s.pipeStepsLeft_le_four⟩

/-- Settles O15: the numbers of the codes carry the two enables. -/
theorem permissionTable : Obligations.PermissionTable := by
  unfold Obligations.PermissionTable
  decide

/-- Settles O16: the three ends of a lookup, each with its frame. -/
theorem lookupFetchesFusedEntry : Obligations.LookupFetchesFusedEntry := by
  intro s hp hg a t
  have ht : t = lookup s := pipeStep_lookup s hp hg
  rw [ht]
  refine ⟨xRspValue_lookup s, xRspPerm_lookup s, fun hr => ?read, fun hw hcode => ?allowed, fun hw hcode => ?ignored⟩
  case read =>
    rw [lookup_of_read s hr]
    exact ⟨rfl, by simp [State.xDriveEn, a], by simp [State.xWrAccept], rfl⟩
  case allowed =>
    rw [lookup_of_allowed s hw hcode]
    exact ⟨by simp [State.xWrAccept, hp], by simp [State.xDriveEn, hp], rfl⟩
  case ignored =>
    rw [lookup_of_ignored s hw hcode]
    exact ⟨by simp [State.xWrAccept], by simp [State.xDriveEn], rfl⟩

/-- Settles O22: the lookup fetches the code that SETP wrote; the commit fetches none. -/
theorem permissionChangeSeenFromNextLookup : Obligations.PermissionChangeSeenFromNextLookup := by
  intro s addr code hs haddr ha hp hw
  set t := (s.writeP addr.toNat code).finish .none with ht
  have hphase : t.phase = .addressCaptured := by simpa [ht] using hp
  have hcode : t.readP t.tAddr.toNat = code := by
    simp [ht, State.readP_writeP, ha]
  have hw' : t.tIsWrite = true := by simpa [ht] using hw
  refine ⟨t, exec_setp_of_canIssue hs haddr code, fun hg => ?before, fun hg => ?after⟩
  case before =>
    rw [pipeStep_lookup t hphase (by simpa [ht] using hg)]
    cases hallow : writable code with
    | true => rw [lookup_of_allowed t hw' (by rw [hcode, hallow])]; exact ⟨rfl, by simpa using hphase⟩
    | false => rw [lookup_of_ignored t hw' (by rw [hcode, hallow])]; exact ⟨by simpa [ht] using hg, rfl⟩
  case after =>
    rw [pipeStep_commit t hphase (by simpa [ht] using hg), readV_commit]
    exact ⟨rfl, by simp [ht, ha]⟩

/-- Settles O23: neither the gate nor the byte it withholds looks at the value plane. -/
theorem unreadableBytesAreNotDriven : Obligations.UnreadableBytesAreNotDriven := by
  intro s v hp hg hr hcode
  have hcode' : readable (({ s with v := v } : State).readP s.tAddr.toNat) = false := hcode
  rw [pipeStep_lookup s hp hg, pipeStep_lookup { s with v := v } hp hg, lookup_of_read s hr,
    lookup_of_read { s with v := v } hr]
  simp [State.xDriveEn, hcode, hcode']

/-- Settles O27: a request that finds no ACCEPT enabled. -/
theorem busCycleWithoutAccept : Obligations.BusCycleWithoutAccept := fun _ _ _ =>
  ⟨fun hp hlost => ⟨busRequest_of_not_live hp hlost .., busRequest_of_not_live hp hlost ..⟩,
    fun hp => ⟨busRequest_in_flight hp .., busRequest_in_flight hp ..⟩⟩

/-- Settles O26: after the ACCEPT the one lookup ends the transaction. -/
theorem ignoredWriteTransaction : Obligations.IgnoredWriteTransaction := by
  intro s addr wdata rest hacc hfatal hcode hs
  set t := accept addr true wdata s with ht
  have hstep : step t = .next { t with schedule := rest, tEntry := s.entryAt addr.toNat, phase := .idle } := by
    rw [step_pipe (s := t) hs hfatal, pipeStep_lookup { t with schedule := rest } rfl rfl]
    exact congrArg Host.Outcome.next (lookup_of_ignored { t with schedule := rest } rfl hcode)
  refine ⟨t, _, exec_bwr_of_canAccept hacc addr wdata, hstep, ?_, ?_, ?_, fun b => rfl, fun b => rfl, rfl⟩
  · simp [ht, State.xWrAccept]
  · simp [State.xWrAccept]
  · simp [State.xDriveEn]

/-- Settles O24: after the ACCEPT the lookup answers and the retirement frees the slot. -/
theorem readTransaction : Obligations.ReadTransaction := by
  intro s addr wdata rest hacc hfatal hs a
  set t := accept addr false wdata s with ht
  set u := lookup { t with schedule := .pipe :: rest } with hu
  have hlookup : step t = .next u := by
    rw [step_pipe (s := t) hs hfatal, pipeStep_lookup { t with schedule := .pipe :: rest } rfl rfl]
  have hread := lookup_of_read { t with schedule := .pipe :: rest } rfl
  have hphase : u.phase = .readResolved := lookup_phase_of_read _ rfl
  have hretire : step u = .next (retire { u with schedule := rest }) := by
    rw [step_pipe (s := u) (rest := rest) (by simp [hu]) (by simpa [hu, ht] using hfatal), pipeStep_retire]
    exact .inl hphase
  have hvalue : u.xRspValue = s.readV a := xRspValue_lookup { t with schedule := .pipe :: rest }
  have hperm : u.xRspPerm = s.readP a := xRspPerm_lookup { t with schedule := .pipe :: rest }
  have hdrive : u.xDriveEn = readable (s.readP a) := by
    rw [← hperm]
    simp [State.xDriveEn, State.xRspPerm, hphase]
  refine ⟨t, u, _, exec_brd_of_canAccept hacc addr wdata, hlookup, hretire, rfl, hphase, hvalue, hperm, hdrive, ?_, ?_,
    xDriveEn_retire _, ?_⟩
  · simp [State.xWrAccept, hphase]
  · rw [hu, hread]; rfl
  · rw [hu, hread]
    exact ⟨fun b => rfl, fun b => rfl, rfl⟩

/-- Settles O25: after the ACCEPT the lookup forwards the write, and COMMIT, APPEND and RETIRE carry it out. -/
theorem committedWriteTransaction : Obligations.CommittedWriteTransaction := by
  intro s addr wdata rest hacc hfatal hcode hs a
  set t := accept addr true wdata s with ht
  set u1 : State := { t with schedule := .pipe :: .pipe :: .pipe :: rest, tEntry := s.entryAt a, tGated := true } with hu1
  set u2 := commit { u1 with schedule := .pipe :: .pipe :: rest } with hu2
  set u3 := append { u2 with schedule := .pipe :: rest } with hu3
  set w := retire { u3 with schedule := rest } with hw
  have hlookup : step t = .next u1 := by
    rw [step_pipe (s := t) hs hfatal, pipeStep_lookup { t with schedule := .pipe :: .pipe :: .pipe :: rest } rfl rfl]
    exact congrArg Host.Outcome.next
      (lookup_of_allowed { t with schedule := .pipe :: .pipe :: .pipe :: rest } rfl hcode)
  have hcommit : step u1 = .next u2 := by
    rw [step_pipe (s := u1) (rest := .pipe :: .pipe :: rest) rfl hfatal, pipeStep_commit _ rfl rfl]
  have happend : step u2 = .next u3 := by
    rw [step_pipe (s := u2) (rest := .pipe :: rest) rfl hfatal, pipeStep_append _ rfl]
  have hretire : step u3 = .next w := by
    rw [step_pipe (s := u3) (rest := rest) rfl hfatal, pipeStep_retire _ (.inr rfl)]
  have hstored : ∀ b, w.readV b = if b = a then wdata else s.readV b :=
    readV_commit { u1 with schedule := .pipe :: .pipe :: rest }
  have hslot : 0 < s.slotCount → ∀ j, w.slotAt j = if s.slotIndex j = s.slotIndex s.wr then addr else s.slotAt j :=
    append_slotAt { u2 with schedule := .pipe :: rest }
  refine ⟨t, u1, u2, u3, w, exec_bwr_of_canAccept hacc addr wdata, hlookup, hcommit, happend, hretire, rfl, rfl, rfl, rfl,
    rfl, rfl, rfl, rfl, rfl, rfl, ?_, ?_, fun b => rfl, ?_, ?_, rfl, rfl, rfl, rfl⟩
  · rw [hstored, if_pos rfl]
  · intro b hb; rw [hstored, if_neg hb]
  · intro hn; rw [hslot (State.slotCount_pos s hn), if_pos rfl]
  · exact fun j hj => append_slotAt_other { u2 with schedule := .pipe :: rest } hj

/-- Settles O18: the pipeline's step is APPEND in that phase, and no other step of it and no command writes a slot. -/
theorem appendLogsCommittedAddress : Obligations.AppendLogsCommittedAddress := by
  refine ⟨fun s hp => ?appends, pipeStep_ring, fun i s t h => ⟨(exec_effect h).slots_eq, (exec_effect h).wr_eq⟩⟩
  case appends =>
    intro t
    have ht : t = append s := pipeStep_append s hp
    rw [ht]
    refine ⟨fun hn => ?logged, fun j hj => ?others, rfl, ?cursor, rfl, fun a => ?window, rfl, rfl⟩
    case logged => rw [append_slotAt s (State.slotCount_pos s hn), if_pos rfl]
    case others => exact append_slotAt_other s hj
    case cursor => simp [BitVec.toNat_add]
    case window => simp [State.inTearWindow]

end Sys2Proof.Proofs
end

section
/-! PROOFS. Who moves the cursors: what every move does to the ring, and the commands that read it. -/

namespace Sys2Proof.Machine

variable {s t : State}

/-! ## What a move does to the ring -/

/-- What a move does to the slots and the two cursors: nothing, an APPEND of PIPE, an ADVR of the handler, an INIT of FG,
or a reset. -/
inductive RingEffect (s t : State) : Move → Prop
  | kept {m : Move} (hslots : t.slots = s.slots) (hwr : t.wr = s.wr) (hrd : t.rd = s.rd) : RingEffect s t m
  | pushed (hphase : s.phase = .writeCommitted) (hphase' : t.phase = .eventLogged)
      (hslots : t.slots = s.slots.set (s.slotIndex s.wr) s.tAddr) (hwr : t.wr = s.wr + 1) (hrd : t.rd = s.rd) :
      RingEffect s t .pipe
  | advanced (hh : s.handler ≠ .off) (hne : s.rd ≠ s.wr) (hslots : t.slots = s.slots) (hwr : t.wr = s.wr)
      (hrd : t.rd = s.rd + 1) (hcopy : t.consumerRd = s.consumerRd + 1) (hphase : t.phase = s.phase) (hv : t.v = s.v)
      (hp : t.p = s.p) : RingEffect s t .irq
  | emptied (he : s.enabled = false) (he' : t.enabled = true) (hslots : t.slots = s.slots) (hwr : t.wr = 0)
      (hrd : t.rd = 0) : RingEffect s t .fg
  | rebooted {m : Move} (hboots : t.boots = s.boots + 1) (hslots : t.slotCount = s.slotCount) : RingEffect s t m

/-- The ports, the inputs and the handler's next point are no part of the ring. -/
theorem RingEffect.congr {s' t' : State} {m : Move} (h : RingEffect s t m)
    (hs : s' = { s with fg := s'.fg, irq := s'.irq, bus := s'.bus, schedule := s'.schedule })
    (ht : t' = { t with handler := t'.handler }) : RingEffect s' t' m := by
  rw [hs, ht]
  cases h with
  | kept hslots hwr hrd => exact .kept hslots hwr hrd
  | pushed hphase hphase' hslots hwr hrd => exact .pushed hphase hphase' hslots hwr hrd
  | advanced hh hne hslots hwr hrd hcopy hphase hv hp => exact .advanced hh hne hslots hwr hrd hcopy hphase hv hp
  | emptied he he' hslots hwr hrd => exact .emptied he he' hslots hwr hrd
  | rebooted hboots hslots => exact .rebooted hboots hslots

theorem State.ownMove_of_off (hh : s.handler = .off) : s.ownMove = .fg := by
  simp [State.ownMove, s.context_eq_fg.mpr hh]

theorem StoreEffect.ring {ok : Prop} (h : StoreEffect ok s t) (m : Move) : RingEffect s t m :=
  .kept (by rw [h.frame]) (by rw [h.frame]) (by rw [h.frame])

theorem RequestEffect.ring (h : RequestEffect s t) (m : Move) : RingEffect s t m :=
  .kept (by rw [h.frame]) (by rw [h.frame]) (by rw [h.frame])

theorem ExecEffect.ring {i : Instr} (h : ExecEffect s i t) : RingEffect s t s.ownMove := by
  cases h with
  | request h => exact h.ring _
  | command h => exact h.ring _
  | started hh he => exact State.ownMove_of_off hh ▸ .emptied he (by simp) (by simp) (by simp) (by simp)
  | stopping => exact .kept (by simp) (by simp) (by simp)
  | advanced hh hne =>
    exact State.ownMove_of_handler hh ▸
      .advanced hh hne (by simp) (by simp) (by simp) (by simp) (by simp) (by simp) (by simp)
  | polled flag => exact .kept (by simp) (by simp) (by simp)

theorem ContinueEffect.ring {p : Pending} (h : ContinueEffect s p t) (m : Move) : RingEffect s t m := by
  cases h with
  | element h => exact h.ring m
  | stopped => exact .kept (by simp) (by simp) (by simp)
  | waits => exact .kept rfl rfl rfl

theorem HandlerEffect.ring {pt : DrainPoint} (h : HandlerEffect s pt t) (hh : s.handler ≠ .off) :
    RingEffect s t .irq := by
  cases h with
  | command i _ _ hu pt' => exact State.ownMove_of_handler hh ▸ hu.ring.congr rfl rfl
  | returned => exact .kept (by simp) (by simp) (by simp)
  | tested hu a =>
    refine .kept ?_ ?_ ?_
    all_goals
      rcases hu with rfl | hu
      · simp
      · rw [hu.frame]; simp
  | latched => exact .kept rfl rfl rfl
  | persisted => exact .kept rfl rfl rfl
  | rebooted => exact .rebooted rfl s.slotCount_reboot

theorem pipeStep_ringEffect (s : State) : RingEffect s (pipeStep s) .pipe := by
  have hrd : (pipeStep s).rd = s.rd := by rw [pipeStep_frame]
  by_cases hp : s.phase = .writeCommitted
  · rw [pipeStep_append s hp]
    exact .pushed hp rfl rfl rfl rfl
  · obtain ⟨hwr, hslots⟩ := pipeStep_ring s hp
    exact .kept hslots hwr hrd

theorem MoveEffect.ring {m : Move} (h : MoveEffect s m t) : RingEffect s t m := by
  cases h with
  | request _ h => exact (h.ring .auto).congr rfl rfl
  | pipe => exact pipeStep_ringEffect s
  | goesOn _ h => exact h.ring _
  | issued _ _ h =>
    rw [← State.ownMove_congr (s.modifyPort_handler _)]
    exact h.ring.congr (by rw [State.modifyPort_frame]) rfl
  | drain hh _ h => exact h.ring (by simp [hh])
  | reset => exact .rebooted rfl s.slotCount_reboot
  | _ => exact .kept rfl rfl rfl

/-- Every step does one of these to the ring. -/
theorem step_ring (h : step s = .next t) : t = s ∨ ∃ m, s.nextMove = some m ∧ RingEffect s t m := by
  obtain ⟨-, rfl⟩ | ⟨m, hm, he⟩ := step_eq_next h
  · exact .inl rfl
  · exact .inr ⟨m, hm, he.ring.congr rfl rfl⟩

theorem RingEffect.slotCount_eq {m : Move} (h : RingEffect s t m) : t.slotCount = s.slotCount := by
  cases h with
  | kept hslots => exact congrArg List.length hslots
  | pushed _ _ hslots => exact (congrArg List.length hslots).trans (List.length_set ..)
  | advanced _ _ hslots => exact congrArg List.length hslots
  | emptied _ _ hslots => exact congrArg List.length hslots
  | rebooted _ hslots => exact hslots

/-! ## The commands of the ring -/

/-- R234: with a legal number of slots the slot of an index is there. -/
theorem State.getElem?_slotIndex (hn : s.slotCountOk) (c : Word) :
    s.slots[s.slotIndex c]? = some (s.slotAt c) := by
  have hlt := s.slotIndex_lt (State.slotCount_pos s hn) c
  rw [State.slotAt, List.getD_eq_getElem?_getD, List.getElem?_eq_getElem hlt, Option.getD_some]

theorem exec_rdslot_of_canIssue (h : s.canIssue) (index : Word) :
    exec (.rdslot index) s = .next (s.finish (.address (s.slotAt index))) := by
  change execRdslot index s = _
  rw [execRdslot, fportCommand_of_ready s h.1 h.2]

/-- ADVR where a command can begin: FG's is refused, as is one on an empty ring. -/
theorem exec_advr_of_canIssue (h : s.canIssue) :
    exec .advr s =
      if s.handler = .off then .refused .contextNotAllowed
      else if s.rd = s.wr then .refused .advrOnEmptyRing
      else .next (({ s with rd := s.rd + 1, consumerRd := s.consumerRd + 1 }).finish .none) := by
  have hc : s.context ≠ .irq ↔ s.handler = .off := by
    rw [← s.context_eq_fg]
    cases s.context <;> simp
  change execAdvr s = _
  rw [execAdvr, fportCommand_of_ready s h.1 h.2]
  simp only [hc]

end Sys2Proof.Machine

namespace Sys2Proof.Proofs

open Sys2Proof.Machine

/-- Settles O59: nothing that a move does to the ring changes how many slots it has. -/
theorem slotCountIsFixed : Obligations.SlotCountIsFixed := by
  intro s t h
  obtain rfl | ⟨m, -, he⟩ := step_ring h
  · rfl
  · exact he.slotCount_eq

/-- Settles O14: each cursor's owner, by what a move can do to the ring. -/
theorem cursorOwnership : Obligations.CursorOwnership := by
  refine ⟨fun s => ?unread, fun s => by rw [pipeStep_frame],
    fun i s t h hi => ⟨(exec_effect h).wr_eq hi, (exec_effect h).rd_eq hi⟩, fun s t h => ?moves⟩
  case unread =>
    have := s.rd.isLt
    rw [State.unread, BitVec.toNat_sub]
    congr 1
    omega
  case moves =>
    obtain rfl | ⟨m, hm, he⟩ := step_ring h
    · exact ⟨.inl ⟨rfl, rfl⟩, .inl rfl⟩
    cases he with
    | kept hslots hwr hrd => exact ⟨.inl ⟨hwr, hslots⟩, .inl hrd⟩
    | pushed hphase hphase' hslots hwr hrd =>
      exact ⟨.inr (.inl ⟨hm, hphase, hphase', hwr, hrd, hslots⟩), .inl hrd⟩
    | advanced hh hne hslots hwr hrd hcopy hphase hv hp =>
      exact ⟨.inl ⟨hwr, hslots⟩, .inr (.inl ⟨hm, hh, hne, hrd, hcopy, hwr, hphase, hv, hp⟩)⟩
    | emptied hdis hen hslots hwr hrd =>
      exact ⟨.inr (.inr (.inl ⟨hm, hdis, hen, hwr, hrd, hslots⟩)), .inr (.inr (.inl ⟨hm, hdis, hen, hwr, hrd⟩))⟩
    | rebooted hboots => exact ⟨.inr (.inr (.inr hboots)), .inr (.inr (.inr hboots))⟩

/-- Settles O43. -/
theorem readSlotReducesIndex : Obligations.ReadSlotReducesIndex := fun s index hs =>
  ⟨_, exec_rdslot_of_canIssue hs index, fun hn => ⟨_, State.getElem?_slotIndex hn index, by simp⟩, rfl⟩

/-- Settles O44: the three cases of ADVR. -/
theorem advanceReadCursor : Obligations.AdvanceReadCursor := by
  intro s hs
  rw [exec_advr_of_canIssue hs]
  refine ⟨fun hh hne => ?moves, fun hh he => by rw [if_neg hh, if_pos he], fun hh => by rw [if_pos hh]⟩
  case moves =>
    rw [if_neg hh, if_neg hne]
    refine ⟨_, rfl, ?cursor, fun hcaught => ?caught, rfl⟩
    case cursor => simp [BitVec.toNat_add]
    case caught =>
      rw [State.evtIrq, hcaught, State.finish_wr]
      simp

end Sys2Proof.Proofs
end

section
/-! PROOFS. The ring refines a queue that loses its oldest entry when full: its unread events listed by age, and what an
APPEND and an ADVR do to that list. -/

namespace Sys2Proof.Machine

variable {s t : State}

/-! ## The last events, oldest first -/

/-- The last `k` events written: the addresses with sequence numbers `wr - k` to `wr - 1`. -/
def State.lastEvents (s : State) : Nat → List Address
  | 0 => []
  | k + 1 => s.slotAt (s.wr - BitVec.ofNat 32 (k + 1)) :: s.lastEvents k

@[simp] theorem State.lastEvents_length (k : Nat) : (s.lastEvents k).length = k := by
  induction k with
  | zero => rfl
  | succ k ih => simp [State.lastEvents, ih]

/-- The list of sequence numbers that `State.unreadEvents` maps over, for any length. -/
theorem State.lastEvents_eq_map (k : Nat) :
    s.lastEvents k =
      (List.range k).map fun i => s.slotAt (s.wr - BitVec.ofNat 32 k + BitVec.ofNat 32 i) := by
  induction k with
  | zero => rfl
  | succ k ih =>
    rw [State.lastEvents, List.range_succ_eq_map, ih, List.map_cons, List.map_map]
    congr 1
    · simp
    · refine List.map_congr_left fun i _ => congrArg s.slotAt ?_
      simp only [BitVec.ofNat_add, Nat.succ_eq_add_one]
      ring

theorem State.unreadEvents_eq_lastEvents : s.unreadEvents = s.lastEvents s.inRing := s.lastEvents_eq_map _ |>.symm

theorem State.ring_eq : s.ring = { lost := s.unread.toNat - s.slotCount, entries := s.lastEvents s.inRing } := by
  rw [State.ring, State.unreadEvents_eq_lastEvents]

/-- Up to N unread, none is lost and all are in the slots. -/
theorem State.ring_of_le (h : s.unread.toNat ≤ s.slotCount) :
    s.ring = { lost := 0, entries := s.lastEvents s.unread.toNat } := by
  rw [State.ring_eq, State.inRing, Nat.min_eq_left h, Nat.sub_eq_zero_of_le h]

/-- From N unread on, the last N are in the slots and those before them are lost. -/
theorem State.ring_of_ge (h : s.slotCount ≤ s.unread.toNat) :
    s.ring = { lost := s.unread.toNat - s.slotCount, entries := s.lastEvents s.slotCount } := by
  rw [State.ring_eq, State.inRing, Nat.min_eq_right h]

/-- The list depends on the slots and the write cursor alone. -/
theorem State.lastEvents_congr (hslots : t.slots = s.slots) (hwr : t.wr = s.wr) (k : Nat) :
    t.lastEvents k = s.lastEvents k := by
  induction k with
  | zero => rfl
  | succ k ih => rw [State.lastEvents, State.lastEvents, State.slotAt_congr hslots, hwr, ih]

theorem State.inRing_congr (hslots : t.slots = s.slots) (hwr : t.wr = s.wr) (hrd : t.rd = s.rd) :
    t.inRing = s.inRing := by
  simp only [State.inRing, State.unread, State.slotCount, hslots, hwr, hrd]

theorem State.ring_congr (hslots : t.slots = s.slots) (hwr : t.wr = s.wr) (hrd : t.rd = s.rd) : t.ring = s.ring := by
  rw [State.ring_eq, State.ring_eq, State.lastEvents_congr hslots hwr, State.inRing_congr hslots hwr hrd]
  simp only [State.unread, State.slotCount, hslots, hwr, hrd]

/-! ## Slot indices wrap with the cursors (43_eventlog.md R242) -/

/-- Cursors at a distance below N name different slots. -/
theorem State.slotIndex_sub_ne (hn : s.slotCountOk) (c : Word) {k : Nat} (h0 : 0 < k) (hk : k < s.slotCount) :
    s.slotIndex (c - BitVec.ofNat 32 k) ≠ s.slotIndex c := by
  have hdvd := State.slotCount_dvd s hn
  have hle : s.slotCount ≤ 2 ^ 32 := Nat.le_of_dvd (by decide) hdvd
  intro heq
  have hsub : (c - BitVec.ofNat 32 k).toNat = (c.toNat + (2 ^ 32 - k)) % 2 ^ 32 := by
    rw [BitVec.toNat_sub, BitVec.toNat_ofNat, Nat.mod_eq_of_lt (by omega : k < 2 ^ 32), Nat.add_comm]
  rw [State.slotIndex, State.slotIndex, hsub, Nat.mod_mod_of_dvd _ hdvd] at heq
  have hback : s.slotCount ∣ 2 ^ 32 - k :=
    Nat.modEq_zero_iff_dvd.mp (Nat.ModEq.add_left_cancel' (b := 0) c.toNat heq)
  have hk' : s.slotCount ∣ k := (Nat.dvd_sub_iff_right (by omega) hdvd).mp hback
  exact absurd (Nat.le_of_dvd h0 hk') (by omega)

/-! ## APPEND pushes -/

/-- Below N events back, an APPEND puts its address behind the events before it. -/
theorem lastEvents_append (hn : s.slotCountOk) {k : Nat} (hk : k < s.slotCount) :
    (append s).lastEvents (k + 1) = s.lastEvents k ++ [s.tAddr] := by
  induction k with
  | zero => simp [State.lastEvents, append_slotAt s (State.slotCount_pos s hn)]
  | succ k ih =>
    rw [State.lastEvents, ih (by omega), State.lastEvents, List.cons_append]
    congr 1
    have hseq : (append s).wr - BitVec.ofNat 32 (k + 1 + 1) = s.wr - BitVec.ofNat 32 (k + 1) := by
      rw [append_wr]
      bv_omega
    rw [hseq, append_slotAt_other s (State.slotIndex_sub_ne hn s.wr (by omega) hk)]

theorem append_unread (h : s.unread.toNat < 2 ^ 32 - 1) : (append s).unread.toNat = s.unread.toNat + 1 := by
  have hsucc : (append s).unread = s.unread + 1 := by
    simp only [State.unread, append_wr, append_rd]
    ring
  rw [hsucc]
  bv_omega

/-- R231, R232: an APPEND is a push that never waits; on a full ring it loses the oldest event. -/
theorem append_ring (hn : s.slotCountOk) (h : s.unread.toNat < 2 ^ 32 - 1) :
    (append s).ring = s.ring.push s.slotCount s.tAddr := by
  have hunread := append_unread h
  have hcount := append_slotCount s
  by_cases hfull : s.unread.toNat < s.slotCount
  · rw [State.ring_of_le (by omega), State.ring_of_le (by omega), hunread, lastEvents_append hn hfull, LossyQueue.push,
      if_pos (by simpa using hfull)]
  · obtain ⟨n, hn'⟩ : ∃ n, s.slotCount = n + 1 := ⟨s.slotCount - 1, by have := State.slotCount_pos s hn; omega⟩
    have hlost : s.unread.toNat + 1 - (n + 1) = s.unread.toNat - (n + 1) + 1 := by omega
    rw [State.ring_of_ge (by omega), State.ring_of_ge (by omega), hunread, hcount, hn',
      lastEvents_append hn (by omega), LossyQueue.push, if_neg (by simp), hlost]
    rfl

/-! ## ADVR advances -/

/-- One unread less. -/
theorem State.unread_advance (hwr : t.wr = s.wr) (hrd : t.rd = s.rd + 1) (h : 0 < s.unread.toNat) :
    t.unread.toNat = s.unread.toNat - 1 := by
  have hpred : t.unread = s.unread - 1 := by
    simp only [State.unread, hwr, hrd]
    ring
  rw [hpred]
  bv_omega

/-- R235, R237: moving the read cursor on a ring that is not empty skips a lost event, or takes the oldest. -/
theorem State.ring_advance (hslots : t.slots = s.slots) (hwr : t.wr = s.wr) (hrd : t.rd = s.rd + 1)
    (h : 0 < s.unread.toNat) : t.ring = s.ring.advance := by
  have hunread := State.unread_advance hwr hrd h
  have hcount : t.slotCount = s.slotCount := congrArg List.length hslots
  by_cases hlost : s.slotCount < s.unread.toNat
  · have hpred : s.unread.toNat - 1 - s.slotCount = s.unread.toNat - s.slotCount - 1 := by omega
    rw [State.ring_of_ge (by omega), State.ring_of_ge (by omega), hunread, hcount, State.lastEvents_congr hslots hwr,
      LossyQueue.advance, if_pos (by simpa using hlost), hpred]
  · obtain ⟨n, hn⟩ : ∃ n, s.unread.toNat = n + 1 := ⟨s.unread.toNat - 1, by omega⟩
    rw [State.ring_of_le (by omega), State.ring_of_le (by omega), hunread, hn, State.lastEvents_congr hslots hwr,
      LossyQueue.advance, if_neg (by simp)]
    rfl

/-- A ring whose cursors are both 0 is the empty queue. -/
theorem State.ring_empty (hwr : s.wr = 0) (hrd : s.rd = 0) : s.ring = { lost := 0, entries := [] } := by
  have hunread : s.unread.toNat = 0 := by simp [State.unread, hwr, hrd]
  rw [State.ring_of_le (by omega), hunread]
  rfl

theorem State.unread_pos (hne : s.rd ≠ s.wr) : 0 < s.unread.toNat := by
  unfold State.unread
  bv_omega

/-! ## The oldest event -/

/-- The read cursor is the unread count behind the write cursor. -/
theorem State.sub_unread {n : Nat} (h : s.unread.toNat = n) : s.wr - BitVec.ofNat 32 n = s.rd := by
  rw [← h, BitVec.ofNat_toNat, BitVec.setWidth_eq, State.unread]
  ring

/-- While none is lost, the oldest event stands in the read cursor's slot. -/
theorem State.ring_head? (hpos : 0 < s.unread.toNat) (hle : s.unread.toNat ≤ s.slotCount) :
    s.ring.entries.head? = some (s.slotAt s.rd) := by
  obtain ⟨n, hn⟩ : ∃ n, s.unread.toNat = n + 1 := ⟨s.unread.toNat - 1, by omega⟩
  rw [State.ring_of_le hle, hn, State.lastEvents, State.sub_unread hn]
  rfl

/-! ## Every move is one of the queue's -/

/-- What a move that is no reset does to the queue. -/
theorem RingEffect.refines {m : Move} (he : RingEffect s t m) (hn : s.slotCountOk) (h : s.unread.toNat < 2 ^ 32 - 1)
    (hboots : t.boots = s.boots) :
    t.ring = s.ring ∨
      (m = .pipe ∧ s.phase = .writeCommitted ∧ t.ring = s.ring.push s.slotCount s.tAddr) ∨
      (m = .irq ∧ 0 < s.unread.toNat ∧ t.ring = s.ring.advance) ∨
      (m = .fg ∧ t.ring = { lost := 0, entries := [] }) := by
  cases he with
  | kept hslots hwr hrd => exact .inl (State.ring_congr hslots hwr hrd)
  | pushed hphase _ hslots hwr hrd =>
    have hring : t.ring = (append s).ring := State.ring_congr hslots hwr hrd
    exact .inr (.inl ⟨rfl, hphase, hring.trans (append_ring hn h)⟩)
  | advanced _ hne hslots hwr hrd =>
    have hpos := State.unread_pos hne
    exact .inr (.inr (.inl ⟨rfl, hpos, State.ring_advance hslots hwr hrd hpos⟩))
  | emptied _ _ _ hwr hrd => exact .inr (.inr (.inr ⟨rfl, State.ring_empty hwr hrd⟩))
  | rebooted hboots' => exact absurd (hboots.symm.trans hboots') (by omega)

/-- A move of PIPE is the pipeline's step. -/
theorem MoveEffect.pipe_eq (h : MoveEffect s .pipe t) : t = pipeStep s := by
  generalize hm : Move.pipe = m at h
  cases h with
  | pipe => rfl
  | idle hne => exact absurd hm.symm hne
  | goesOn => exact absurd hm.symm State.ownMove_ne_pipe
  | issued => exact absurd hm.symm State.ownMove_ne_pipe
  | starts hne => exact absurd hm.symm hne.1
  | _ => cases hm

end Sys2Proof.Machine

namespace Sys2Proof.Proofs

open Sys2Proof.Machine

/-- Settles O45: what a move can do to the cursors and the slots, read as a step of the queue. -/
theorem ringRefinesLossyQueue : Obligations.RingRefinesLossyQueue := by
  intro s hn
  have hpush : s.phase = .writeCommitted → s.unread.toNat < 2 ^ 32 - 1 →
      (pipeStep s).ring = s.ring.push s.slotCount s.tAddr := fun hp h => pipeStep_append s hp ▸ append_ring hn h
  refine ⟨fun t h hstep hboots => ⟨?refines, fun hm hp => ?pipe⟩, hpush, fun t h => ?advr, fun hs hpos hle => ?rdslot,
    fun t h hf => ?init⟩
  case refines =>
    obtain rfl | ⟨m, hm, he⟩ := step_ring hstep
    · exact .inl rfl
    · simpa only [hm, Option.some.injEq] using he.refines hn h hboots
  case pipe =>
    obtain ⟨hnone, -⟩ | ⟨m, hm', he⟩ := step_eq_next hstep
    · exact absurd (hm.symm.trans hnone) nofun
    · obtain rfl : m = .pipe := Option.some.inj (hm'.symm.trans hm)
      rw [he.pipe_eq, pipeStep_append { s with schedule := s.schedule.tail } hp]
      exact (State.ring_congr rfl rfl rfl).trans (append_ring hn h)
  case advr =>
    obtain ⟨-, hne, rfl⟩ := execAdvr_eq_next h
    exact State.ring_advance (by simp) (by simp) (by simp) (State.unread_pos hne)
  case rdslot =>
    exact ⟨_, _, exec_rdslot_of_canIssue hs s.rd, by simp, State.ring_head? hpos hle⟩
  case init =>
    obtain ⟨-, -, rfl | rfl⟩ := execInit_eq_next h
    · exact State.ring_empty (by simp) (by simp)
    · exact absurd hf nofun

end Sys2Proof.Proofs
end

section
/-! PROOFS. The bulk operations: runs of a context's own moves, one element each. -/

namespace Sys2Proof.Machine

/-! ## A range of a plane -/

/-- Write the elements of a list at `a`, `a + 1`, and so on. -/
def Memory.setRange {α : Type} (m : Memory α) (a : Nat) : List α → Memory α
  | [] => m
  | x :: xs => Memory.setRange (Memory.set m a x) (a + 1) xs

theorem Memory.get?_setRange {α : Type} (m : Memory α) (a b : Nat) (xs : List α) :
    Memory.get? (Memory.setRange m a xs) b =
      if a ≤ b ∧ b < a + xs.length then xs[b - a]? else Memory.get? m b := by
  induction xs generalizing m a with
  | nil => exact (if_neg fun h => by simp at h; omega).symm
  | cons x xs ih =>
    rw [Memory.setRange, ih, Memory.get?_set, List.length_cons]
    rcases Nat.lt_trichotomy b a with hb | rfl | hb
    · rw [if_neg (by omega), if_neg (by omega), if_neg (by omega)]
    · rw [if_neg (by omega), if_pos rfl, if_pos (by omega), Nat.sub_self, List.getElem?_cons_zero]
    · obtain ⟨k, rfl⟩ : ∃ k, b = a + 1 + k := ⟨b - (a + 1), by omega⟩
      rw [if_neg (by omega : ¬ a + 1 + k = a), Nat.add_sub_cancel_left, show a + 1 + k - a = k + 1 by omega,
        List.getElem?_cons_succ]
      exact if_congr (by omega) rfl rfl

variable {s : State}

/-- Bytes read after a range is written. -/
theorem State.readV_setRange (a b : Nat) (bs : List Byte) :
    ({ s with v := Memory.setRange s.v a bs } : State).readV b =
      if a ≤ b ∧ b < a + bs.length then bs.getD (b - a) 0 else s.readV b := by
  unfold State.readV
  rw [Memory.get?_setRange]
  split_ifs with h
  · rw [List.getD_eq_getElem?_getD, List.getElem?_eq_getElem (by omega), Option.getD_some]
  · rfl

/-- Codes read after a range is written. -/
theorem State.readP_setRange (a b : Nat) (cs : List Perm) :
    ({ s with p := Memory.setRange s.p a cs } : State).readP b =
      if a ≤ b ∧ b < a + cs.length then cs.getD (b - a) 0 else s.readP b := by
  unfold State.readP
  rw [Memory.get?_setRange]
  split_ifs with h
  · rw [List.getD_eq_getElem?_getD, List.getElem?_eq_getElem (by omega), Option.getD_some]
  · rfl

/-! ## An element after another: the command in progress is overwritten -/

@[simp] theorem State.proceed_zero (s : State) (p : Pending) (r : Result) : s.proceed 0 p r = s.finish r := rfl
@[simp] theorem State.proceed_succ (s : State) (k : Nat) (p : Pending) (r : Result) :
    s.proceed (k + 1) p r = s.suspend p := rfl

@[simp] theorem State.proceed_suspend (s : State) (q : Pending) (k : Nat) (p : Pending) (r : Result) :
    (s.suspend q).proceed k p r = s.proceed k p r := by
  cases k <;> simp

theorem State.portBRead_suspend (s : State) (q : Pending) (a : Nat) : (s.suspend q).portBRead a = s.portBRead a := by
  simp [State.portBRead, State.inTearWindow]

theorem State.afterPortBRead_suspend (s : State) (q : Pending) (a : Nat) :
    (s.suspend q).afterPortBRead a = (s.afterPortBRead a).suspend q := by
  unfold State.afterPortBRead State.inTearWindow
  rw [State.suspend_phase, State.suspend_tAddr]
  split_ifs
  · unfold State.suspend State.modifyPort State.context
    cases s.handler <;> rfl
  · rfl

/-- Taking a payload byte and going on are changes of different fields of the port. -/
theorem State.takePayload_suspend (s : State) (q : Pending) (rest : List Byte) :
    (s.suspend q).modifyPort (fun q => { q with sin := rest }) =
      (s.modifyPort fun q => { q with sin := rest }).suspend q := by
  unfold State.suspend
  rw [State.modifyPort_modifyPort, State.modifyPort_modifyPort]
  rfl

theorem State.writeV_suspend (s : State) (q : Pending) (a : Nat) (b : Byte) :
    (s.suspend q).writeV a b = (s.writeV a b).suspend q := s.writeV_modifyPort _ a b

theorem State.writeP_suspend (s : State) (q : Pending) (a : Nat) (c : Perm) :
    (s.suspend q).writeP a c = (s.writeP a c).suspend q := s.writeP_modifyPort _ a c

theorem copyInElement_suspend (next left : Nat) (s : State) (q : Pending) :
    copyInElement next left (s.suspend q) = copyInElement next left s := by
  cases left with
  | zero => exact State.finish_suspend s q .none
  | succ k =>
    unfold copyInElement
    rw [State.port_suspend]
    cases s.port.sin with
    | nil => exact State.suspend_suspend s q _
    | cons b rest =>
      change State.proceed (((s.suspend q).writeV next b).modifyPort _) k _ _ = _
      rw [State.writeV_suspend, State.takePayload_suspend, State.proceed_suspend]

/-- An element of a bulk command does not look at the command in progress. -/
theorem continueCommand_suspend {p : Pending} (hp : p ≠ .shutdown) (s : State) (q : Pending) :
    continueCommand p (s.suspend q) = continueCommand p s := by
  cases p with
  | shutdown => exact absurd rfl hp
  | readWide next left got =>
    cases left <;> simp [continueCommand, readWideElement, State.portBRead_suspend, State.afterPortBRead_suspend]
  | fill next left value => cases left <;> simp [continueCommand, fillElement, State.writeV_suspend]
  | copyIn next left => exact copyInElement_suspend next left s q
  | copyOut next left got =>
    cases left <;> simp [continueCommand, copyOutElement, State.portBRead_suspend, State.afterPortBRead_suspend]
  | setPerm next left code => cases left <;> simp [continueCommand, setPermElement, State.writeP_suspend]

/-- A context whose bulk command stands at `p` takes one element of it at its own move. -/
theorem step_suspend {p : Pending} {ms : List Move} (hp : p ≠ .shutdown) (hf : s.fatal = false)
    (hs : s.schedule = s.ownMove :: ms) :
    step (s.suspend p) = .next (continueCommand p { s with schedule := ms }) := by
  have hsched : (s.suspend p).schedule = (s.suspend p).ownMove :: ms := by
    rw [State.suspend_schedule, State.ownMove_congr (s.suspend_handler p), hs]
  have hmove : { s.suspend p with schedule := ms } = ({ s with schedule := ms } : State).suspend p :=
    (s.modifyPort_withSchedule ms _).symm
  rw [step_ownMove (p := p) (s.suspend p) (by simpa using hf) hsched (by simp), hmove, continueCommand_suspend hp]

/-! ## Runs of a bulk command (42_store_bulk.md R200) -/

/-- R203: the elements of FILL, each but the first by the context's own move. -/
theorem fill_run (n : Nat) (s : State) (next : Nat) (value : Byte) (rest : List Move) (hf : s.fatal = false)
    (hs : s.schedule = List.replicate (n - 1) s.ownMove ++ rest) :
    steps (n - 1) (fillElement next n value s) =
      .next (({ s with v := Memory.setRange s.v next (List.replicate n value), schedule := rest }).finish .none) := by
  induction n generalizing s next with
  | zero => rw [show rest = s.schedule from hs.symm]; rfl
  | succ n ih =>
    cases n with
    | zero => rw [show rest = s.schedule from hs.symm]; rfl
    | succ k =>
      have hstep := step_suspend (s := s.writeV next value) (p := .fill (next + 1) (k + 1) value)
        (ms := List.replicate k s.ownMove ++ rest) nofun hf hs
      exact (steps_succ _ k hstep).trans
        (ih { s.writeV next value with schedule := List.replicate k s.ownMove ++ rest } (next + 1) hf rfl)

/-- R206: the elements of SETPR. -/
theorem setPerm_run (n : Nat) (s : State) (next : Nat) (code : Perm) (rest : List Move) (hf : s.fatal = false)
    (hs : s.schedule = List.replicate (n - 1) s.ownMove ++ rest) :
    steps (n - 1) (setPermElement next n code s) =
      .next (({ s with p := Memory.setRange s.p next (List.replicate n code), schedule := rest }).finish .none) := by
  induction n generalizing s next with
  | zero => rw [show rest = s.schedule from hs.symm]; rfl
  | succ n ih =>
    cases n with
    | zero => rw [show rest = s.schedule from hs.symm]; rfl
    | succ k =>
      have hstep := step_suspend (s := s.writeP next code) (p := .setPerm (next + 1) (k + 1) code)
        (ms := List.replicate k s.ownMove ++ rest) nofun hf hs
      exact (steps_succ _ k hstep).trans
        (ih { s.writeP next code with schedule := List.replicate k s.ownMove ++ rest } (next + 1) hf rfl)

/-- RDW32 and CPOUT read their range alike: `elem` reads one element, `pend` is where it goes on, `res` its result. -/
structure ReadsRange (elem : Nat → Nat → List Byte → State → State) (pend : Nat → Nat → List Byte → Pending)
    (res : List Byte → Result) : Prop where
  isElement (next left : Nat) (got : List Byte) : pend next left got ≠ .shutdown
  continues (next left : Nat) (got : List Byte) (s : State) :
    continueCommand (pend next left got) s = elem next left got s
  elem_zero (next : Nat) (got : List Byte) (s : State) : elem next 0 got s = s.finish (res got)
  elem_succ (next k : Nat) (got : List Byte) (s : State) :
    elem next (k + 1) got s =
      (s.afterPortBRead next).proceed k (pend (next + 1) k (got ++ [s.portBRead next])) (res (got ++ [s.portBRead next]))

theorem copyOut_readsRange : ReadsRange copyOutElement .copyOut .bytes :=
  ⟨nofun, fun _ _ _ _ => rfl, fun _ _ _ => rfl, fun _ _ _ _ => rfl⟩

theorem readWide_readsRange : ReadsRange readWideElement .readWide fun got => .word (packBigEndian got) :=
  ⟨nofun, fun _ _ _ _ => rfl, fun _ _ _ => rfl, fun _ _ _ _ => rfl⟩

/-- R202, R205: the elements of a read outside the tear window, after the bytes `got`. -/
theorem ReadsRange.run {elem : Nat → Nat → List Byte → State → State} {pend : Nat → Nat → List Byte → Pending}
    {res : List Byte → Result} (h : ReadsRange elem pend res) (n : Nat) (s : State) (next : Nat) (got : List Byte)
    (rest : List Move) (hf : s.fatal = false)
    (hwindow : ∀ a, next ≤ a → a < next + n → s.inTearWindow a = false)
    (hs : s.schedule = List.replicate (n - 1) s.ownMove ++ rest) :
    steps (n - 1) (elem next n got s) =
      .next (({ s with schedule := rest }).finish
        (res (got ++ (List.range n).map fun i => s.readV (next + i)))) := by
  induction n generalizing s next got with
  | zero => rw [show rest = s.schedule from hs.symm, h.elem_zero, List.range_zero, List.map_nil, List.append_nil]; rfl
  | succ n ih =>
    have hfirst := hwindow next le_rfl (by omega)
    have hbytes : got ++ (List.range (n + 1)).map (fun i => s.readV (next + i)) =
        (got ++ [s.readV next]) ++ (List.range n).map fun i => s.readV (next + 1 + i) := by
      rw [List.range_succ_eq_map]
      simp [Function.comp_def, Nat.add_comm 1, Nat.add_assoc]
    rw [hbytes, h.elem_succ, State.portBRead_outside s hfirst, State.afterPortBRead_outside s hfirst]
    cases n with
    | zero =>
      rw [show rest = s.schedule from hs.symm, List.range_zero, List.map_nil, List.append_nil]
      rfl
    | succ k =>
      have hstep := step_suspend (s := s) (p := pend (next + 1) (k + 1) (got ++ [s.readV next]))
        (ms := List.replicate k s.ownMove ++ rest) (h.isElement _ _ _) hf hs
      rw [h.continues] at hstep
      exact (steps_succ _ k hstep).trans
        (ih { s with schedule := List.replicate k s.ownMove ++ rest } (next + 1) (got ++ [s.readV next]) hf
          (fun a h1 h2 => hwindow a (by omega) (by omega)) rfl)

/-- R66, R67: an element that is not the last leaves the byte it read behind those before it. -/
theorem ReadsRange.op_of_more {elem : Nat → Nat → List Byte → State → State} {pend : Nat → Nat → List Byte → Pending}
    {res : List Byte → Result} (h : ReadsRange elem pend res) (next k : Nat) (got : List Byte) (s : State) :
    (elem next (k + 2) got s).port.op = some (pend (next + 1) (k + 1) (got ++ [s.portBRead next])) := by
  rw [h.elem_succ]
  simp

/-- The last element completes the command. -/
theorem ReadsRange.port_of_last {elem : Nat → Nat → List Byte → State → State} {pend : Nat → Nat → List Byte → Pending}
    {res : List Byte → Result} (h : ReadsRange elem pend res) (next : Nat) (got : List Byte) (s : State) :
    (elem next 1 got s).port = { s.port with op := none, result := res (got ++ [s.portBRead next]) } := by
  rw [h.elem_succ]
  simp

/-- Offering the payload that is offered already changes nothing. -/
theorem State.modifyPort_sin_self (s : State) : (s.modifyPort fun q => { q with sin := s.port.sin }) = s := by
  unfold State.modifyPort State.port
  cases s.context <;> rfl

/-- The payload taken twice is the payload taken last, whatever is written and scheduled in between. -/
theorem State.modifyPort_sin_sin (s : State) (v : List Host.Cell) (ms : List Move) (sin sin' : List Byte) :
    ({ s.modifyPort fun q => { q with sin := sin } with v := v, schedule := ms } : State).modifyPort
        (fun q => { q with sin := sin' }) =
      ({ s with v := v, schedule := ms } : State).modifyPort fun q => { q with sin := sin' } := by
  unfold State.modifyPort State.context
  cases s.handler <;> rfl

/-- R204: one element of CPIN takes the payload byte that is offered. -/
theorem copyInElement_cons {b : Byte} {offered : List Byte} (h : s.port.sin = b :: offered) (next k : Nat) :
    copyInElement next (k + 1) s =
      ((s.writeV next b).modifyPort fun q => { q with sin := offered }).proceed k (.copyIn (next + 1) k) .none := by
  simp only [copyInElement, h]

/-- While none is offered it waits. -/
theorem copyInElement_nil (h : s.port.sin = []) (next k : Nat) :
    copyInElement next (k + 1) s = s.suspend (.copyIn next (k + 1)) := by
  simp only [copyInElement, h]

/-- R204: the elements of CPIN, with the payload's bytes at hand. -/
theorem copyIn_run (payload : List Byte) (s : State) (next : Nat) (more : List Byte) (rest : List Move)
    (hf : s.fatal = false) (hsin : s.port.sin = payload ++ more)
    (hs : s.schedule = List.replicate (payload.length - 1) s.ownMove ++ rest) :
    steps (payload.length - 1) (copyInElement next payload.length s) =
      .next ((({ s with v := Memory.setRange s.v next payload, schedule := rest }).modifyPort
        fun q => { q with sin := more }).finish .none) := by
  induction payload generalizing s next with
  | nil =>
    rw [show rest = s.schedule from hs.symm, show more = s.port.sin from hsin.symm]
    exact congrArg (Host.Outcome.next <| State.finish · .none) s.modifyPort_sin_self.symm
  | cons b bs ih =>
    rw [List.length_cons, copyInElement_cons hsin]
    set u := (s.writeV next b).modifyPort fun q => { q with sin := bs ++ more } with hu
    cases hlen : bs.length with
    | zero =>
      obtain rfl : bs = [] := List.length_eq_zero_iff.mp hlen
      rw [show rest = s.schedule from hs.symm]
      rfl
    | succ k =>
      have hown : u.ownMove = s.ownMove := State.ownMove_congr (by simp [hu])
      have hs' : u.schedule = u.ownMove :: (List.replicate k u.ownMove ++ rest) := by
        rw [hown, show u.schedule = s.schedule by simp [hu], hs, List.length_cons, hlen]
        rfl
      have hf' : u.fatal = false := by simpa [hu] using hf
      have hstep := step_suspend (s := u) (p := .copyIn (next + 1) (k + 1)) nofun hf' hs'
      have hrun := ih { u with schedule := List.replicate k u.ownMove ++ rest } (next + 1) hf'
        (show u.port.sin = _ by simp [hu]) (by rw [hlen]; rfl)
      rw [hlen] at hrun
      have hv : u.v = Memory.set s.v next b := by simp [hu]
      have hsame := (s.writeV next b).modifyPort_sin_sin (Memory.setRange u.v (next + 1) bs) rest (bs ++ more) more
      refine (steps_succ _ k hstep).trans (hrun.trans (congrArg (Host.Outcome.next <| State.finish · .none) ?_))
      exact hsame.trans (by rw [hv]; rfl)

/-- Where a command stands already, going on there changes nothing. -/
theorem State.suspend_self {p : Pending} (h : s.port.op = some p) : s.suspend p = s := by
  unfold State.suspend State.modifyPort
  unfold State.port at h
  cases hc : s.context <;> rw [hc] at h <;> simp only [← h]

end Sys2Proof.Machine

namespace Sys2Proof.Proofs

open Sys2Proof.Machine

/-- Settles O34: the range check is passed, and the run of FILL writes the range. -/
theorem fillRange : Obligations.FillRange := by
  intro s addr count value rest hs hr hsched
  refine ⟨fillElement addr.toNat count.toNat value s, _, ?issued, fill_run count.toNat s addr.toNat value rest hs.1 hsched,
    fun a => ?bytes, fun a => ?codes, ?frame⟩
  case issued => rw [exec_fill, rangeChecked_of_canIssue hs hr]
  case bytes =>
    rw [State.readV_finish]
    refine (State.readV_setRange addr.toNat a (List.replicate count.toNat value)).trans ?_
    rw [List.length_replicate]
    split_ifs with ha
    · rw [List.getD_replicate _ (by omega)]
    · rfl
  case codes => simp [State.readP]
  case frame => simp

/-- Settles O38: as FILL, on the permission plane. -/
theorem setPermissionRange : Obligations.SetPermissionRange := by
  intro s start count code rest hs hr hsched
  refine ⟨setPermElement start.toNat count.toNat code s, _, ?issued,
    setPerm_run count.toNat s start.toNat code rest hs.1 hsched, fun a => ?codes, fun a => ?bytes, ?frame⟩
  case issued => rw [exec_setpr, rangeChecked_of_canIssue hs hr]
  case codes =>
    rw [State.readP_finish]
    refine (State.readP_setRange start.toNat a (List.replicate count.toNat code)).trans ?_
    rw [List.length_replicate]
    split_ifs with ha
    · rw [List.getD_replicate _ (by omega)]
    · rfl
  case bytes => simp [State.readV]
  case frame => simp

/-- Settles O35: the run of CPIN takes the payload and writes it in order. -/
theorem copyInPayload : Obligations.CopyInPayload := by
  intro s addr count payload more rest hs hr hsin hlen hsched
  rw [← hlen] at hsched hr ⊢
  refine ⟨copyInElement addr.toNat payload.length s, _, ?issued,
    copyIn_run payload s addr.toNat more rest hs.1 hsin hsched, fun a => ?bytes, fun a => ?codes, ?frame⟩
  case issued => rw [exec_cpin, ← hlen, rangeChecked_of_canIssue hs hr]
  case bytes =>
    rw [State.readV_finish, State.readV_modifyPort]
    exact State.readV_setRange addr.toNat a payload
  case codes => simp [State.readP]
  case frame => simp

/-- Settles O36: with no byte offered an element of CPIN is no more than where it stands. -/
theorem copyInWaitsForPayload : Obligations.CopyInWaitsForPayload := by
  refine ⟨fun s addr count hs hr hpos hsin => ?first, fun s rest next left hf hpos hsin hop => ?later⟩
  case first =>
    obtain ⟨k, hk⟩ : ∃ k, count.toNat = k + 1 := ⟨count.toNat - 1, by omega⟩
    rw [exec_cpin, rangeChecked_of_canIssue hs hr, hk, copyInElement_nil hsin]
  case later =>
    have hwait : ∀ u : State, u.port.sin = [] → u.port.op = some (.copyIn next left) →
        continueCommand (.copyIn next left) u = u := by
      intro u husin huop
      obtain ⟨k, rfl⟩ : ∃ k, left = k + 1 := ⟨left - 1, by omega⟩
      exact (copyInElement_nil husin next k).trans (State.suspend_self huop)
    refine ⟨hwait s hsin hop, fun hs => ?_⟩
    rw [step_ownMove s hf hs hop, hwait { s with schedule := rest } hsin hop]

/-- Settles O37: the run of CPOUT reads the range in order. -/
theorem copyOutBytes : Obligations.CopyOutBytes := by
  intro s addr count rest hs hr hwindow hsched
  refine ⟨copyOutElement addr.toNat count.toNat [] s, _, ?_,
    copyOut_readsRange.run count.toNat s addr.toNat [] rest hs.1 hwindow hsched, rfl⟩
  rw [exec_cpout, rangeChecked_of_canIssue hs hr]

/-- Settles O39: the run of RDW32 reads four bytes, packed as its result. -/
theorem readWideBigEndian : Obligations.ReadWideBigEndian := by
  intro s addr rest hs hr hwindow hsched a
  refine ⟨readWideElement addr.toNat 4 [] s, _, packBigEndian _, ?issued,
    readWide_readsRange.run 4 s addr.toNat [] rest hs.1 hwindow hsched, ?packed, rfl⟩
  case issued => rw [exec_rdw32, rangeChecked_of_canIssue hs hr]
  case packed => exact packBigEndian_four (s.readV a) (s.readV (a + 1)) (s.readV (a + 2)) (s.readV (a + 3))

/-- Settles O40: RDW32 and CPOUT read an element alike, through Port B. -/
theorem elementsReadLikeRdv : Obligations.ElementsReadLikeRdv := by
  intro s next left got hwindow
  refine ⟨s.portBRead next, s.portBRead_bit next, readWide_readsRange.op_of_more next left got s, ?_, ?_,
    copyOut_readsRange.op_of_more next left got s, ?_, ?_, ?first⟩
  · exact congrArg Port.result (readWide_readsRange.port_of_last next got s)
  · exact congrArg Port.op (readWide_readsRange.port_of_last next got s)
  · exact congrArg Port.result (copyOut_readsRange.port_of_last next got s)
  · exact congrArg Port.op (copyOut_readsRange.port_of_last next got s)
  case first =>
    intro addr count hs haddr
    refine ⟨fun hr => ⟨_, ?wide, readWide_readsRange.op_of_more next 2 [] s⟩, fun hr hcount => ?more, fun hr hcount => ?last⟩
    case wide => rw [exec_rdw32, rangeChecked_of_canIssue hs hr, haddr]
    case more =>
      obtain ⟨k, hk⟩ : ∃ k, count.toNat = k + 2 := ⟨count.toNat - 2, by omega⟩
      rw [exec_cpout, rangeChecked_of_canIssue hs hr, haddr, hk]
      exact ⟨_, rfl, copyOut_readsRange.op_of_more next k [] s⟩
    case last =>
      rw [exec_cpout, rangeChecked_of_canIssue hs hr, haddr, hcount]
      have hport := copyOut_readsRange.port_of_last next [] s
      exact ⟨_, rfl, congrArg Port.op hport, congrArg Port.result hport⟩

end Sys2Proof.Proofs
end

section
/-! PROOFS. What a command does where it can begin: INIT, SHUTDOWN, POLLCLR, the illegal ones; after an abort none does
anything; and no command but SETP and SETPR looks at the permission plane. -/

namespace Sys2Proof.Machine

variable {s : State}

/-! ## Commands that can begin -/

theorem State.context_ne_fg : s.context ≠ .fg ↔ s.handler ≠ .off := not_congr s.context_eq_fg

/-- R261: INIT is FG's, of a disabled pipeline, with resources. -/
theorem exec_init_of_canIssue (h : s.canIssue) :
    exec .init s =
      if s.handler ≠ .off then .refused .contextNotAllowed
      else if s.enabled then .refused .initWhileEnabled
      else if s.resourcesOk then .next ((initConsumer (initBlock s)).finish .none)
      else .next (s.raiseFatal .initResources) := by
  change execInit s = _
  rw [execInit, fportCommand_of_ready s h.1 h.2]
  simp only [State.context_ne_fg]

/-- R262, step 1. -/
theorem exec_shutdown_of_canIssue (h : s.canIssue) :
    exec .shutdown s =
      if s.enabled then .next (({ s with stopping := true }).suspend .shutdown) else .next (s.finish .none) := by
  change execShutdown s = _
  rw [execShutdown, fportCommand_of_ready s h.1 h.2]

/-- R285: POLLCLR is FG's, of a known flag. -/
theorem exec_pollclr_of_canIssue (h : s.canIssue) (flag : Byte) :
    exec (.pollclr flag) s =
      if 2 ≤ flag.toNat then .next (s.raiseFatal .illegalCommand)
      else if s.handler ≠ .off then .refused .contextNotAllowed
      else .next (({ s.clearFlag flag with irqMasked := false }).finish (.bit (s.flag flag))) := by
  change execPollclr flag s = _
  rw [execPollclr, fportCommand_of_ready s h.1 h.2]
  simp only [State.context_ne_fg]

theorem illegalCommand_of_canIssue (h : s.canIssue) :
    illegalCommand s = .next { s with fatal := true, fatalCode := 4 } := by
  rw [illegalCommand, fportCommand_of_ready s h.1 h.2]
  rfl

/-! ## After an abort (60_exceptions.md R301, R310) -/

theorem fportCommand_of_fatal (h : s.fatal = true) (body : State → Outcome) :
    fportCommand body s = .fault (.fatalAbort s.fatalCode) := by
  simp [fportCommand, h]

/-- No command but a request is performed. -/
theorem exec_of_fatal (h : s.fatal = true) (i : Instr) (hbrd : ∀ a d, i ≠ .brd a d) (hbwr : ∀ a d, i ≠ .bwr a d) :
    exec i s = .fault (.fatalAbort s.fatalCode) := by
  cases i with
  | brd addr wdata => exact absurd rfl (hbrd addr wdata)
  | bwr addr wdata => exact absurd rfl (hbwr addr wdata)
  | _ =>
    simp only [exec, execRdv, execWrv, execRdw32, execFill, execCpin, execCpout, execSetp, execSetpr, execInit,
      execShutdown, execPeekw, execRdslot, execAdvr, execPollclr, execReservedE, execReservedF, rangeChecked,
      illegalCommand, fportCommand_of_fatal h]

theorem performMove_of_fatal (h : s.fatal = true) {m : Move} (hm : m ≠ .reset) :
    performMove m s = .fault (.fatalAbort s.fatalCode) := by
  simp [performMove, h, hm]

/-- The moves taken by default; FG's only while no handler runs, and never a reset. -/
theorem defaultMove_cases {m : Move} (h : defaultMove s = some m) :
    m ≠ .reset ∧ (m = .fg → s.handler = .off) := by
  by_cases hp : s.phase = .idle
  case neg =>
    obtain rfl : Move.pipe = m := by simpa [defaultMove, hp] using h
    exact ⟨nofun, nofun⟩
  case pos =>
    cases hh : s.handler with
    | drain pt =>
      obtain rfl : Move.irq = m := by simpa [defaultMove, hp, hh] using h
      exact ⟨nofun, nofun⟩
    | script =>
      simp only [defaultMove, State.busMove, hp, hh, ne_eq, not_true_eq_false, if_false] at h
      split_ifs at h <;> cases h <;> exact ⟨nofun, nofun⟩
    | off =>
      refine ⟨?_, fun _ => rfl⟩
      simp only [defaultMove, State.busMove, hp, hh, ne_eq, not_true_eq_false, if_false] at h
      split_ifs at h <;> cases h <;> nofun

theorem step_of_fatal (h : s.fatal = true) (hreset : ∀ rest, s.schedule ≠ .reset :: rest) :
    step s = .fault (.fatalAbort s.fatalCode) := by
  cases hs : s.schedule with
  | cons m ms =>
    have hm : m ≠ .reset := fun hm => hreset ms (hm ▸ hs)
    exact (step_scheduled s hs).trans (performMove_of_fatal (s := { s with schedule := ms }) h hm)
  | nil =>
    rw [step_unscheduled s hs, performDefault]
    cases hd : defaultMove s with
    | none => simp [h]
    | some m => exact performMove_of_fatal h fun hm => (defaultMove_cases hd).1 hm

/-! ## Another permission plane (20_memory.md R64) -/

/-- The same state with another permission plane. -/
def State.withPerms (s : State) (p : Memory Perm) : State := { s with p := p }

variable (p : Memory Perm)

theorem State.clearFlag_withPerms (id : Byte) : (s.withPerms p).clearFlag id = (s.clearFlag id).withPerms p := by
  unfold State.clearFlag
  split_ifs <;> rfl

theorem State.modifyPort_withPerms (f : Port → Port) : (s.withPerms p).modifyPort f = (s.modifyPort f).withPerms p := by
  unfold State.modifyPort State.withPerms State.context
  cases s.handler <;> rfl

theorem State.finish_withPerms (r : Result) : (s.withPerms p).finish r = (s.finish r).withPerms p :=
  State.modifyPort_withPerms p _

theorem State.suspend_withPerms (q : Pending) : (s.withPerms p).suspend q = (s.suspend q).withPerms p :=
  State.modifyPort_withPerms p _

theorem State.proceed_withPerms (k : Nat) (q : Pending) (r : Result) :
    (s.withPerms p).proceed k q r = (s.proceed k q r).withPerms p := by
  cases k with
  | zero => exact State.finish_withPerms p r
  | succ k => exact State.suspend_withPerms p q

theorem State.afterPortBRead_withPerms (a : Nat) :
    (s.withPerms p).afterPortBRead a = (s.afterPortBRead a).withPerms p := by
  unfold State.afterPortBRead
  rw [show (s.withPerms p).inTearWindow a = s.inTearWindow a from rfl]
  split_ifs <;> rfl

/-- A command whose body does not look at the permission plane does not either. -/
theorem fportCommand_withPerms {body : State → Outcome}
    (hbody : body (s.withPerms p) = andThen (body s) (·.withPerms p)) :
    fportCommand body (s.withPerms p) = andThen (fportCommand body s) (·.withPerms p) := by
  unfold fportCommand
  rw [show (s.withPerms p).fatal = s.fatal from rfl, show (s.withPerms p).port = s.port from rfl, hbody]
  split_ifs <;> rfl

theorem rangeChecked_withPerms {cause : FatalCause} {addr : Word} {n : Nat} {body : State → State}
    (hbody : body (s.withPerms p) = (body s).withPerms p) :
    rangeChecked cause addr n body (s.withPerms p) = andThen (rangeChecked cause addr n body s) (·.withPerms p) := by
  refine fportCommand_withPerms p ?_
  simp only [hbody]
  split_ifs <;> rfl

theorem busRequest_withPerms {addr : Address} {isWrite : Bool} {wdata : Byte} {lost : State → State}
    (hlost : lost (s.withPerms p) = (lost s).withPerms p) :
    busRequest addr isWrite wdata lost (s.withPerms p) =
      andThen (busRequest addr isWrite wdata lost s) (·.withPerms p) := by
  unfold busRequest
  rw [hlost, show (s.withPerms p).phase = s.phase from rfl, show (s.withPerms p).enabled = s.enabled from rfl,
    show (s.withPerms p).stopping = s.stopping from rfl]
  split_ifs <;> rfl

/-! ### The elements -/

theorem ReadsRange.withPerms {elem : Nat → Nat → List Byte → State → State} {pend : Nat → Nat → List Byte → Pending}
    {res : List Byte → Result} (h : ReadsRange elem pend res) (next left : Nat) (got : List Byte) :
    elem next left got (s.withPerms p) = (elem next left got s).withPerms p := by
  cases left with
  | zero => rw [h.elem_zero, h.elem_zero, State.finish_withPerms]
  | succ k =>
    rw [h.elem_succ, h.elem_succ, State.afterPortBRead_withPerms, State.proceed_withPerms]
    rfl

theorem fillElement_withPerms (next left : Nat) (value : Byte) :
    fillElement next left value (s.withPerms p) = (fillElement next left value s).withPerms p := by
  cases left with
  | zero => exact State.finish_withPerms p _
  | succ k => exact State.proceed_withPerms (s := s.writeV next value) p k _ _

theorem copyInElement_withPerms (next left : Nat) :
    copyInElement next left (s.withPerms p) = (copyInElement next left s).withPerms p := by
  cases left with
  | zero => exact State.finish_withPerms p _
  | succ k =>
    have hsin : (s.withPerms p).port.sin = s.port.sin := rfl
    cases hoffer : s.port.sin with
    | nil =>
      rw [copyInElement_nil (hsin.trans hoffer), copyInElement_nil hoffer]
      exact State.suspend_withPerms p _
    | cons b rest =>
      rw [copyInElement_cons (hsin.trans hoffer), copyInElement_cons hoffer, ← State.proceed_withPerms,
        ← State.modifyPort_withPerms]
      rfl

/-! ### The other commands -/

theorem execInit_withPerms : execInit (s.withPerms p) = andThen (execInit s) (·.withPerms p) := by
  unfold execInit
  refine fportCommand_withPerms p ?_
  change (if s.context ≠ .fg then _ else if s.enabled then _ else if s.resourcesOk then _ else _) = _
  split_ifs
  · rfl
  · rfl
  · exact congrArg Host.Outcome.next (State.finish_withPerms (s := initConsumer (initBlock s)) p _)
  · rfl

theorem execShutdown_withPerms : execShutdown (s.withPerms p) = andThen (execShutdown s) (·.withPerms p) := by
  unfold execShutdown
  refine fportCommand_withPerms p ?_
  change (if s.enabled then _ else _) = _
  split_ifs
  · exact congrArg Host.Outcome.next (State.suspend_withPerms (s := { s with stopping := true }) p _)
  · exact congrArg Host.Outcome.next (State.finish_withPerms p _)

theorem execPeekw_withPerms : execPeekw (s.withPerms p) = andThen (execPeekw s) (·.withPerms p) := by
  unfold execPeekw
  exact fportCommand_withPerms p (congrArg Host.Outcome.next (State.finish_withPerms (s := s) p _))

theorem execRdslot_withPerms (index : Word) : execRdslot index (s.withPerms p) = andThen (execRdslot index s) (·.withPerms p) := by
  unfold execRdslot
  exact fportCommand_withPerms p (congrArg Host.Outcome.next (State.finish_withPerms (s := s) p _))

theorem execAdvr_withPerms : execAdvr (s.withPerms p) = andThen (execAdvr s) (·.withPerms p) := by
  unfold execAdvr
  refine fportCommand_withPerms p ?_
  change (if s.context ≠ .irq then _ else if s.rd = s.wr then _ else _) = _
  split_ifs
  · rfl
  · rfl
  · exact congrArg Host.Outcome.next
      (State.finish_withPerms (s := { s with rd := s.rd + 1, consumerRd := s.consumerRd + 1 }) p _)

theorem execPollclr_withPerms (flag : Byte) : execPollclr flag (s.withPerms p) = andThen (execPollclr flag s) (·.withPerms p) := by
  unfold execPollclr
  refine fportCommand_withPerms p ?_
  rw [State.clearFlag_withPerms]
  change (if 2 ≤ flag.toNat then _ else if s.context ≠ .fg then _ else _) = _
  split_ifs
  · rfl
  · rfl
  · exact congrArg Host.Outcome.next
      (State.finish_withPerms (s := { s.clearFlag flag with irqMasked := false }) p _)

theorem illegalCommand_withPerms : illegalCommand (s.withPerms p) = andThen (illegalCommand s) (·.withPerms p) := by
  unfold illegalCommand
  exact fportCommand_withPerms p rfl

/-- No command but SETP and SETPR looks at the permission plane, or changes it. -/
theorem exec_withPerms (i : Instr) (hsetp : ∀ a c, i ≠ .setp a c) (hsetpr : ∀ a c n, i ≠ .setpr a c n) :
    exec i (s.withPerms p) = andThen (exec i s) (·.withPerms p) := by
  cases i with
  | brd addr wdata => exact busRequest_withPerms p rfl
  | bwr addr wdata => exact busRequest_withPerms p rfl
  | rdv addr =>
    rw [exec_rdv, exec_rdv]
    refine rangeChecked_withPerms p ?_
    rw [State.afterPortBRead_withPerms, State.finish_withPerms]
    rfl
  | wrv addr value =>
    rw [exec_wrv, exec_wrv]
    exact rangeChecked_withPerms p (State.finish_withPerms (s := s.writeV _ value) p _)
  | rdw32 addr =>
    rw [exec_rdw32, exec_rdw32]
    exact rangeChecked_withPerms p (readWide_readsRange.withPerms p ..)
  | fill addr value count =>
    rw [exec_fill, exec_fill]
    exact rangeChecked_withPerms p (fillElement_withPerms p ..)
  | cpin addr count =>
    rw [exec_cpin, exec_cpin]
    exact rangeChecked_withPerms p (copyInElement_withPerms p ..)
  | cpout addr count =>
    rw [exec_cpout, exec_cpout]
    exact rangeChecked_withPerms p (copyOut_readsRange.withPerms p ..)
  | setp addr code => exact absurd rfl (hsetp addr code)
  | setpr start code count => exact absurd rfl (hsetpr start code count)
  | init => exact execInit_withPerms p
  | shutdown => exact execShutdown_withPerms p
  | peekw => exact execPeekw_withPerms p
  | rdslot index => exact execRdslot_withPerms p index
  | advr => exact execAdvr_withPerms p
  | pollclr flag => exact execPollclr_withPerms p flag
  | reservedE low w1 w2 => exact illegalCommand_withPerms p
  | reservedF low w1 w2 => exact illegalCommand_withPerms p

/-! ## Handler entry (60_exceptions.md R305, R308) -/

theorem State.canEnter_iff (hf : s.fatal = false) :
    s.canEnter = true ↔ s.enabled = true ∧ s.wr ≠ s.rd ∧ s.irqMasked = false ∧ s.handler = .off := by
  simp [State.canEnter, State.evtIrq, hf, and_assoc]

theorem State.canRun_iff (hf : s.fatal = false) : s.canRun = true ↔ s.irqMasked = false ∧ s.handler = .off := by
  simp [State.canRun, hf]

theorem step_alive {m : Move} {rest : List Move} (hs : s.schedule = m :: rest) (hf : s.fatal = false) :
    step s = performAlive m { s with schedule := rest } :=
  (step_scheduled s hs).trans (performMove_alive { s with schedule := rest } hf)

end Sys2Proof.Machine

namespace Sys2Proof.Proofs

open Sys2Proof.Machine

/-- Settles O33. -/
theorem commandsIgnorePermissions : Obligations.CommandsIgnorePermissions :=
  fun i _ p hsetp hsetpr => exec_withPerms p i hsetp hsetpr

/-- Settles O48: the four cases of INIT. -/
theorem initStartsPipeline : Obligations.InitStartsPipeline := by
  intro s hs
  rw [exec_init_of_canIssue hs]
  refine ⟨fun hh he hr => ?starts, fun hh he hr => ?aborts, fun hh he => ?enabled, fun hh => if_pos hh⟩
  case starts =>
    refine ⟨(initConsumer (initBlock s)).finish .none, by simp [hh, he, hr], ?_, ?_, ?_, ?_, fun a => ?_, fun a => ?_, rfl⟩
    · simp [State.evtIrq]
    · simp [State.xDriveEn]
    · simp [State.xWrAccept]
    · simp [State.canAccept]
    · simp [State.readV]
    · simp [State.readP]
  case aborts => simp [hh, he, hr, State.raiseFatal, FatalCause.code]
  case enabled => simp [hh, he]

/-- Settles O50. -/
theorem shutdownWhileDisabled : Obligations.ShutdownWhileDisabled := by
  intro s hs he
  rw [exec_shutdown_of_canIssue hs, he]
  rfl

/-- Settles O51: a move that is no reset, and a command, look at the abort first. -/
theorem abortIsFinal : Obligations.AbortIsFinal :=
  ⟨fun _ h hreset => step_of_fatal h hreset, fun i _ h hbrd hbwr => exec_of_fatal h i hbrd hbwr⟩

/-- Settles O52. -/
theorem reservedOpNumbersAbort : Obligations.ReservedOpNumbersAbort :=
  fun _ _ _ _ hs => ⟨illegalCommand_of_canIssue hs, illegalCommand_of_canIssue hs⟩

/-- Settles O53: an entry asks for the request, a run does not. -/
theorem handlerEntry : Obligations.HandlerEntry := by
  intro s rest hf
  have henter : ∀ h, (({ s with schedule := rest } : State).enterHandler h) =
      if s.canEnter = true then { s with schedule := rest, handler := h } else { s with schedule := rest } := fun _ => rfl
  have hrun : ∀ h, (({ s with schedule := rest } : State).runHandler h) =
      if s.canRun = true then { s with schedule := rest, handler := h } else { s with schedule := rest } := fun _ => rfl
  rw [← State.canEnter_iff hf, ← State.canRun_iff hf]
  refine ⟨fun hc => ⟨fun hs => ?_, fun hs => ?_⟩, fun hc => ⟨fun hs => ?_, fun hs => ?_⟩,
    fun hc => ⟨fun hs => ?_, fun hs => ?_⟩, fun hc => ⟨fun hs => ?_, fun hs => ?_⟩⟩
  all_goals
    rw [step_alive hs hf, performAlive]
    simp only [henter, hrun, hc, if_true, if_false, Bool.false_eq_true]

/-- Settles O54: the cases of POLLCLR. -/
theorem pollAndClear : Obligations.PollAndClear := by
  intro s flag hs
  rw [exec_pollclr_of_canIssue hs]
  refine ⟨fun hh hflag => ?video, fun hh hflag => ?sound, fun hh hflag => ?handler, fun hflag => ?unknown⟩
  case video =>
    subst hflag
    exact ⟨_, by simp [hh, State.clearFlag, State.flag], by simp, rfl⟩
  case sound =>
    subst hflag
    exact ⟨_, by simp [hh, State.clearFlag, State.flag], by simp, rfl⟩
  case handler => rw [if_neg (by omega), if_pos hh]
  case unknown => rw [if_pos hflag]; rfl

/-- Settles O56: the three cases of the chain. -/
theorem watchedRangesSetFlags : Obligations.WatchedRangesSetFlags := by
  intro s r a inVideo inSound
  unfold State.markWatched
  by_cases hv : inVideo
  · rw [if_pos hv]
    simp [hv]
  · rw [if_neg hv]
    by_cases hsnd : inSound
    · rw [if_pos hsnd]
      simp [hv, hsnd]
    · rw [if_neg hsnd]
      simp [hv, hsnd]

/-- Settles O41: another agent's move leaves the foreground's port alone; FG's own move goes on with its command. -/
theorem suspendedCommandResumes : Obligations.SuspendedCommandResumes := by
  have hresume : ∀ (u : State) (p : Pending), u.fatal = false → u.handler = .off → u.fg.op = some p →
      performMove .fg u = .next (continueCommand p u) := by
    intro u p hf hh hp
    rw [performMove_alive u hf, performAlive, fgStep, hh]
    simp only [contextStep, State.port, u.context_eq_fg.mpr hh, hp]
  refine ⟨fun s t p hm hp hstep hboots => ?others, fun s rest p hf hh hp hs => ?scheduled, fun s p hf hp hs hm => ?default⟩
  case others =>
    have hfg : t.fg = s.fg := by
      obtain ⟨-, rfl⟩ | ⟨m, hm', he⟩ := step_eq_next hstep
      · rfl
      · refine (he.fg_eq fun h => hm (h ▸ hm')).resolve_right fun h => ?_
        have hb : t.boots = s.boots + 1 := h
        omega
    exact ⟨by rw [hfg, hp], by rw [hfg], by rw [hfg]⟩
  case scheduled => exact (step_scheduled s hs).trans (hresume { s with schedule := rest } p hf hh hp)
  case default =>
    have hd : defaultMove s = some .fg := by simpa [State.nextMove, hs] using hm
    rw [step_unscheduled s hs, performDefault, hd]
    exact hresume s p hf ((defaultMove_cases hd).2 rfl) hp

end Sys2Proof.Proofs
end

section
/-! PROOFS. A step is what its move's agent does: the command or request its port presents, its turn, a reset; and a
SHUTDOWN from its first step to its last. -/

namespace Sys2Proof.Machine

variable {s : State}

/-! ## The context that issues commands -/

/-- FG with no handler running, or IRQ in another consumer's handler: the context that moves takes its next step. -/
theorem step_context {m : Move} {rest : List Move} (hs : s.schedule = m :: rest) (hf : s.fatal = false)
    (hm : m = .fg ∧ s.handler = .off ∨ m = .irq ∧ s.handler = .script) :
    step s = contextStep { s with schedule := rest } := by
  rw [step_alive hs hf]
  rcases hm with ⟨rfl, hh⟩ | ⟨rfl, hh⟩
  · simp only [performAlive, fgStep, hh]
  · simp only [performAlive, irqStep, hh]

/-- With none in progress that is the issue of its next command. -/
theorem contextStep_issues {c : Command} {cs : List Command} (ho : s.port.op = none) (hc : s.port.cmds = c :: cs) :
    contextStep s = issue c (s.modifyPort fun q => { q with cmds := cs }) := by
  simp only [contextStep, ho, hc]

/-- Taking a command from the port begins none. -/
theorem State.canIssue_takeCommand (h : s.canIssue) (cs : List Command) :
    (s.modifyPort fun q => { q with cmds := cs }).canIssue :=
  ⟨by simpa using h.1, by simpa using h.2⟩

/-! ## Pipeline steps beside a SHUTDOWN (44_control.md R262) -/

/-- The same state with other values of fields that no pipeline step looks at. -/
def State.beside (s : State) (stopping : Bool) (fg irq : Port) (ms : List Move) : State :=
  { s with stopping := stopping, fg := fg, irq := irq, schedule := ms }

theorem lookup_beside (s : State) (stopping : Bool) (fg irq : Port) (ms : List Move) :
    lookup (s.beside stopping fg irq ms) = (lookup s).beside stopping fg irq ms := by
  cases hw : s.tIsWrite with
  | false => rw [lookup_of_read s hw, lookup_of_read (s.beside stopping fg irq ms) hw]; rfl
  | true =>
    cases hcode : writable (s.readP s.tAddr.toNat) with
    | true => rw [lookup_of_allowed s hw hcode, lookup_of_allowed (s.beside stopping fg irq ms) hw hcode]; rfl
    | false => rw [lookup_of_ignored s hw hcode, lookup_of_ignored (s.beside stopping fg irq ms) hw hcode]; rfl

theorem pipeStep_beside (s : State) (stopping : Bool) (fg irq : Port) (ms : List Move) :
    pipeStep (s.beside stopping fg irq ms) = (pipeStep s).beside stopping fg irq ms := by
  cases hp : s.phase with
  | idle => rw [pipeStep_idle s hp, pipeStep_idle (s.beside stopping fg irq ms) hp]
  | readResolved => rw [pipeStep_retire s (.inl hp), pipeStep_retire (s.beside stopping fg irq ms) (.inl hp)]; rfl
  | writeCommitted => rw [pipeStep_append s hp, pipeStep_append (s.beside stopping fg irq ms) hp]; rfl
  | eventLogged => rw [pipeStep_retire s (.inr hp), pipeStep_retire (s.beside stopping fg irq ms) (.inr hp)]; rfl
  | addressCaptured =>
    cases hg : s.tGated with
    | true => rw [pipeStep_commit s hp hg, pipeStep_commit (s.beside stopping fg irq ms) hp hg]; rfl
    | false => rw [pipeStep_lookup s hp hg, pipeStep_lookup (s.beside stopping fg irq ms) hp hg, lookup_beside]

theorem pipeStep_iterate_beside (n : Nat) (s : State) (stopping : Bool) (fg irq : Port) (ms : List Move) :
    pipeStep^[n] (s.beside stopping fg irq ms) = (pipeStep^[n] s).beside stopping fg irq ms :=
  (Function.Semiconj.iterate_right (f := fun u : State => u.beside stopping fg irq ms)
    (fun u => (pipeStep_beside u stopping fg irq ms).symm) n s).symm

/-- Scheduled moves of PIPE run the pipeline. -/
theorem steps_pipe (n : Nat) (s : State) (rest : List Move) (hf : s.fatal = false)
    (hs : s.schedule = List.replicate n .pipe ++ rest) :
    steps n s = .next ((pipeStep^[n] s).beside s.stopping s.fg s.irq rest) := by
  induction n generalizing s with
  | zero => rw [show rest = s.schedule from hs.symm]; rfl
  | succ n ih =>
    set ms := List.replicate n Move.pipe ++ rest with hms
    set u := (pipeStep s).beside s.stopping s.fg s.irq ms with hu
    have hstep : step s = .next u :=
      (step_pipe (rest := ms) hs hf).trans (congrArg Host.Outcome.next (pipeStep_beside s s.stopping s.fg s.irq ms))
    have hfu : u.fatal = false := by
      change (pipeStep s).fatal = false
      rw [pipeStep_frame]
      exact hf
    rw [steps_succ s n hstep, ih u hfu rfl, hu, pipeStep_iterate_beside]
    rfl

/-- Four pipeline steps end every transaction. -/
theorem pipeStep_four_idle (s : State) : (pipeStep (pipeStep (pipeStep (pipeStep s)))).phase = .idle := by
  have hless : ∀ u : State, (pipeStep u).pipeStepsLeft ≤ u.pipeStepsLeft - 1 := by
    intro u
    by_cases hp : u.phase = .idle
    · rw [pipeStep_idle u hp, u.pipeStepsLeft_eq_zero.mpr hp]
    · have := pipeStepsLeft_pipeStep_lt u hp
      omega
  rw [← State.pipeStepsLeft_eq_zero]
  have h0 := s.pipeStepsLeft_le_four
  have h1 := hless s
  have h2 := hless (pipeStep s)
  have h3 := hless (pipeStep (pipeStep s))
  have h4 := hless (pipeStep (pipeStep (pipeStep s)))
  omega

/-- What the pipeline's steps keep of the agents' side. -/
theorem pipeStep_four_frame (s : State) :
    let p4 := pipeStep (pipeStep (pipeStep (pipeStep s)))
    p4.fatal = s.fatal ∧ p4.enabled = s.enabled ∧ p4.handler = s.handler ∧ p4.fg = s.fg ∧ p4.irq = s.irq := by
  intro p4
  have h : ∀ u : State, (pipeStep u).fatal = u.fatal ∧ (pipeStep u).enabled = u.enabled ∧
      (pipeStep u).handler = u.handler ∧ (pipeStep u).fg = u.fg ∧ (pipeStep u).irq = u.irq := by
    intro u
    rw [pipeStep_frame]
    exact ⟨rfl, rfl, rfl, rfl, rfl⟩
  simp only [p4, h, and_self]

/-- A command that goes on changes the running context's port alone. -/
theorem State.suspend_eq_beside {s u : State} (hh : u.handler = s.handler) (hfg : u.fg = s.fg) (hirq : u.irq = s.irq)
    (p : Pending) : u.suspend p = u.beside u.stopping (s.suspend p).fg (s.suspend p).irq u.schedule := by
  unfold State.suspend State.modifyPort State.context State.beside
  cases h : s.handler <;> simp [hh, h, hfg, hirq]

/-! ## SHUTDOWN, step 2 -/

/-- The slot is idle, so the pipeline stops. -/
theorem shutdownComplete_of_idle (hstop : s.stopping = true) (hp : s.phase = .idle) :
    shutdownComplete s = ({ s with enabled := false, stopping := false }).finish .none := by
  simp [shutdownComplete, hstop, hp]

/-- A pipeline that is disabled stays so. -/
theorem shutdownComplete_of_disabled (he : s.enabled = false) (hstop : s.stopping = false) :
    shutdownComplete s = s.finish .none := by
  have hsame : ∀ a b, s.enabled = a → s.stopping = b → { s with enabled := a, stopping := b } = s := by
    rintro _ _ rfl rfl
    rfl
  simp [shutdownComplete, he, hsame false false he hstop]

/-- Where it stood waiting is overwritten by its completion. -/
theorem shutdownComplete_suspend (hstop : s.stopping = true) (hp : s.phase = .idle) :
    shutdownComplete (s.suspend .shutdown) = ({ s with enabled := false, stopping := false }).finish .none := by
  rw [shutdownComplete_of_idle (by simpa using hstop) (by simpa using hp)]
  unfold State.finish State.suspend State.modifyPort State.context
  cases s.handler <;> rfl

/-- With a transaction in flight the context waits. -/
theorem shutdownComplete_of_busy (he : s.enabled = true) (hp : s.phase ≠ .idle) : shutdownComplete s = s := by
  simp [shutdownComplete, he, hp]

end Sys2Proof.Machine

namespace Sys2Proof.Proofs

open Sys2Proof.Machine

/-- Settles O5: the context's step is the issue of its command, and decoding gives the operation. -/
theorem stepIssuesDecodedCommand : Obligations.StepIssuesDecodedCommand := by
  intro s m rest c cs i hs hissue hm hc hdecode
  rw [step_context hs hissue.1 hm, contextStep_issues (s := { s with schedule := rest }) hissue.2 hc, issue, hdecode]

/-- Settles O7: words that do not decode are issued as an illegal command. -/
theorem illegalCommandAborts : Obligations.IllegalCommandAborts := by
  intro s m rest c cs e hs hissue hm hc hdecode
  rw [step_context hs hissue.1 hm, contextStep_issues (s := { s with schedule := rest }) hissue.2 hc, issue, hdecode]
  exact illegalCommand_of_canIssue (State.canIssue_takeCommand (s := { s with schedule := rest }) hissue cs)

/-- Settles O6: AUTO looks at the phase first. -/
theorem stepPresentsDecodedRequest : Obligations.StepPresentsDecodedRequest := by
  intro s rest w ws hs hf hbus
  rw [step_alive hs hf, performAlive, autoStep, hbus]
  refine ⟨fun hp => by rw [hp], fun hp => ?_⟩
  cases hp' : s.phase with
  | idle => exact absurd hp' hp
  | _ => rfl

/-- Settles O9: each context's step asks for its handler first. -/
theorem contextsTakeTurns : Obligations.ContextsTakeTurns := by
  intro s rest hf
  refine ⟨fun hs hh => ?_, fun hs hh => ?_⟩
  · rw [step_alive hs hf, performAlive, fgStep]
    cases hh' : s.handler with
    | off => exact absurd hh' hh
    | script => rfl
    | drain pt => rfl
  · rw [step_alive hs hf, performAlive, irqStep, hh]

/-- Settles O10: the values of `State.reset`. -/
theorem resetState : Obligations.ResetState :=
  ⟨rfl, rfl, rfl, rfl, rfl, rfl, rfl, rfl, rfl, rfl, fun _ => rfl, fun _ => rfl⟩

/-- Settles O11: a reset is taken in an abort too, and gives the values of `State.reboot`. -/
theorem resetFromEveryState : Obligations.ResetFromEveryState := by
  intro s rest hs
  refine ⟨({ s with schedule := rest } : State).reboot, ?taken, rfl, rfl, rfl, rfl, rfl, rfl, rfl, rfl, rfl, rfl, rfl, rfl,
    fun _ => rfl, fun _ => rfl, rfl, rfl, rfl, rfl⟩
  case taken => simp [step_scheduled s hs, performMove, performAlive]

/-- Settles O49: the pipeline's steps do not look at the SHUTDOWN, and four of them leave the slot idle. -/
theorem shutdownLetsTransactionFinish : Obligations.ShutdownLetsTransactionFinish := by
  refine ⟨fun s rest hs he hsched => ?enabled, fun s rest hf he hstop hop hsched => ?disabled⟩
  case disabled =>
    rw [step_ownMove s hf hsched hop]
    exact congrArg Host.Outcome.next (shutdownComplete_of_disabled (s := { s with schedule := rest }) he hstop)
  case enabled =>
    intro p4
    set t := ({ s with stopping := true } : State).suspend .shutdown with ht
    obtain ⟨hfatal4, -, hhandler4, hfg4, hirq4⟩ := pipeStep_four_frame s
    have hidle : p4.phase = .idle := pipeStep_four_idle s
    set x : State := { p4 with stopping := true, schedule := s.ownMove :: rest } with hx
    have hpipe : steps 4 t = .next (x.suspend .shutdown) := by
      have hbeside : t = s.beside true (s.suspend .shutdown).fg (s.suspend .shutdown).irq s.schedule :=
        State.suspend_eq_beside (s := s) (u := { s with stopping := true }) rfl rfl rfl .shutdown
      rw [State.suspend_eq_beside (s := s) (u := x) hhandler4 hfg4 hirq4 .shutdown,
        steps_pipe 4 t (s.ownMove :: rest) (by simpa [ht] using hs.1) (by simpa [ht] using hsched), hbeside,
        pipeStep_iterate_beside]
      rfl
    have hown : step (x.suspend .shutdown) =
        .next (({ p4 with enabled := false, stopping := false, schedule := rest } : State).finish .none) := by
      have hmove : (x.suspend .shutdown).schedule = (x.suspend .shutdown).ownMove :: rest := by
        rw [State.suspend_schedule, State.ownMove_congr ((x.suspend_handler _).trans hhandler4)]
      rw [step_ownMove (p := .shutdown) (x.suspend .shutdown) ((x.suspend_fatal _).trans (hfatal4.trans hs.1)) hmove (by simp),
        State.suspend, ← State.modifyPort_withSchedule]
      exact congrArg Host.Outcome.next (shutdownComplete_suspend (s := { x with schedule := rest }) rfl hidle)
    refine ⟨t, _, ?issued, rfl, ?noAccept, (steps_add t 4 1 hpipe).trans (steps_succ _ 0 hown), ?_, ?_, ?_, ?_, ?_, ?_, rfl, ?waits⟩
    case issued => rw [exec_shutdown_of_canIssue hs, if_pos he]
    case noAccept => simp [State.canAccept, ht]
    case waits =>
      intro hp
      exact shutdownComplete_of_busy (by simpa [ht] using he) (by simpa [ht] using hp)
    · simp
    · simp
    · simpa using hidle
    · simp [State.xDriveEn, hidle]
    · simp [State.xWrAccept, hidle]
    · simp [State.evtIrq]

end Sys2Proof.Proofs
end

section
/-! PROOFS. The reference handler step by step: DRAIN skips the lost events and delivers the unread ones in order, NOTIFY
tests, MODE_SWITCH reboots. -/

namespace Sys2Proof.Machine

variable {s t : State}

/-! ## A step of the handler -/

/-- The handler stands at `pt` with no command in progress, and no abort stands. -/
structure State.AtPoint (s : State) (pt : DrainPoint) : Prop where
  alive : s.fatal = false
  idle : s.irq.op = none
  here : s.handler = .drain pt

namespace State.AtPoint

variable {pt : DrainPoint}

theorem running (h : s.AtPoint pt) : s.handler ≠ .off := by simp [h.here]

theorem canIssue (h : s.AtPoint pt) : s.canIssue :=
  ⟨h.alive, by rw [State.port_of_handler h.running, h.idle]⟩

/-- Its scheduled move is the step of that point. -/
theorem step_eq (h : s.AtPoint pt) {rest : List Move} (hs : s.schedule = .irq :: rest) :
    step s = handlerStep pt { s with schedule := rest } := by
  rw [step_alive hs h.alive, performAlive, irqStep, h.here]
  simp only [h.idle]

/-- A command that completes leaves its result at the handler's port. -/
theorem finish_eq (h : s.AtPoint pt) (r : Result) : s.finish r = { s with irq := { s.irq with result := r } } := by
  have hc : s.context = .irq := by simp [State.context, h.here]
  have hport : ({ s.irq with op := none, result := r } : Port) = { s.irq with result := r } := by rw [← h.idle]
  rw [State.finish, State.modifyPort, hc]
  simp only [hport]

/-- PEEKW, and the decision on how many are unread. -/
theorem step_peek (h : s.AtPoint .peek) (hcopy : s.consumerRd = s.rd) :
    handlerStep .peek s =
      .next (let u := { s with irq := { s.irq with result := .word s.wr } }
        if s.unread = 0 then u.leaveHandler
        else if s.slotCount < s.unread.toNat then u.goto (.skip (s.unread.toNat - s.slotCount))
        else u.goto .fetch) := by
  have hpeek := exec_peekw_of_canIssue s h.canIssue
  rw [h.finish_eq] at hpeek
  rw [handlerStep, hpeek, andThen_next]
  have hword : (({ s with irq := { s.irq with result := .word s.wr } } : State).port.result.asWord - s.consumerRd) =
      s.unread := by
    rw [State.port_of_handler (by exact h.running), hcopy]
    rfl
  unfold drainDecide
  simp only [hword]
  rfl

/-- ADVR, where the ring is not empty. -/
theorem exec_advr (h : s.AtPoint pt) (hne : s.rd ≠ s.wr) :
    exec .advr s = .next { s with
      rd := s.rd + 1, consumerRd := s.consumerRd + 1, irq := { s.irq with result := .none } } := by
  rw [exec_advr_of_canIssue h.canIssue, if_neg h.running, if_neg hne]
  exact congrArg Host.Outcome.next
    (finish_eq (s := { s with rd := s.rd + 1, consumerRd := s.consumerRd + 1 }) ⟨h.alive, h.idle, h.here⟩ .none)

/-- RDSLOT at the consumer's copy of the read cursor. -/
theorem step_fetch (h : s.AtPoint .fetch) :
    handlerStep .fetch s = .next (({ s with
      irq := { s.irq with result := .address (s.slotAt s.consumerRd) } }).goto (.notify (s.slotAt s.consumerRd))) := by
  rw [handlerStep, exec_rdslot_of_canIssue h.canIssue, h.finish_eq, andThen_next,
    State.port_of_handler (by exact h.running)]
  rfl

/-- NOTIFY reads the byte now in the store for the mode register alone. -/
theorem step_notify {a : Address} (h : s.AtPoint (.notify a)) :
    handlerStep (.notify a) s = .next (
      let u := s.afterPortBRead a.toNat
      let b := s.portBRead a.toNat
      if a = Config.modeReg then notifyDecide a { u with irq := { s.irq with result := .byte b } }
      else (s.markWatched Config.watch a).goto .advance) := by
  have ha : (a.setWidth 32).toNat = a.toNat := by
    have := a.isLt
    rw [BitVec.toNat_setWidth]
    omega
  have hread := exec_rdv_of_canIssue h.canIssue (addr := a.setWidth 32) (by rw [ha]; exact a.isLt)
  have hpoint : (s.afterPortBRead a.toNat).AtPoint (.notify a) :=
    ⟨by simpa using h.alive, by simpa using h.idle, by simpa using h.here⟩
  rw [ha, hpoint.finish_eq, State.afterPortBRead_irq] at hread
  rw [handlerStep]
  split_ifs
  · rw [hread]; rfl
  · rfl

end State.AtPoint

/-! ## NOTIFY (45_reference_consumer.md R283) -/

/-- Bit 5 of the byte is the one the mode mask looks at. -/
theorem modeMask_iff (b : Byte) : ((b &&& Config.modeMask) != 0) = b.getLsbD 5 := by
  have hmask : Config.modeMask = BitVec.twoPow 8 5 := rfl
  rw [hmask, BitVec.and_twoPow]
  cases b.getLsbD 5 <;> rfl

theorem State.modeSwitchFires_iff (a : Address) (b : Byte) :
    s.modeSwitchFires a b = true ↔ a = 0xBFFE ∧ b.getLsbD 5 = true ∧ s.hsLatched = false := by
  rw [State.modeSwitchFires, modeMask_iff]
  simp [Config.modeReg, and_assoc]

/-- The range tests write the two flags. -/
theorem State.markWatched_frame (r : Config.WatchRanges) (a : Address) :
    s.markWatched r a =
      { s with flagVideo := (s.markWatched r a).flagVideo, flagSound := (s.markWatched r a).flagSound } := by
  unfold State.markWatched
  split_ifs <;> rfl


/-- A NOTIFY leaves the handler's result and, in the tear window, the count of draws behind it; it fires the mode switch,
or makes the range tests. -/
theorem State.AtPoint.step_notify_cases {a : Address} (h : s.AtPoint (.notify a)) :
    ∃ r d, (s.inTearWindow a.toNat = false → d = s.draws) ∧
      handlerStep (.notify a) s = .next (
        let u := { s with irq := { s.irq with result := r }, draws := d }
        if s.modeSwitchFires a (s.portBRead a.toNat) then u.goto .latchHighSpeed
        else (u.markWatched Config.watch a).goto .advance) := by
  rw [h.step_notify]
  by_cases hreg : a = Config.modeReg
  case neg =>
    have hfires : s.modeSwitchFires a (s.portBRead a.toNat) = false := by simp [State.modeSwitchFires, hreg]
    refine ⟨s.irq.result, s.draws, fun _ => rfl, ?_⟩
    simp only [if_neg hreg, hfires]
    rfl
  case pos =>
    refine ⟨.byte (s.portBRead a.toNat), (s.afterPortBRead a.toNat).draws, fun hw => ?_, ?_⟩
    · rw [State.afterPortBRead_outside s hw]
    · have hframe : s.afterPortBRead a.toNat = { s with draws := (s.afterPortBRead a.toNat).draws } := by
        unfold State.afterPortBRead
        split_ifs <;> rfl
      simp only [if_pos hreg]
      rw [hframe, notifyDecide, State.port_of_handler (by exact h.running)]
      rfl

/-! ## MODE_SWITCH (45_reference_consumer.md R284) -/

/-- The shutdown of an idle, enabled pipeline takes the handler two moves. -/
theorem State.AtPoint.steps_shutdown (h : s.AtPoint .shutdown) (he : s.enabled = true) (hp : s.phase = .idle)
    {rest : List Move} (hs : s.schedule = .irq :: .irq :: rest) :
    steps 2 s = .next { s with
      enabled := false, stopping := false, handler := .drain .persistMarker, irq := { s.irq with result := .none },
      schedule := rest } := by
  set u : State := { s with stopping := true, handler := .drain .persistMarker, schedule := .irq :: rest } with hu
  have hissue : step s = .next (u.suspend .shutdown) := by
    rw [h.step_eq hs, handlerStep, exec_shutdown_of_canIssue (by exact h.canIssue), if_pos (by exact he), andThen_next]
    simp [State.suspend, State.modifyPort, State.context, State.goto, h.here, hu]
  have hwait : step (u.suspend .shutdown) = .next (shutdownComplete (({ u with schedule := rest }).suspend .shutdown)) :=
    step_ownMove (u.suspend .shutdown) (p := .shutdown) (ms := rest) h.alive rfl rfl
  have hpoint : ({ u with enabled := false, stopping := false, schedule := rest } : State).AtPoint .persistMarker :=
    ⟨h.alive, h.idle, rfl⟩
  rw [shutdownComplete_suspend (s := { u with schedule := rest }) rfl hp, hpoint.finish_eq] at hwait
  exact (steps_succ s 1 hissue).trans (steps_succ _ 0 hwait)

/-- A reboot's INIT finds the marker that was persisted before it. -/
theorem exec_init_reboot (hr : s.resourcesOk = true) :
    exec .init s.reboot = .next ((initConsumer (initBlock s.reboot)).finish .none) := by
  have hready : s.reboot.canIssue := ⟨rfl, rfl⟩
  rw [exec_init_of_canIssue hready, if_neg (fun h => h rfl), if_neg (by exact Bool.false_ne_true), if_pos (by exact hr)]

end Sys2Proof.Machine

namespace Sys2Proof.Proofs

open Sys2Proof.Machine

/-- Settles O55: outside the tear window NOTIFY sees the stored byte; the range tests are those of O56. -/
theorem notifyTests : Obligations.NotifyTests := by
  intro s rest a hf ho hh hs hout fires inVideo inSound
  have hpoint : s.AtPoint (.notify a) := ⟨hf, ho, hh⟩
  have hpoint' : ({ s with schedule := rest } : State).AtPoint (.notify a) := ⟨hf, ho, hh⟩
  have hwindow : s.inTearWindow a.toNat = false := by
    refine (s.inTearWindow_eq_false a.toNat).mpr fun ⟨hp, ha⟩ => hout ⟨hp, BitVec.eq_of_toNat_eq ha⟩
  obtain ⟨r, d, hd, hstep⟩ := hpoint'.step_notify_cases
  obtain rfl : d = s.draws := hd hwindow
  have hfires : ({ s with schedule := rest } : State).modeSwitchFires a
      (({ s with schedule := rest } : State).portBRead a.toNat) = true ↔ fires := by
    rw [State.modeSwitchFires_iff, State.portBRead_outside _ (by exact hwindow)]
    rfl
  rw [hpoint.step_eq hs, hstep]
  refine ⟨_, rfl, ?_⟩
  by_cases hc : fires
  · simp only [hfires.mpr hc, if_true]
    exact ⟨rfl, fun _ => ⟨rfl, rfl, rfl⟩, fun h => absurd hc h⟩
  · simp only [mt hfires.mp hc, Bool.false_eq_true, if_false]
    refine ⟨?frame, fun h => absurd h hc, fun _ => ⟨rfl, fun hv => ?video, fun hv hsnd => ?sound, fun hv hsnd => ?none⟩⟩
    case frame =>
      rw [State.markWatched_frame]
      rfl
    case video => rw [State.markWatched, if_pos hv]; exact ⟨rfl, rfl⟩
    case sound => rw [State.markWatched, if_neg hv, if_pos hsnd]; exact ⟨rfl, rfl⟩
    case none => rw [State.markWatched, if_neg hv, if_neg hsnd]; exact ⟨rfl, rfl⟩

/-- Settles O57: the pipeline is down when the marker is written, and INIT reads the marker. -/
theorem modeSwitchReboots : Obligations.ModeSwitchReboots := by
  intro s rest hf ho hh he hp hr hs
  set m : State := { s with
    hsLatched := true, enabled := false, stopping := false, handler := .drain .persistMarker,
    irq := { s.irq with result := .none }, schedule := .irq :: .irq :: rest } with hm
  have hlatch : step s = .next (({ s with hsLatched := true, schedule := .irq :: .irq :: .irq :: .irq :: rest }).goto .shutdown) :=
    State.AtPoint.step_eq ⟨hf, ho, hh⟩ hs
  have hpoint : (({ s with hsLatched := true, schedule := .irq :: .irq :: .irq :: .irq :: rest } : State).goto .shutdown).AtPoint
    .shutdown := ⟨hf, ho, rfl⟩
  have hthree : steps 3 s = .next m := (steps_succ s 2 hlatch).trans (hpoint.steps_shutdown he hp rfl)
  have hmark : step m = .next (({ m with marker := .magic, schedule := .irq :: rest }).goto .reboot) :=
    State.AtPoint.step_eq (s := m) (pt := .persistMarker) ⟨hf, ho, rfl⟩ rfl
  have hreboot : step (({ m with marker := .magic, schedule := .irq :: rest }).goto .reboot) =
      .next ((({ m with marker := .magic, schedule := rest }).goto .reboot).reboot) :=
    State.AtPoint.step_eq (s := ({ m with marker := .magic, schedule := .irq :: rest }).goto .reboot) (pt := .reboot)
      ⟨hf, ho, rfl⟩ rfl
  have hfive := (steps_add s 3 2 hthree).trans ((steps_succ m 1 hmark).trans (steps_succ _ 0 hreboot))
  refine ⟨m, _, _, hthree, rfl, rfl, rfl, rfl, rfl, rfl, hfive, rfl, rfl, rfl, rfl, rfl, rfl, rfl,
    exec_init_reboot (by exact hr), ?_, fun a b => ?_⟩
  · rfl
  · exact Bool.eq_false_iff.mpr fun hfires => absurd ((State.modeSwitchFires_iff a b).mp hfires).2.2 nofun

end Sys2Proof.Proofs
end

section
/-! PROOFS. DRAIN: it skips the lost events, and delivers the unread ones in order (43_eventlog.md R236 to R238). -/

namespace Sys2Proof.Machine

variable {s t : State}

/-- The events still in the slots depend on the slots, the write cursor and their number. -/
theorem State.unreadEvents_congr (hslots : t.slots = s.slots) (hwr : t.wr = s.wr) (h : t.inRing = s.inRing) :
    t.unreadEvents = s.unreadEvents := by
  rw [State.unreadEvents_eq_lastEvents, State.unreadEvents_eq_lastEvents, State.lastEvents_congr hslots hwr, h]

/-! ## The states of a DRAIN -/

/-- The handler stands at `pt`, its last result is `r`, and `ms` is scheduled. -/
def State.drainAt (s : State) (pt : DrainPoint) (r : Result) (ms : List Move) : State :=
  { s with handler := .drain pt, irq := { s.irq with result := r }, schedule := ms }

/-- As `State.drainAt`, after an ADVR that moved the read cursor and the consumer's copy to `c`. -/
def State.advancedTo (s : State) (c : Word) (pt : DrainPoint) (ms : List Move) : State :=
  ({ s with rd := c, consumerRd := c } : State).drainAt pt .none ms

namespace State.AtPoint

variable {pt : DrainPoint} {rest : List Move}

theorem drainAt (h : s.AtPoint pt) (pt' : DrainPoint) (r : Result) (ms : List Move) : (s.drainAt pt' r ms).AtPoint pt' :=
  ⟨h.alive, h.idle, rfl⟩

theorem advancedTo (h : s.AtPoint pt) (c : Word) (pt' : DrainPoint) (ms : List Move) : (s.advancedTo c pt' ms).AtPoint pt' :=
  ⟨h.alive, h.idle, rfl⟩

/-- The schedule is no part of the point. -/
theorem withSchedule (h : s.AtPoint pt) (ms : List Move) : ({ s with schedule := ms } : State).AtPoint pt :=
  ⟨h.alive, h.idle, h.here⟩

/-- An ADVR of the handler, and the point it goes to. -/
theorem advr_goto (h : s.AtPoint pt) (hcopy : s.consumerRd = s.rd) (hpos : 0 < s.unread.toNat) (pt' : DrainPoint)
    (ms : List Move) :
    andThen (exec .advr { s with schedule := ms }) (·.goto pt') = .next (s.advancedTo (s.rd + 1) pt' ms) := by
  have hne : s.rd ≠ s.wr := fun heq => by simp [State.unread, heq] at hpos
  rw [(h.withSchedule ms).exec_advr hne, andThen_next]
  simp only [hcopy]
  rfl

/-- PEEKW of a handler that has caught up: it returns. -/
theorem step_peek_empty (h : s.AtPoint .peek) (hcopy : s.consumerRd = s.rd) (hzero : s.unread = 0)
    (hs : s.schedule = .irq :: rest) : step s = .next ((s.drainAt .peek (.word s.wr) rest).leaveHandler) := by
  rw [h.step_eq hs, step_peek (h.withSchedule rest) hcopy]
  exact congrArg Host.Outcome.next (if_pos hzero)

/-- PEEKW of a handler that has lost nothing. -/
theorem step_peek_fetch (h : s.AtPoint .peek) (hcopy : s.consumerRd = s.rd) (hpos : 0 < s.unread.toNat)
    (hle : s.unread.toNat ≤ s.slotCount) (hs : s.schedule = .irq :: rest) :
    step s = .next (s.drainAt .fetch (.word s.wr) rest) := by
  have hne : s.unread ≠ 0 := fun h0 => by simp [h0] at hpos
  rw [h.step_eq hs, step_peek (h.withSchedule rest) hcopy]
  exact congrArg Host.Outcome.next ((if_neg hne).trans (if_neg (Nat.not_lt.mpr hle)))

/-- PEEKW of a handler that has lost events. -/
theorem step_peek_skip (h : s.AtPoint .peek) (hcopy : s.consumerRd = s.rd) (hlost : s.slotCount < s.unread.toNat)
    (hs : s.schedule = .irq :: rest) :
    step s = .next (s.drainAt (.skip (s.unread.toNat - s.slotCount)) (.word s.wr) rest) := by
  have hne : s.unread ≠ 0 := fun h0 => by simp [h0] at hlost
  rw [h.step_eq hs, step_peek (h.withSchedule rest) hcopy]
  exact congrArg Host.Outcome.next ((if_neg hne).trans (if_pos hlost))

/-! ## Skipping the lost events -/

/-- One ADVR skips one event. -/
theorem steps_skip (k : Nat) (h : s.AtPoint (.skip (k + 1))) (hcopy : s.consumerRd = s.rd) (hk : k < s.unread.toNat)
    (hs : s.schedule = List.replicate (k + 1) .irq ++ rest) :
    steps (k + 1) s = .next (s.advancedTo (s.rd + BitVec.ofNat 32 (k + 1)) .peek rest) := by
  induction k generalizing s with
  | zero => exact steps_succ s 0 ((h.step_eq hs).trans (h.advr_goto hcopy hk .peek rest))
  | succ k ih =>
    set ms := List.replicate (k + 1) Move.irq ++ rest with hms
    set t := s.advancedTo (s.rd + 1) (.skip (k + 1)) ms with ht
    have hstep : step s = .next t := (h.step_eq hs).trans (h.advr_goto hcopy (by omega) (.skip (k + 1)) ms)
    have hunread : t.unread.toNat = s.unread.toNat - 1 := State.unread_advance rfl rfl (by omega)
    have hcursor : s.rd + BitVec.ofNat 32 (k + 1 + 1) = s.rd + 1 + BitVec.ofNat 32 (k + 1) := by
      rw [Nat.add_comm (k + 1), BitVec.ofNat_add, ← BitVec.add_assoc]
      rfl
    rw [hcursor]
    exact (steps_succ s (k + 1) hstep).trans (ih (h.advancedTo _ _ _) rfl (by omega) hms)

/-! ## One event -/

/-- RDSLOT of the oldest event. -/
theorem step_fetch_oldest (h : s.AtPoint .fetch) (hcopy : s.consumerRd = s.rd) (hs : s.schedule = .irq :: rest) :
    step s = .next (s.drainAt (.notify (s.slotAt s.rd)) (.address (s.slotAt s.rd)) rest) := by
  have hstep : step s = .next (s.drainAt (.notify (s.slotAt s.consumerRd)) (.address (s.slotAt s.consumerRd)) rest) :=
    (h.step_eq hs).trans (step_fetch (h.withSchedule rest))
  rwa [hcopy] at hstep

/-- NOTIFY where the mode switch does not fire. -/
theorem handlerStep_notify_quiet {a : Address} (h : s.AtPoint (.notify a))
    (hfires : s.hsLatched = true ∨ a ≠ Config.modeReg) :
    ∃ fv fs d r, handlerStep (.notify a) s =
      .next (({ s with flagVideo := fv, flagSound := fs, draws := d } : State).drainAt .advance r s.schedule) := by
  have hquiet : ∀ b, s.modeSwitchFires a b = false := fun b => by
    rcases hfires with hl | ha
    · simp [State.modeSwitchFires, hl]
    · simp [State.modeSwitchFires, ha]
  obtain ⟨r, d, -, hstep⟩ := h.step_notify_cases
  simp only [hquiet, Bool.false_eq_true, if_false] at hstep
  rw [State.markWatched_frame] at hstep
  exact ⟨_, _, d, r, hstep⟩

/-- PEEKW, RDSLOT, NOTIFY, ADVR: the oldest event is delivered in four moves, of which the second brings the handler to
NOTIFY. The flags and the count of draws are as NOTIFY leaves them. -/
theorem steps_event (h : s.AtPoint .peek) (hcopy : s.consumerRd = s.rd) (hpos : 0 < s.unread.toNat)
    (hle : s.unread.toNat ≤ s.slotCount) (hfires : s.hsLatched = true ∨ s.slotAt s.rd ≠ Config.modeReg)
    (hs : s.schedule = .irq :: .irq :: .irq :: .irq :: rest) :
    (∃ m, steps 2 s = .next m ∧ m.handler = .drain (.notify (s.slotAt s.rd))) ∧
    ∃ fv fs d, steps 4 s =
      .next (({ s with flagVideo := fv, flagSound := fs, draws := d } : State).advancedTo (s.rd + 1) .peek rest) := by
  set a := s.slotAt s.rd
  have hpeek := h.step_peek_fetch hcopy hpos hle hs
  set t := s.drainAt .fetch (.word s.wr) (.irq :: .irq :: .irq :: rest)
  have htPoint : t.AtPoint .fetch := h.drainAt _ _ _
  have hfetch : step t = .next (t.drainAt (.notify a) (.address a) (.irq :: .irq :: rest)) :=
    htPoint.step_fetch_oldest hcopy rfl
  set u := t.drainAt (.notify a) (.address a) (.irq :: .irq :: rest)
  have huPoint : u.AtPoint (.notify a) := htPoint.drainAt _ _ _
  have htwo : steps 2 s = .next u := (steps_succ s 1 hpeek).trans (steps_succ _ 0 hfetch)
  obtain ⟨fv, fs, d, r, hnotify⟩ := (huPoint.withSchedule (.irq :: rest)).handlerStep_notify_quiet hfires
  set x : State := ({ u with flagVideo := fv, flagSound := fs, draws := d } : State).drainAt .advance r (.irq :: rest)
  have hxPoint : x.AtPoint .advance := ⟨h.alive, h.idle, rfl⟩
  have hadvr : step x = .next (x.advancedTo (x.rd + 1) .peek rest) :=
    (hxPoint.step_eq rfl).trans (hxPoint.advr_goto hcopy hpos .peek rest)
  exact ⟨⟨u, htwo, rfl⟩, fv, fs, d,
    (steps_add s 2 2 htwo).trans ((steps_succ u 1 ((huPoint.step_eq rfl).trans hnotify)).trans (steps_succ x 0 hadvr))⟩

end State.AtPoint

/-! ## The whole drain -/

/-- The handler has returned with the ring empty; the write cursor and the store are as in `s`, and `rest` is scheduled. -/
structure State.Drained (s e : State) (rest : List Move) : Prop where
  returned : e.handler = .off
  rd_eq : e.rd = s.wr
  wr_eq : e.wr = s.wr
  copy_eq : e.consumerRd = s.wr
  schedule_eq : e.schedule = rest
  boots_eq : e.boots = s.boots
  v_eq : e.v = s.v
  p_eq : e.p = s.p

/-- Each round of PEEKW, RDSLOT, NOTIFY and ADVR delivers the oldest unread event, and the last PEEKW finds none. -/
theorem State.AtPoint.steps_drain (n : Nat) (h : s.AtPoint .peek) (hcopy : s.consumerRd = s.rd) (hn : s.unread.toNat = n)
    (hle : n ≤ s.slotCount) (hfires : s.hsLatched = true ∨ Config.modeReg ∉ s.lastEvents n) {rest : List Move}
    (hs : s.schedule = List.replicate (4 * n + 1) .irq ++ rest) :
    (∀ j a, (s.lastEvents n)[j]? = some a →
      ∃ m, steps (4 * j + 2) s = .next m ∧ m.handler = .drain (.notify a)) ∧
    ∃ e, steps (4 * n + 1) s = .next e ∧ s.Drained e rest := by
  induction n generalizing s with
  | zero =>
    have hzero : s.unread = 0 := BitVec.eq_of_toNat_eq hn
    have hrd : s.rd = s.wr := by simpa using (State.sub_unread hn).symm
    refine ⟨nofun, _, steps_succ s 0 (h.step_peek_empty hcopy hzero hs), ?_⟩
    exact ⟨rfl, hrd, rfl, hcopy.trans hrd, rfl, rfl, rfl, rfl⟩
  | succ n ih =>
    have hevents : s.lastEvents (n + 1) = s.slotAt s.rd :: s.lastEvents n := by
      rw [State.lastEvents, State.sub_unread hn]
    rw [hevents] at hfires ⊢
    obtain ⟨⟨m, htwo, hm⟩, fv, fs, d, hfour⟩ := h.steps_event (rest := List.replicate (4 * n + 1) Move.irq ++ rest) hcopy
      (by omega) (by omega)
      (hfires.imp_right fun hmem heq => hmem (heq ▸ List.mem_cons_self)) hs
    set t := ({ s with flagVideo := fv, flagSound := fs, draws := d } : State).advancedTo (s.rd + 1) .peek
      (List.replicate (4 * n + 1) .irq ++ rest)
    have hunread : t.unread.toNat = s.unread.toNat - 1 := State.unread_advance rfl rfl (by omega)
    have hsame : t.lastEvents n = s.lastEvents n := State.lastEvents_congr (s := s) (t := t) rfl rfl n
    obtain ⟨hnotified, e, hend, hdrained⟩ := ih (s := t) ⟨h.alive, h.idle, rfl⟩ rfl (by omega) (by exact Nat.le_of_succ_le hle)
      (hsame ▸ hfires.imp_right fun hmem hin => hmem (List.mem_cons_of_mem _ hin)) rfl
    refine ⟨fun j a hj => ?_, e, ?_, ?_⟩
    · cases j with
      | zero =>
        obtain rfl : s.slotAt s.rd = a := by simpa using hj
        exact ⟨m, htwo, hm⟩
      | succ j =>
        obtain ⟨x, hx, hx'⟩ := hnotified j a (by simpa [hsame] using hj)
        exact ⟨x, by rw [show 4 * (j + 1) + 2 = 4 + (4 * j + 2) by omega, steps_add s 4 _ hfour, hx], hx'⟩
    · rw [show 4 * (n + 1) + 1 = 4 + (4 * n + 1) by omega, steps_add s 4 _ hfour, hend]
    · exact ⟨hdrained.returned, hdrained.rd_eq, hdrained.wr_eq, hdrained.copy_eq, hdrained.schedule_eq,
        hdrained.boots_eq, hdrained.v_eq, hdrained.p_eq⟩

end Sys2Proof.Machine

namespace Sys2Proof.Proofs

open Sys2Proof.Machine

/-- Settles O46: PEEKW finds how many are lost, and as many ADVRs skip them. -/
theorem drainSkipsLostEvents : Obligations.DrainSkipsLostEvents := by
  intro s rest hf ho hh hcopy hn hlost hs
  have hpoint : s.AtPoint .peek := ⟨hf, ho, hh⟩
  obtain ⟨k, hk⟩ : ∃ k, s.unread.toNat - s.slotCount = k + 1 := ⟨s.unread.toNat - s.slotCount - 1, by omega⟩
  rw [hk] at hs ⊢
  have hpeek := hpoint.step_peek_skip hcopy hlost hs
  rw [hk] at hpeek
  have hskip := (hpoint.drainAt (.skip (k + 1)) (.word s.wr) (List.replicate (k + 1) .irq ++ rest)).steps_skip k hcopy
    (by exact (by omega : k < s.unread.toNat)) rfl
  have hcursor : s.rd + BitVec.ofNat 32 (k + 1) = s.wr - BitVec.ofNat 32 s.slotCount := by
    have hle : s.unread.toNat < 2 ^ 32 := s.unread.isLt
    rw [← hk, ← BitVec.ofNat_sub_ofNat_of_le _ _ (by omega) hlost.le, ← State.sub_unread rfl]
    ring
  refine ⟨_, (steps_succ s (k + 1) hpeek).trans hskip, rfl, hcursor, ?events, ?frame⟩
  case events =>
    have hunread : (s.wr - (s.rd + BitVec.ofNat 32 (k + 1))).toNat = s.slotCount := by
      rw [hcursor, sub_sub_cancel, BitVec.toNat_ofNat, Nat.mod_eq_of_lt (hlost.trans s.unread.isLt)]
    have hinRing : min (s.wr - (s.rd + BitVec.ofNat 32 (k + 1))).toNat s.slotCount = min s.unread.toNat s.slotCount := by
      rw [hunread, Nat.min_self, Nat.min_eq_right hlost.le]
    exact State.unreadEvents_congr (by rfl) (by rfl) (by exact hinRing)
  case frame =>
    change s.advancedTo (s.rd + BitVec.ofNat 32 (k + 1)) .peek rest = _
    rw [hcursor, State.advancedTo, State.drainAt, ← hh]

/-- Settles O47: by induction on the number of unread events. -/
theorem drainDeliversUnreadEventsInOrder : Obligations.DrainDeliversUnreadEventsInOrder := by
  intro s rest hf ho hh hcopy _ hle hfires hs
  have hevents : s.unreadEvents = s.lastEvents s.unread.toNat := by
    rw [State.unreadEvents_eq_lastEvents, State.inRing, Nat.min_eq_left hle]
  rw [hevents] at hfires ⊢
  obtain ⟨hnotified, e, hend, hdrained⟩ := State.AtPoint.steps_drain _ ⟨hf, ho, hh⟩ hcopy rfl hle hfires hs
  obtain ⟨hoff, hrd, hwr, hcopy', hsched, hboots, hv, hp⟩ := hdrained
  exact ⟨hnotified, State.lastEvents_length _, e, hend, hoff, hrd, hwr, by simp [State.evtIrq, hrd, hwr],
    hcopy'.trans hrd.symm, hsched, State.readV_congr hv hboots, State.readP_congr hp hboots⟩

end Sys2Proof.Proofs
end
